-- ==== Sys2Proof/Word.lean ====
section
/-! DEFINITION. The word types of the CORE (00_scope.md R8; 10_state.md R13, R19). Every quantity is unsigned
(20_memory.md R61), and every one of them is a bit vector only where the spec gives it a width in bits. -/

namespace Sys2Proof

/-- A 32-bit register word or command word (10_state.md R19, 30_encoding.md R65). -/
abbrev Word := BitVec 32

/-- The value of a `_LO`, `_HI` register pair (00_scope.md R8, 20_memory.md R50). -/
abbrev DWord := BitVec 64

/-- One byte of a container (00_scope.md R8). -/
abbrev Byte := BitVec 8

/-- A symbol: any 16-bit value, ordered as an unsigned integer (10_state.md R13). -/
abbrev Sym := BitVec 16

/-- A bit string, first bit leftmost (00_scope.md R8). -/
abbrev Bits := List Bool

end Sys2Proof
end

