-- ==== Sys2Proof/Syntax.lean ====
section
/-! DEFINITION. The 22 commands of 30_encoding.md R68, one constructor per row of the opcode map. -/

namespace Sys2Proof

/-- A command. Only `PUSHS` and `PUSHB` carry an operand; every other operand is implicit (30_encoding.md R67). -/
inductive Instr where
  /-- `NOP`, 40_housekeeping.md R80. -/
  | nop
  /-- `SRESET`, R81. -/
  | sreset
  /-- `CLRCHUNK`, R82. -/
  | clrchunk
  /-- `CLRIN`, R83. -/
  | clrin
  /-- `PUSHS imm16`, R84. -/
  | pushs (imm16 : Sym)
  /-- `PUSHB imm8`, R85. -/
  | pushb (imm8 : Byte)
  /-- `FREQ`, 41_frequency_analyzer.md R90. -/
  | freq
  /-- `BUILD`, 42_trie_builder.md R95. -/
  | build
  /-- `CODES`, 43_code_table_builder.md R106. -/
  | codes
  /-- `PACK`, 44_bit_packer_unpacker.md R110. -/
  | pack
  /-- `UNPACK`, 44_bit_packer_unpacker.md R113. -/
  | unpack
  /-- `SERTRIE`, 45_trie_serializer.md R121. -/
  | sertrie
  /-- `DESERTRIE`, 45_trie_serializer.md R122. -/
  | desertrie
  /-- `WRHEAD`, 46_chunk_codec.md R131. -/
  | wrhead
  /-- `WRPAY`, 46_chunk_codec.md R132. -/
  | wrpay
  /-- `EMITREC`, 46_chunk_codec.md R133. -/
  | emitrec
  /-- `ENCODE`, 46_chunk_codec.md R134. -/
  | encode
  /-- `RDHEAD`, 46_chunk_codec.md R136. -/
  | rdhead
  /-- `RDPAY`, 46_chunk_codec.md R138. -/
  | rdpay
  /-- `DECODE`, 46_chunk_codec.md R140. -/
  | decode
  /-- `WRHDR`, 47_container.md R151. -/
  | wrhdr
  /-- `RDHDR`, 47_container.md R152. -/
  | rdhdr
deriving DecidableEq, Repr

end Sys2Proof
end

