-- ==== Sys2Proof/Decode.lean ====
section
/-! DEFINITION. From a command word to a command and back (30_encoding.md R65 to R70, R73). -/

namespace Sys2Proof

/-- Why a word is illegal (30_encoding.md R69). Both kinds raise `IllegalCommandError` when executed while `ERR = 0`
(60_exceptions.md R166). -/
inductive Illegal where
  /-- No row of the opcode map has this opcode. -/
  | unassignedOpcode (opcode : BitVec 8)
  /-- The opcode is assigned and a must-be-zero bit of its format is set. -/
  | reservedBitSet (opcode : BitVec 8)
deriving DecidableEq, Repr

/-- What a word decodes to. -/
inductive Decoded where
  | instr (i : Instr)
  | illegal (why : Illegal)
deriving DecidableEq, Repr

/-- Bits 7:0 of every format (30_encoding.md R66). -/
def opcodeField (w : Word) : BitVec 8 := w.extractLsb' 0 8

/-- `imm16 = w[31:16]` (30_encoding.md R67). -/
def imm16Field (w : Word) : Sym := w.extractLsb' 16 16

/-- `imm8 = w[23:16]` (30_encoding.md R67). -/
def imm8Field (w : Word) : Byte := w.extractLsb' 16 8

/-- Format Z: bits 31:8 must be zero. -/
def decodeZ (w : Word) (i : Instr) : Decoded :=
  if w.extractLsb' 8 24 = 0#24 then .instr i else .illegal (.reservedBitSet (opcodeField w))

/-- Format S: bits 15:8 must be zero. -/
def decodeS (w : Word) (i : Instr) : Decoded :=
  if w.extractLsb' 8 8 = 0#8 then .instr i else .illegal (.reservedBitSet (opcodeField w))

/-- Format B: bits 31:24 and 15:8 must be zero. -/
def decodeB (w : Word) (i : Instr) : Decoded :=
  if w.extractLsb' 24 8 = 0#8 ∧ w.extractLsb' 8 8 = 0#8 then .instr i
  else .illegal (.reservedBitSet (opcodeField w))

/-- The opcode map of 30_encoding.md R68; every other opcode is unassigned (R69). -/
def decode (w : Word) : Decoded :=
  match opcodeField w with
  | 0x00#8 => decodeZ w .nop
  | 0x01#8 => decodeZ w .sreset
  | 0x02#8 => decodeZ w .clrchunk
  | 0x03#8 => decodeZ w .clrin
  | 0x04#8 => decodeS w (.pushs (imm16Field w))
  | 0x05#8 => decodeB w (.pushb (imm8Field w))
  | 0x10#8 => decodeZ w .freq
  | 0x11#8 => decodeZ w .build
  | 0x12#8 => decodeZ w .codes
  | 0x13#8 => decodeZ w .pack
  | 0x14#8 => decodeZ w .unpack
  | 0x15#8 => decodeZ w .sertrie
  | 0x16#8 => decodeZ w .desertrie
  | 0x20#8 => decodeZ w .wrhead
  | 0x21#8 => decodeZ w .wrpay
  | 0x22#8 => decodeZ w .emitrec
  | 0x23#8 => decodeZ w .encode
  | 0x24#8 => decodeZ w .rdhead
  | 0x25#8 => decodeZ w .rdpay
  | 0x26#8 => decodeZ w .decode
  | 0x30#8 => decodeZ w .wrhdr
  | 0x31#8 => decodeZ w .rdhdr
  | op => .illegal (.unassignedOpcode op)

/-- The opcode of a command, the "Opcode" column of 30_encoding.md R68. -/
def opcodeOf : Instr → BitVec 8
  | .nop => 0x00#8
  | .sreset => 0x01#8
  | .clrchunk => 0x02#8
  | .clrin => 0x03#8
  | .pushs _ => 0x04#8
  | .pushb _ => 0x05#8
  | .freq => 0x10#8
  | .build => 0x11#8
  | .codes => 0x12#8
  | .pack => 0x13#8
  | .unpack => 0x14#8
  | .sertrie => 0x15#8
  | .desertrie => 0x16#8
  | .wrhead => 0x20#8
  | .wrpay => 0x21#8
  | .emitrec => 0x22#8
  | .encode => 0x23#8
  | .rdhead => 0x24#8
  | .rdpay => 0x25#8
  | .decode => 0x26#8
  | .wrhdr => 0x30#8
  | .rdhdr => 0x31#8

/-- Bits 31:8 of a command word: the immediate in its place, every other bit zero (30_encoding.md R66). -/
def operandField : Instr → BitVec 24
  | .pushs imm16 => imm16 ++ 0x00#8
  | .pushb imm8 => 0x00#8 ++ imm8 ++ 0x00#8
  | .nop | .sreset | .clrchunk | .clrin => 0#24
  | .freq | .build | .codes | .pack | .unpack | .sertrie | .desertrie => 0#24
  | .wrhead | .wrpay | .emitrec | .encode | .rdhead | .rdpay | .decode => 0#24
  | .wrhdr | .rdhdr => 0#24

/-- The word of a command (30_encoding.md R66, R68): what the host writes to `CMD` to run it. -/
def encode (i : Instr) : Word := operandField i ++ opcodeOf i

/-- The decoder on an opcode-table word: `w` numbered as the table numbers it, its bits from `nbits` on taken as 0. A
command is one 32-bit word that reaches the CORE as one register value, so no byte order enters (20_memory.md R50). -/
def decodeTableWord (nbits w : Nat) : Option Instr :=
  match decode (BitVec.ofNat 32 (w % 2 ^ nbits)) with
  | .instr i => some i
  | .illegal _ => none

end Sys2Proof
end

