-- ==== Sys2Proof/Config.lean ====
section
/-! DEFINITION. The implementation parameters of 00_scope.md R5. "A model takes every OPEN one as an argument": they
stand in `State.params`, so that a statement about every state is a statement about every instance; no step changes
them (10_state.md R43, 70_reset_and_hazards.md R186). The spec leaves no value undefined, so there is no free value. -/

namespace Sys2Proof.Config

/-- The OPEN parameters of one instance (00_scope.md R5). `SYM_W` is fixed: it is the width of `Sym`. -/
structure Params where
  /-- `CHUNK_MAX`: most symbols the symbol buffer holds. -/
  chunkMax : Nat
  /-- `PAY_MAX`: most bytes the payload buffer holds. -/
  payMax : Nat
  /-- `NODE_MAX`: most trie nodes the trie store holds. -/
  nodeMax : Nat
  /-- `INQ_MAX`: most bytes the input byte queue holds. -/
  inqMax : Nat
  /-- `OUTQ_MAX`: most bytes the output byte queue holds. -/
  outqMax : Nat
  /-- `BASE`: byte address of the register space in the host's address map. -/
  base : Nat
deriving DecidableEq, Repr

/-- The instance of `State.reset`: the parameters of 95_test_vectors.md's header, which follow the recommendations of
00_scope.md R5 (`PAY_MAX = 2 * CHUNK_MAX`, `NODE_MAX = 131071`); `BASE = 0`.
DESIGN CHOICE, unsafe for a claim about `State.reset` alone: log 3. -/
def Params.vectors : Params where
  chunkMax := 65536
  payMax := 131072
  nodeMax := 131071
  inqMax := 1048576
  outqMax := 1048576
  base := 0

end Sys2Proof.Config
end

