-- ==== Sys2Proof/Machine/State.lean ====
section
/-! DEFINITION. The state of the machine as plain data: every element of 10_state.md R10, the instance's parameters,
and the host's side of the run (the transactions it has still to issue and the values its reads returned). -/

namespace Sys2Proof.Machine

/-- `Tree ::= Leaf(sym) | Internal(left, right)` (00_scope.md R8, 10_state.md R12). An internal node has no symbol
field, so the document's sentinel does not exist (R13). -/
inductive Tree where
  | leaf (sym : Sym)
  | internal (left right : Tree)
deriving DecidableEq, Repr

/-- The eight fault kinds of 60_exceptions.md R161, in the order of their codes 1 to 8. -/
inductive ErrKind where
  /-- Code 1, R162: tree build on zero symbols. -/
  | emptyInput
  /-- Code 2, R163: the trie in the input is not well-formed. -/
  | malformedTrie
  /-- Code 3, R164: declared lengths exceed the remaining bytes. -/
  | truncatedRecord
  /-- Code 4, R165: the payload is too short for the declared symbol count. -/
  | inconsistentLength
  /-- Code 5, R166: the command word matches no row of the opcode map. -/
  | illegalCommand
  /-- Code 6, R167: a command's precondition does not hold. -/
  | sequence
  /-- Code 7, R168: a buffer limit would be passed. -/
  | capacity
  /-- Code 8, R169: a symbol of the chunk has no code. -/
  | noCode
deriving DecidableEq, Repr

/-- The 24 registers of 10_state.md R19. -/
inductive Reg where
  | cmd | status | err | errinfo | chunkIdx | recIdx | recLen | symCount | payLen | bitcntLo | bitcntHi
  | distinct | nodeCount | totalLo | totalHi | procLo | procHi | inAvail | outAvail | byteOut | symOut
  | qsym | qfreq | qcodelen
deriving DecidableEq, Repr

/-- What the host can do to the CORE in one transaction (00_scope.md R7, 40_housekeeping.md R86). Addresses are byte
addresses of the host's map and `n` is the width of the access in bytes; only `n = 4` is defined (20_memory.md R46).
The value of a write of another width is never looked at: such a write is refused. -/
inductive Txn where
  /-- `MemRead(addr, n)`. -/
  | read (addr n : Nat)
  /-- `MemWrite(addr, n, v)`. -/
  | write (addr n : Nat) (v : Word)
  /-- Hardware reset (70_reset_and_hazards.md R185). -/
  | hardwareReset
deriving DecidableEq, Repr

/-- `FREQ` (10_state.md R14): the entries with a non-zero count, symbols strictly rising; an unlisted symbol has count
0. The table of 65536 counts and this list say the same (log 4). -/
abbrev FreqTable := List (Sym × Nat)

/-- `CODE` (10_state.md R15): the symbols that have a code, strictly rising; an unlisted symbol has none (log 4). -/
abbrev CodeTable := List (Sym × Bits)

/-- The whole state. Fields `symbuf` to `qsym` are 10_state.md R10; the views of R19 are computed (Operands.lean). -/
structure State where
  /-- The instance's parameters, the same in every state of a run (00_scope.md R5, log 3). -/
  params : Config.Params
  /-- `SYMBUF`, R11. -/
  symbuf : List Sym
  /-- `TRIE`, R12. -/
  trie : Option Tree
  /-- `FREQ`, R14. -/
  freq : FreqTable
  /-- `CODE`, R15. -/
  code : CodeTable
  /-- `PAYBUF`, R16. -/
  paybuf : List Byte
  /-- `BITCNT`, R16. -/
  bitcnt : DWord
  /-- `INQ`, R17; element 0 is the head. -/
  inq : List Byte
  /-- `OUTQ`, R18; element 0 is the head. -/
  outq : List Byte
  /-- `FREQ_V`, R21. -/
  freqV : Bool
  /-- `TRIE_V`, R21. -/
  trieV : Bool
  /-- `CODE_V`, R21. -/
  codeV : Bool
  /-- `PAY_V`, R21. -/
  payV : Bool
  /-- `EOC`, R21. -/
  eoc : Bool
  /-- `ERR`, R22: `none` is code 0. -/
  err : Option ErrKind
  /-- `ERRINFO`, R23. -/
  errinfo : Word
  /-- `CHUNK_IDX`, R24. -/
  chunkIdx : Word
  /-- `REC_IDX`, R25. -/
  recIdx : Word
  /-- `REC_LEN`, R26. -/
  recLen : Word
  /-- `TOTAL`, R32. -/
  total : DWord
  /-- `PROC`, R33. -/
  proc : DWord
  /-- `QSYM`, R37. -/
  qsym : Sym
  /-- The host's transactions still to be performed, the next one first (10_state.md R43, 20_memory.md R57, log 1). -/
  pending : List Txn
  /-- The values the host's reads returned, oldest first (log 2). -/
  reads : List Word
deriving DecidableEq, Repr

/-- Reasons the machine stops with a fault. There is none: every fault of the spec is a recorded one after which the
CORE accepts the next transaction (60_exceptions.md R171, 70_reset_and_hazards.md R201; 93 Part 1: "Nothing in this
spec has the treatment stuck"), so it is a next state (log 9). -/
inductive Fault
deriving DecidableEq, Repr

/-- Reasons a step is refused. All but the first are accesses that 20_memory.md R46, R47 leave undefined and tell a
model to refuse (92_eei_decisions.md D23, 93 U9); each is raised by a host read or write and is safe (log 8). -/
inductive Refusal where
  /-- An instruction without a meaning; raised by no arm of this model. Safe. -/
  | notModelled (mnemonic : String)
  /-- An access that does not fall into the 256 bytes at `BASE` (R46). Safe. -/
  | outsideRegisterSpace (addr : Nat)
  /-- An access whose width is not 4 bytes (R46). Safe. -/
  | badWidth (n : Nat)
  /-- An access whose offset is not a multiple of 4 (R46). Safe. -/
  | misaligned (addr : Nat)
  /-- An access to the reserved offsets `0x60` to `0xFC` (R47). Safe. -/
  | reservedOffset (offset : Nat)
deriving DecidableEq, Repr

/-- The state after reset of an instance with parameters `p`, with nothing from the host yet
(70_reset_and_hazards.md R186). -/
def State.resetWith (p : Config.Params) : State where
  params := p
  symbuf := []
  trie := none
  freq := []
  code := []
  paybuf := []
  bitcnt := 0#64
  inq := []
  outq := []
  freqV := false
  trieV := false
  codeV := false
  payV := false
  eoc := false
  err := none
  errinfo := 0#32
  chunkIdx := 0#32
  recIdx := 0#32
  recLen := 0#32
  total := 0#64
  proc := 0#64
  qsym := 0#16
  pending := []
  reads := []

/-- The machine right after reset: R186 for the instance `Config.Params.vectors` (log 3). -/
def State.reset : State := State.resetWith Config.Params.vectors

end Sys2Proof.Machine
end

