-- ==== Sys2Proof/Machine/Ops.lean ====
section
/-! DEFINITION. The shared operations: tables by symbol, the queue primitives, the clearing micro-operations, reset,
and fault entry with the frame every command runs in. -/

namespace Sys2Proof.Machine

/-- `ceil_div(a, b)` (00_scope.md R8). -/
def ceilDiv (a b : Nat) : Nat := (a + b - 1) / b

/-! ## Tables by symbol -/

/-- The entry of symbol `k`, if the table lists one. -/
def tableGet {α : Type} (k : Sym) : List (Sym × α) → Option α
  | [] => none
  | (k', v) :: rest => if k' = k then some v else tableGet k rest

/-- Enter `v` for symbol `k`, replacing an earlier entry and keeping the symbols rising. -/
def tableSet {α : Type} (k : Sym) (v : α) : List (Sym × α) → List (Sym × α)
  | [] => [(k, v)]
  | (k', v') :: rest =>
    if k.toNat < k'.toNat then (k, v) :: (k', v') :: rest
    else if k = k' then (k, v) :: rest
    else (k', v') :: tableSet k v rest

/-- The symbols of a table rise strictly, as unsigned integers (10_state.md R13). -/
def keysRise {α : Type} : List (Sym × α) → Bool
  | [] => true
  | (k, _) :: rest => rest.all (fun e => decide (k.toNat < e.1.toNat)) && keysRise rest

/-- `FREQ[s]` (10_state.md R14): 0 where the table has no entry. -/
def freqAt (f : FreqTable) (s : Sym) : Nat := (tableGet s f).getD 0

/-- The canonical form of the CORE's internal structures held as lists by symbol: symbols strictly rising and no entry
equal to what an unlisted symbol reads as (count 0; the empty string is no code, 10_state.md R14, R15). -/
def Memory.wf (s : State) : Bool :=
  keysRise s.freq && s.freq.all (fun e => decide (1 ≤ e.2)) &&
  (keysRise s.code && s.code.all (fun e => !e.2.isEmpty))

/-! ## Trees -/

/-- `leaves(t)` (00_scope.md R8). -/
def leaves : Tree → Nat
  | .leaf _ => 1
  | .internal l r => leaves l + leaves r

/-- `nodes(t)` (00_scope.md R8). -/
def nodes : Tree → Nat
  | .leaf _ => 1
  | .internal l r => 1 + nodes l + nodes r

/-! ## Queue primitives -/

/-- `InTake(n)` (20_memory.md R54) on the queue `q`: the bytes taken and the queue left, or `none` for `short`. -/
def inTake (n : Nat) (q : List Byte) : Option (List Byte × List Byte) :=
  if n ≤ q.length then some (q.take n, q.drop n) else none

/-- `OutPut(b)` (20_memory.md R55): all bytes are appended, or none and the command raises `CapacityError`. -/
def outPut (b : List Byte) (s : State) : Except ErrKind State :=
  if s.outq.length + b.length ≤ s.params.outqMax then .ok { s with outq := s.outq ++ b }
  else .error .capacity

/-! ## Clearing and reset -/

/-- `ClearWork` (10_state.md R40). -/
def clearWork (s : State) : State :=
  { s with
    freq := []
    trie := none
    code := []
    paybuf := []
    bitcnt := 0#64
    freqV := false
    trieV := false
    codeV := false
    payV := false }

/-- `ClearChunk` (10_state.md R41). -/
def clearChunk (s : State) : State := { clearWork s with symbuf := [] }

/-- `ResetAll` (70_reset_and_hazards.md R186), the one exit from the faulted state (60_exceptions.md R173): every
element of the CORE's state takes its reset value. The parameters are not state, and the host's transactions and the
values it has read are the host's. -/
def resetAll (s : State) : State :=
  { State.resetWith s.params with pending := s.pending, reads := s.reads }

/-! ## Taking a fault -/

/-- `FaultEntry(code, w)` (60_exceptions.md R171). `s` is the state before the faulting command, so its changes are
discarded; only the `EOC <- 0` of `RDHEAD` and `DECODE` is kept, by the state those commands pass here. -/
def faultEntry (e : ErrKind) (w : Word) (s : State) : State :=
  { clearChunk s with err := some e, errinfo := w, inq := [] }

/-- The frame of a command's execution (30_encoding.md R73, 60_exceptions.md R170 to R172): while `ERR != 0` nothing
happens; otherwise the command's rule, which gave `r`, either completes or raises a fault, entered from `base` with
the command's own word in `ERRINFO` (log 7, log 12). -/
def runCommand (i : Instr) (s base : State) (r : Except ErrKind State) :
    Host.Outcome State Fault Refusal :=
  match s.err with
  | some _ => .next s
  | none =>
    match r with
    | .ok t => .next t
    | .error e => .next (faultEntry e (encode i) base)

end Sys2Proof.Machine
end

