-- ==== Sys2Proof/Machine/Flags.lean ====
section
/-! DEFINITION. The words of `STATUS` and `ERR`, and the view `FAULT` (10_state.md R21, R22; 60_exceptions.md R161). -/

namespace Sys2Proof.Machine

/-- The fault codes of 60_exceptions.md R161. -/
def errCode : ErrKind → Word
  | .emptyInput => 1#32
  | .malformedTrie => 2#32
  | .truncatedRecord => 3#32
  | .inconsistentLength => 4#32
  | .illegalCommand => 5#32
  | .sequence => 6#32
  | .capacity => 7#32
  | .noCode => 8#32

/-- `ERR` (10_state.md R22): 0 when there is no fault. -/
def errWord (s : State) : Word :=
  match s.err with
  | none => 0#32
  | some e => errCode e

/-- `STATUS.FAULT`: `ERR != 0`, a view (10_state.md R21). -/
def faultFlag (s : State) : Bool := s.err.isSome

/-- `STATUS` (10_state.md R21): bits 31:6 read 0, then `FAULT`, `EOC`, `PAY_V`, `CODE_V`, `TRIE_V`, `FREQ_V`. -/
def statusWord (s : State) : Word :=
  0#26 ++ BitVec.ofBool (faultFlag s) ++ BitVec.ofBool s.eoc ++ BitVec.ofBool s.payV ++
    BitVec.ofBool s.codeV ++ BitVec.ofBool s.trieV ++ BitVec.ofBool s.freqV

end Sys2Proof.Machine
end

