-- ==== Sys2Proof/Machine/Operands.lean ====
section
/-! DEFINITION. The forms in which data enters and leaves: byte order of container fields (20_memory.md R51), the
register map and its accesses (10_state.md R19 to R37, 20_memory.md R46 to R49). -/

namespace Sys2Proof.Machine

/-! ## Big-endian fields -/

/-- `BE16(v)` (20_memory.md R51). -/
def be16 (v : BitVec 16) : List Byte := [v.extractLsb' 8 8, v.extractLsb' 0 8]

/-- `BE32(v)` (20_memory.md R51). -/
def be32 (v : Word) : List Byte :=
  [v.extractLsb' 24 8, v.extractLsb' 16 8, v.extractLsb' 8 8, v.extractLsb' 0 8]

/-- `BE64(v)` (20_memory.md R51). -/
def be64 (v : DWord) : List Byte :=
  [v.extractLsb' 56 8, v.extractLsb' 48 8, v.extractLsb' 40 8, v.extractLsb' 32 8,
   v.extractLsb' 24 8, v.extractLsb' 16 8, v.extractLsb' 8 8, v.extractLsb' 0 8]

/-- `FromBE(b)` (20_memory.md R51): `b0 * 256^k + ... + bk`, for `b = [b0, ..., bk]`. -/
def fromBE : List Byte → Nat
  | [] => 0
  | b :: rest => b.toNat * 256 ^ rest.length + fromBE rest

/-! ## Register map -/

/-- Byte offset of a register from `BASE` (10_state.md R19). -/
def regOffset : Reg → Nat
  | .cmd => 0x00
  | .status => 0x04
  | .err => 0x08
  | .errinfo => 0x0C
  | .chunkIdx => 0x10
  | .recIdx => 0x14
  | .recLen => 0x18
  | .symCount => 0x1C
  | .payLen => 0x20
  | .bitcntLo => 0x24
  | .bitcntHi => 0x28
  | .distinct => 0x2C
  | .nodeCount => 0x30
  | .totalLo => 0x34
  | .totalHi => 0x38
  | .procLo => 0x3C
  | .procHi => 0x40
  | .inAvail => 0x44
  | .outAvail => 0x48
  | .byteOut => 0x4C
  | .symOut => 0x50
  | .qsym => 0x54
  | .qfreq => 0x58
  | .qcodelen => 0x5C

/-- The registers in the order of their offsets. -/
def allRegs : List Reg :=
  [.cmd, .status, .err, .errinfo, .chunkIdx, .recIdx, .recLen, .symCount, .payLen, .bitcntLo, .bitcntHi, .distinct,
   .nodeCount, .totalLo, .totalHi, .procLo, .procHi, .inAvail, .outAvail, .byteOut, .symOut, .qsym, .qfreq, .qcodelen]

/-- The register at a byte offset; none at the reserved offsets (20_memory.md R47). -/
def regAt (offset : Nat) : Option Reg := allRegs.find? (fun r => decide (regOffset r = offset))

/-- Which register an access of `n` bytes at `addr` reaches, or why it is refused (20_memory.md R46, R47; log 8). -/
def locate (p : Config.Params) (addr n : Nat) : Except Refusal Reg :=
  if addr < p.base ∨ p.base + 256 ≤ addr then .error (.outsideRegisterSpace addr)
  else if n ≠ 4 then .error (.badWidth n)
  else if (addr - p.base) % 4 ≠ 0 then .error (.misaligned addr)
  else
    match regAt (addr - p.base) with
    | some r => .ok r
    | none => .error (.reservedOffset (addr - p.base))

/-! ## Views -/

/-- `DISTINCT` (10_state.md R30): the number of symbols with `FREQ[s] >= 1`. -/
def distinct (f : FreqTable) : Nat := (f.filter (fun e => decide (1 ≤ e.2))).length

/-- `NODE_COUNT` (10_state.md R31). -/
def nodeCount : Option Tree → Nat
  | none => 0
  | some t => nodes t

/-- `QCODELEN` (10_state.md R37): the length of `CODE[s]`, 0 when it is `none`. -/
def codeLength (c : CodeTable) (s : Sym) : Nat :=
  match tableGet s c with
  | none => 0
  | some bits => bits.length

/-- A count or a length as a register word. -/
def countWord (n : Nat) : Word := BitVec.ofNat 32 n

/-! ## Reads -/

/-- A read of `BYTE_OUT` (10_state.md R35): the value returned and the state after the pop. -/
def popByteOut (s : State) : Word × State :=
  match s.outq with
  | [] => (0#32, s)
  | b :: rest => (0x00000100#32 + b.setWidth 32, { s with outq := rest })

/-- A read of `SYM_OUT` (10_state.md R36): the value returned and the state after the pop. -/
def popSymOut (s : State) : Word × State :=
  match s.symbuf with
  | [] => (0#32, s)
  | x :: rest => (0x00010000#32 + x.setWidth 32, { s with symbuf := rest })

/-- `MemRead` of a register: the value returned and the state after it (10_state.md R20 to R37). Only `BYTE_OUT` and
`SYM_OUT` change state (20_memory.md R49); a read of `CMD` returns 0 (R48). -/
def readReg (r : Reg) (s : State) : Word × State :=
  match r with
  | .cmd => (0#32, s)
  | .status => (statusWord s, s)
  | .err => (errWord s, s)
  | .errinfo => (s.errinfo, s)
  | .chunkIdx => (s.chunkIdx, s)
  | .recIdx => (s.recIdx, s)
  | .recLen => (s.recLen, s)
  | .symCount => (countWord s.symbuf.length, s)
  | .payLen => (countWord s.paybuf.length, s)
  | .bitcntLo => (s.bitcnt.extractLsb' 0 32, s)
  | .bitcntHi => (s.bitcnt.extractLsb' 32 32, s)
  | .distinct => (countWord (distinct s.freq), s)
  | .nodeCount => (countWord (nodeCount s.trie), s)
  | .totalLo => (s.total.extractLsb' 0 32, s)
  | .totalHi => (s.total.extractLsb' 32 32, s)
  | .procLo => (s.proc.extractLsb' 0 32, s)
  | .procHi => (s.proc.extractLsb' 32 32, s)
  | .inAvail => (countWord s.inq.length, s)
  | .outAvail => (countWord s.outq.length, s)
  | .byteOut => popByteOut s
  | .symOut => popSymOut s
  | .qsym => (s.qsym.setWidth 32, s)
  | .qfreq => (countWord (freqAt s.freq s.qsym), s)
  | .qcodelen => (countWord (codeLength s.code s.qsym), s)

/-! ## Writes -/

/-- `MemWrite` of a register other than `CMD` (20_memory.md R48): a read-write register takes the value at once,
whether or not `ERR != 0`; a write to any other register changes nothing. -/
def writeDataReg (r : Reg) (v : Word) (s : State) : State :=
  match r with
  | .chunkIdx => { s with chunkIdx := v }
  | .recLen => { s with recLen := v }
  | .totalLo => { s with total := s.total.extractLsb' 32 32 ++ v }
  | .totalHi => { s with total := v ++ s.total.extractLsb' 0 32 }
  | .qsym => { s with qsym := v.extractLsb' 0 16 }
  | .cmd | .status | .err | .errinfo | .recIdx | .symCount | .payLen | .bitcntLo | .bitcntHi | .distinct
  | .nodeCount | .procLo | .procHi | .inAvail | .outAvail | .byteOut | .symOut | .qfreq | .qcodelen => s

end Sys2Proof.Machine
end

