-- ==== Sys2Proof/Machine/CodeTable.lean ====
section
/-! DEFINITION. The Code Table Builder (43_code_table_builder.md R105, R106, R108). -/

namespace Sys2Proof.Machine

/-- `Walk(n, acc)` (R105) on the table built so far: left subtree first, a later leaf of the same symbol replaces an
earlier one (R108). -/
def walkCodes : Tree → Bits → CodeTable → CodeTable
  | .leaf x, acc, tab => tableSet x acc tab
  | .internal l r, acc, tab => walkCodes r (acc ++ [true]) (walkCodes l (acc ++ [false]) tab)

/-- `Codes(t)` (R105): the single-leaf root gets the code `"0"` by convention. -/
def codesOf (t : Tree) : CodeTable :=
  match t with
  | .leaf x => [(x, [false])]
  | .internal _ _ => walkCodes t [] []

/-- `TRIE` as the commands that require `TRIE_V = 1` see it (10_state.md R42 (b): the flag and the tree go together;
log 6). -/
def validTrie (s : State) : Option Tree := if s.trieV then s.trie else none

/-- The rule of `CODES` (R106). -/
def makeCodes (s : State) : Except ErrKind State :=
  match validTrie s with
  | none => .error .sequence
  | some t => .ok { s with code := codesOf t, codeV := true }

/-- `CODES` (R106). -/
def execCodes (s : State) : Host.Outcome State Fault Refusal := runCommand .codes s s (makeCodes s)

end Sys2Proof.Machine
end

