-- ==== Sys2Proof/Machine/BitPacker.lean ====
section
/-! DEFINITION. The Bit Packer and Unpacker (44_bit_packer_unpacker.md R110 to R113; bit order and padding of
20_memory.md R52, R53). -/

namespace Sys2Proof.Machine

/-! ## Packer -/

/-- The codes of the symbols of a chunk, in order (R110); `none` when a symbol has no code. -/
def chunkBits (c : CodeTable) : List Sym → Option Bits
  | [] => some []
  | x :: rest =>
    match tableGet x c with
    | none => none
    | some b =>
      match chunkBits c rest with
      | none => none
      | some bs => some (b ++ bs)

/-- Byte `k` of the packed form of `bits` (R111): bit position `7 - i` holds `bits[8 * k + i]`, or 0 past the end. -/
def packedByte (bits : Bits) (k : Nat) : Byte :=
  BitVec.ofBoolListBE
    [bits.getD (8 * k) false, bits.getD (8 * k + 1) false, bits.getD (8 * k + 2) false, bits.getD (8 * k + 3) false,
     bits.getD (8 * k + 4) false, bits.getD (8 * k + 5) false, bits.getD (8 * k + 6) false, bits.getD (8 * k + 7) false]

/-- `PackBits(bits)` (R111). -/
def packBits (bits : Bits) : List Byte := (List.range (ceilDiv bits.length 8)).map (packedByte bits)

/-- The rule of `PACK` (R110): every symbol is checked before the capacity. -/
def packChunk (s : State) : Except ErrKind State :=
  if s.codeV = false then .error .sequence
  else
    match chunkBits s.code s.symbuf with
    | none => .error .noCode
    | some bits =>
      if s.params.payMax < ceilDiv bits.length 8 then .error .capacity
      else
        .ok { s with
          paybuf := packBits bits
          bitcnt := BitVec.ofNat 64 bits.length
          recLen := countWord s.symbuf.length
          payV := true }

/-- `PACK` (R110). -/
def execPack (s : State) : Host.Outcome State Fault Refusal := runCommand .pack s s (packChunk s)

/-! ## Unpacker -/

/-- `Bit(p, j)` (R112): bit position `7 - (j mod 8)` of `p[j div 8]`; `none` from bit `8 * |p|` on. -/
def bitAt (p : List Byte) (j : Nat) : Option Bool := (p[j / 8]?).map (fun b => b.getMsbD (j % 8))

/-- The inner loop of `Unpack` (R112): from node `n`, branch per bit until a leaf. The symbol and the next bit. -/
def descend (p : List Byte) : Tree → Nat → Option (Sym × Nat)
  | .leaf x, pos => some (x, pos)
  | .internal l r, pos =>
    match bitAt p pos with
    | none => none
    | some false => descend p l (pos + 1)
    | some true => descend p r (pos + 1)

/-- One symbol of `Unpack` (R112): with a single-leaf trie one bit is consumed and its value is not examined. -/
def unpackOne (p : List Byte) (t : Tree) (pos : Nat) : Option (Sym × Nat) :=
  match t with
  | .leaf x => if 8 * p.length ≤ pos then none else some (x, pos + 1)
  | .internal _ _ => descend p t pos

/-- `Unpack` (R112) from bit `pos`: `n` symbols and the position after them, or `none` for `short`. -/
def unpackFrom (p : List Byte) (t : Tree) : Nat → Nat → Option (List Sym × Nat)
  | 0, pos => some ([], pos)
  | n + 1, pos =>
    match unpackOne p t pos with
    | none => none
    | some (x, pos') =>
      match unpackFrom p t n pos' with
      | none => none
      | some (out, last) => some (x :: out, last)

/-- `Unpack(p, t, N)` (R112). -/
def unpackBits (p : List Byte) (t : Tree) (n : Nat) : Option (List Sym × Nat) := unpackFrom p t n 0

/-- The rule of `UNPACK` (R113). -/
def unpackPayload (s : State) : Except ErrKind State :=
  match validTrie s with
  | none => .error .sequence
  | some t =>
    if s.payV = false then .error .sequence
    else if s.params.chunkMax < s.recLen.toNat then .error .capacity
    else
      match unpackBits s.paybuf t s.recLen.toNat with
      | none => .error .inconsistentLength
      | some (out, pos) =>
        .ok { s with
          symbuf := out
          bitcnt := BitVec.ofNat 64 pos
          proc := s.proc + s.recLen.setWidth 64 }

/-- `UNPACK` (R113). -/
def execUnpack (s : State) : Host.Outcome State Fault Refusal := runCommand .unpack s s (unpackPayload s)

end Sys2Proof.Machine
end

