-- ==== Sys2Proof/Machine/FrequencyAnalyzer.lean ====
section
/-! DEFINITION. The Frequency Analyzer (41_frequency_analyzer.md R90 to R92). -/

namespace Sys2Proof.Machine

/-- One more occurrence of `x`. -/
def bumpCount (f : FreqTable) (x : Sym) : FreqTable := tableSet x (freqAt f x + 1) f

/-- `Count(q)` (R91), built fresh from the all-zero table. -/
def countSymbols (q : List Sym) : FreqTable := q.foldl bumpCount []

/-- The rule of `FREQ` (R90): no precondition and no fault; an empty chunk gives the empty table (R92). -/
def countChunk (s : State) : State := { s with freq := countSymbols s.symbuf, freqV := true }

/-- `FREQ` (R90). -/
def execFreq (s : State) : Host.Outcome State Fault Refusal := runCommand .freq s s (.ok (countChunk s))

end Sys2Proof.Machine
end

