-- ==== Sys2Proof/Machine/TrieBuilder.lean ====
section
/-! DEFINITION. The Trie Builder (42_trie_builder.md R95 to R99): the merge of the two least nodes under the mandated
tie-break. -/

namespace Sys2Proof.Machine

/-- A queued node (R96): its tree, its frequency, and `minor`, which is the symbol of a leaf and the insertion
sequence number of an internal node. It lives only while `Build` runs (10_state.md R39). -/
structure QNode where
  tree : Tree
  freq : Nat
  minor : Nat
deriving DecidableEq, Repr

/-- `kind(node)` (R96): 0 for a leaf, 1 for an internal node. -/
def nodeKind (n : QNode) : Nat :=
  match n.tree with
  | .leaf _ => 0
  | .internal _ _ => 1

/-- Node `p` is before node `q` (R97): `(freq, kind, minor)` is lexicographically smaller. -/
def nodeBefore (p q : QNode) : Bool :=
  decide (p.freq < q.freq) ||
  (decide (p.freq = q.freq) &&
    (decide (nodeKind p < nodeKind q) ||
      (decide (nodeKind p = nodeKind q) && decide (p.minor < q.minor))))

/-- The least element of a queue under R97, and the queue without it. -/
def popLeast : List QNode → Option (QNode × List QNode)
  | [] => none
  | x :: xs =>
    match popLeast xs with
    | none => some (x, [])
    | some (m, rest) => if nodeBefore m x then some (m, x :: rest) else some (x, xs)

/-- The queue `Build` starts with (R96): one leaf per symbol with `f[s] >= 1`. -/
def leafQueue (f : FreqTable) : List QNode :=
  (f.filter (fun e => decide (1 ≤ e.2))).map (fun e => ⟨.leaf e.1, e.2, e.1.toNat⟩)

/-- The new node made of the removed pair: removed-first becomes left, removed-second becomes right (R96). -/
def mergeNodes (a b : QNode) (seq : Nat) : QNode := ⟨.internal a.tree b.tree, a.freq + b.freq, seq⟩

/-- The loop of `Build` (R96) at insertion sequence number `seq`: while more than one node is queued, merge the two
least. `fuel` is at least the number of queued nodes less one, so it never ends the loop (log 11). `none` only for
the empty queue. -/
def mergeLoop : Nat → Nat → List QNode → Option Tree
  | 0, _, q => (q.head?).map (·.tree)
  | fuel + 1, seq, q =>
    match popLeast q with
    | none => none
    | some (a, qa) =>
      match popLeast qa with
      | none => some a.tree
      | some (b, qb) => mergeLoop fuel (seq + 1) (mergeNodes a b seq :: qb)

/-- `Build(f)` (R96); `none` exactly when no symbol has a count, where the spec defines no tree. -/
def buildTree (f : FreqTable) : Option Tree := mergeLoop (leafQueue f).length 0 (leafQueue f)

/-- The rule of `BUILD` (R95): `SequenceError` without a table, `EmptyInputError` when `DISTINCT = 0`, that is, when
`Build` has no leaf to start from. -/
def buildTrie (s : State) : Except ErrKind State :=
  if s.freqV = false then .error .sequence
  else
    match buildTree s.freq with
    | none => .error .emptyInput
    | some t => .ok { s with trie := some t, trieV := true }

/-- `BUILD` (R95). -/
def execBuild (s : State) : Host.Outcome State Fault Refusal := runCommand .build s s (buildTrie s)

end Sys2Proof.Machine
end

