-- ==== Sys2Proof/Machine/TrieSerializer.lean ====
section
/-! DEFINITION. The Trie Serializer and Deserializer (45_trie_serializer.md R120 to R126). -/

namespace Sys2Proof.Machine

/-- The flag byte that announces a leaf (R126). -/
def leafFlag : Byte := 0x01#8

/-- The flag byte that announces an internal node (R126). -/
def internalFlag : Byte := 0x00#8

/-- `Ser(t)` (R120): preorder, the symbol big-endian. -/
def serialize : Tree → List Byte
  | .leaf x => leafFlag :: be16 x
  | .internal l r => internalFlag :: (serialize l ++ serialize r)

/-- The rule of `SERTRIE` (R121). -/
def writeTrie (s : State) : Except ErrKind State :=
  match validTrie s with
  | none => .error .sequence
  | some t => outPut (serialize t) s

/-- `SERTRIE` (R121). -/
def execSertrie (s : State) : Host.Outcome State Fault Refusal := runCommand .sertrie s s (writeTrie s)

/-- What `Parse` answers (R123): a tree with the node counter after it and the queue left, or one of its failures. -/
inductive Parsed where
  | tree (t : Tree) (cnt : Nat) (rest : List Byte)
  | malformed
  | tooBig
deriving DecidableEq, Repr

/-- `Parse` (R123) on the queue `q` with `cnt` nodes counted so far. `fuel` exceeds the number of bytes queued, and every
call takes a byte before it calls itself, so it never ends a parse (log 11). -/
def parseNode (nodeMax : Nat) : Nat → Nat → List Byte → Parsed
  | 0, _, _ => .malformed
  | fuel + 1, cnt, q =>
    match inTake 1 q with
    | none => .malformed
    | some (f, q₁) =>
      if nodeMax < cnt + 1 then .tooBig
      else if f = [leafFlag] then
        match inTake 2 q₁ with
        | none => .malformed
        | some (x, q₂) => .tree (.leaf (BitVec.ofNat 16 (fromBE x))) (cnt + 1) q₂
      else if f = [internalFlag] then
        match parseNode nodeMax fuel (cnt + 1) q₁ with
        | .malformed => .malformed
        | .tooBig => .tooBig
        | .tree l cl ql =>
          match parseNode nodeMax fuel cl ql with
          | .malformed => .malformed
          | .tooBig => .tooBig
          | .tree r cr qr => .tree (.internal l r) cr qr
      else .malformed

/-- `Parse()` (R123) on the queue `q`, its counter starting at 0. -/
def parseTree (nodeMax : Nat) (q : List Byte) : Parsed := parseNode nodeMax (q.length + 1) 0 q

/-- The rule of `DESERTRIE` (R122). -/
def readTrie (s : State) : Except ErrKind State :=
  match parseTree s.params.nodeMax s.inq with
  | .malformed => .error .malformedTrie
  | .tooBig => .error .capacity
  | .tree t _ rest => .ok { s with inq := rest, trie := some t, trieV := true }

/-- `DESERTRIE` (R122). -/
def execDesertrie (s : State) : Host.Outcome State Fault Refusal := runCommand .desertrie s s (readTrie s)

end Sys2Proof.Machine
end

