-- ==== Sys2Proof/Machine/ChunkCodec.lean ====
section
/-! DEFINITION. The Chunk Codec (46_chunk_codec.md R130 to R146): the fields of a chunk record and the two composite
commands, each the composition of the component rules. -/

namespace Sys2Proof.Machine

/-! ## Encode side -/

/-- The first two fields of a record (R130). -/
def headBytes (s : State) : List Byte := be32 s.chunkIdx ++ be32 s.recLen

/-- The last two fields of a record (R130). -/
def payBytes (s : State) : List Byte := be32 (countWord s.paybuf.length) ++ s.paybuf

/-- A whole record (R130, R133). -/
def recordBytes (t : Tree) (s : State) : List Byte := headBytes s ++ serialize t ++ payBytes s

/-- `x[CHUNK_IDX] <- (x[CHUNK_IDX] + 1) mod 2^32` (10_state.md R24). -/
def bumpChunkIdx (s : State) : State := { s with chunkIdx := s.chunkIdx + 1#32 }

/-- The rule of `WRHEAD` (R131). -/
def writeHead (s : State) : Except ErrKind State :=
  if s.recLen = 0#32 then .error .sequence else (outPut (headBytes s) s).map bumpChunkIdx

/-- `WRHEAD` (R131). -/
def execWrhead (s : State) : Host.Outcome State Fault Refusal := runCommand .wrhead s s (writeHead s)

/-- The rule of `WRPAY` (R132). -/
def writePay (s : State) : Except ErrKind State :=
  if s.payV = false then .error .sequence else outPut (payBytes s) s

/-- `WRPAY` (R132). -/
def execWrpay (s : State) : Host.Outcome State Fault Refusal := runCommand .wrpay s s (writePay s)

/-- The rule of `EMITREC` (R133): the record's bytes are appended all or none. -/
def emitRecord (s : State) : Except ErrKind State :=
  match validTrie s with
  | none => .error .sequence
  | some t =>
    if s.payV = false ∨ s.recLen = 0#32 then .error .sequence
    else (outPut (recordBytes t s) s).map bumpChunkIdx

/-- `EMITREC` (R133). -/
def execEmitrec (s : State) : Host.Outcome State Fault Refusal := runCommand .emitrec s s (emitRecord s)

/-- The rule of `ENCODE` (R134): the empty chunk writes no record; any other runs `FREQ`, `BUILD`, `CODES`, `PACK`,
`EMITREC` and clears the chunk. -/
def encodeChunk (s : State) : Except ErrKind State :=
  match s.symbuf with
  | [] => .ok (clearChunk s)
  | _ :: _ =>
    (((buildTrie (countChunk s)).bind makeCodes).bind packChunk).bind emitRecord |>.map clearChunk

/-- `ENCODE` (R134). -/
def execEncode (s : State) : Host.Outcome State Fault Refusal := runCommand .encode s s (encodeChunk s)

/-! ## Decode side -/

/-- The state `RDHEAD` and `DECODE` go on from when `INQ` is not empty (R136, R140); the one change a fault of theirs
keeps (60_exceptions.md R171). -/
def clearEoc (s : State) : State := { s with eoc := false }

/-- The two fields of a record's head (R136). -/
def readHead (s : State) : Except ErrKind State :=
  match inTake 8 s.inq with
  | none => .error .truncatedRecord
  | some (h, rest) =>
    .ok { s with
      inq := rest
      recIdx := BitVec.ofNat 32 (fromBE (h.take 4))
      recLen := BitVec.ofNat 32 (fromBE (h.drop 4)) }

/-- A decode-side command at the start of a record (R137): with `INQ` empty it sets `EOC` and does nothing else;
otherwise it clears `EOC` and goes on. -/
def atRecordStart (body : State → Except ErrKind State) (s : State) : Except ErrKind State :=
  match s.inq with
  | [] => .ok { s with eoc := true }
  | _ :: _ => body (clearEoc s)

/-- `RDHEAD` (R136). -/
def execRdhead (s : State) : Host.Outcome State Fault Refusal :=
  runCommand .rdhead s (clearEoc s) (atRecordStart readHead s)

/-- The rule of `RDPAY` (R138): the length is checked against `PAY_MAX` before the payload is taken. -/
def readPay (s : State) : Except ErrKind State :=
  match inTake 4 s.inq with
  | none => .error .truncatedRecord
  | some (h, rest) =>
    if s.params.payMax < fromBE h then .error .capacity
    else
      match inTake (fromBE h) rest with
      | none => .error .truncatedRecord
      | some (d, rest') => .ok { s with inq := rest', paybuf := d, bitcnt := 0#64, payV := true }

/-- `RDPAY` (R138). -/
def execRdpay (s : State) : Host.Outcome State Fault Refusal := runCommand .rdpay s s (readPay s)

/-- The steps of `DECODE` after `EOC <- 0` (R140, R141): `RDHEAD`, `DESERTRIE`, `RDPAY`, `UNPACK`, then `ClearWork`. -/
def decodeRecord (s : State) : Except ErrKind State :=
  (((readHead s).bind readTrie).bind readPay).bind unpackPayload |>.map clearWork

/-- `DECODE` (R140). -/
def execDecode (s : State) : Host.Outcome State Fault Refusal :=
  runCommand .decode s (clearEoc s) (atRecordStart decodeRecord s)

end Sys2Proof.Machine
end

