-- ==== Sys2Proof/Machine/Container.lean ====
section
/-! DEFINITION. The container header (47_container.md R150 to R152). -/

namespace Sys2Proof.Machine

/-- The rule of `WRHDR` (R151): a new container starts at chunk index 0. -/
def writeHeader (s : State) : Except ErrKind State :=
  (outPut (be64 s.total) s).map (fun t => { t with chunkIdx := 0#32 })

/-- `WRHDR` (R151). -/
def execWrhdr (s : State) : Host.Outcome State Fault Refusal := runCommand .wrhdr s s (writeHeader s)

/-- The rule of `RDHDR` (R152). -/
def readHeader (s : State) : Except ErrKind State :=
  match inTake 8 s.inq with
  | none => .error .truncatedRecord
  | some (h, rest) =>
    .ok { s with inq := rest, total := BitVec.ofNat 64 (fromBE h), proc := 0#64, eoc := false }

/-- `RDHDR` (R152). -/
def execRdhdr (s : State) : Host.Outcome State Fault Refusal := runCommand .rdhdr s s (readHeader s)

end Sys2Proof.Machine
end

