-- ==== Sys2Proof/Machine/Housekeeping.lean ====
section
/-! DEFINITION. Housekeeping and data-input commands (40_housekeeping.md R80 to R85). -/

namespace Sys2Proof.Machine

/-- `NOP` (R80): no effect, in the faulted state or out of it. -/
def execNop (s : State) : Host.Outcome State Fault Refusal := runCommand .nop s s (.ok s)

/-- `SRESET` (R81): `ResetAll`; the only command that executes while `ERR != 0` (30_encoding.md R73). -/
def execSreset (s : State) : Host.Outcome State Fault Refusal := .next (resetAll s)

/-- `CLRCHUNK` (R82): `ClearChunk`. -/
def execClrchunk (s : State) : Host.Outcome State Fault Refusal := runCommand .clrchunk s s (.ok (clearChunk s))

/-- `CLRIN` (R83). -/
def execClrin (s : State) : Host.Outcome State Fault Refusal :=
  runCommand .clrin s s (.ok { s with inq := [], eoc := false })

/-- The rule of `PUSHS` (R84). -/
def pushSymbol (x : Sym) (s : State) : Except ErrKind State :=
  if s.symbuf.length = s.params.chunkMax then .error .capacity else .ok { s with symbuf := s.symbuf ++ [x] }

/-- `PUSHS imm16` (R84). -/
def execPushs (imm16 : Sym) (s : State) : Host.Outcome State Fault Refusal :=
  runCommand (.pushs imm16) s s (pushSymbol imm16 s)

/-- The rule of `PUSHB` (R85). -/
def pushByte (b : Byte) (s : State) : Except ErrKind State :=
  if s.inq.length = s.params.inqMax then .error .capacity else .ok { s with inq := s.inq ++ [b] }

/-- `PUSHB imm8` (R85). -/
def execPushb (imm8 : Byte) (s : State) : Host.Outcome State Fault Refusal :=
  runCommand (.pushb imm8) s s (pushByte imm8 s)

end Sys2Proof.Machine
end

