-- ==== Sys2Proof/Machine/Dispatch.lean ====
section
/-! DEFINITION. One arm per command of 30_encoding.md R68. -/

namespace Sys2Proof.Machine

def exec (i : Instr) (s : State) : Host.Outcome State Fault Refusal :=
  match i with
  | .nop => Sys2Proof.Machine.execNop s
  | .sreset => Sys2Proof.Machine.execSreset s
  | .clrchunk => Sys2Proof.Machine.execClrchunk s
  | .clrin => Sys2Proof.Machine.execClrin s
  | .pushs imm16 => Sys2Proof.Machine.execPushs imm16 s
  | .pushb imm8 => Sys2Proof.Machine.execPushb imm8 s
  | .freq => Sys2Proof.Machine.execFreq s
  | .build => Sys2Proof.Machine.execBuild s
  | .codes => Sys2Proof.Machine.execCodes s
  | .pack => Sys2Proof.Machine.execPack s
  | .unpack => Sys2Proof.Machine.execUnpack s
  | .sertrie => Sys2Proof.Machine.execSertrie s
  | .desertrie => Sys2Proof.Machine.execDesertrie s
  | .wrhead => Sys2Proof.Machine.execWrhead s
  | .wrpay => Sys2Proof.Machine.execWrpay s
  | .emitrec => Sys2Proof.Machine.execEmitrec s
  | .encode => Sys2Proof.Machine.execEncode s
  | .rdhead => Sys2Proof.Machine.execRdhead s
  | .rdpay => Sys2Proof.Machine.execRdpay s
  | .decode => Sys2Proof.Machine.execDecode s
  | .wrhdr => Sys2Proof.Machine.execWrhdr s
  | .rdhdr => Sys2Proof.Machine.execRdhdr s

end Sys2Proof.Machine
end

