-- ==== Sys2Proof/Machine/Transaction.lean ====
section
/-! DEFINITION. The performing of one host transaction (00_scope.md R2, R7; 20_memory.md R46 to R49, R57;
30_encoding.md R73; 70_reset_and_hazards.md R185). -/

namespace Sys2Proof.Machine

/-- `MemWrite(0x00, 4, w)` (30_encoding.md R73): an illegal word raises `IllegalCommandError` with the word in
`ERRINFO`, or is ignored while `ERR != 0`; a legal one runs its command, whose own frame ignores it while `ERR != 0`
unless it is `SRESET` (log 12). -/
def writeCmd (w : Word) (s : State) : Host.Outcome State Fault Refusal :=
  match decode w with
  | .instr i => exec i s
  | .illegal _ =>
    match s.err with
    | some _ => .next s
    | none => .next (faultEntry .illegalCommand w s)

/-- `MemWrite` of a register (20_memory.md R48, R49): only `CMD` has an effect beyond storing the value. -/
def writeReg (r : Reg) (v : Word) (s : State) : Host.Outcome State Fault Refusal :=
  match r with
  | .cmd => writeCmd v s
  | .status | .err | .errinfo | .chunkIdx | .recIdx | .recLen | .symCount | .payLen | .bitcntLo | .bitcntHi
  | .distinct | .nodeCount | .totalLo | .totalHi | .procLo | .procHi | .inAvail | .outAvail | .byteOut | .symOut
  | .qsym | .qfreq | .qcodelen => .next (writeDataReg r v s)

/-- The host receives a value it has read (log 2). -/
def recordRead (v : Word) (s : State) : State := { s with reads := s.reads ++ [v] }

/-- One host transaction as one atomic state change (20_memory.md R57); an access the spec does not define is refused
(R46, R47). -/
def perform (t : Txn) (s : State) : Host.Outcome State Fault Refusal :=
  match t with
  | .hardwareReset => .next (resetAll s)
  | .read addr n =>
    match locate s.params addr n with
    | .error e => .refused e
    | .ok r => .next (recordRead (readReg r s).1 (readReg r s).2)
  | .write addr n v =>
    match locate s.params addr n with
    | .error e => .refused e
    | .ok r => writeReg r v s

/-- The first pending transaction is performed; with none pending the CORE is idle and keeps all state
(60_exceptions.md R179, 70_reset_and_hazards.md R201; log 1). -/
def nextTransaction (s : State) : Host.Outcome State Fault Refusal :=
  match s.pending with
  | [] => .next s
  | t :: rest => perform t { s with pending := rest }

/-- `s` with the command word `w` as the host's next transaction, a write to `CMD`; its bits from `nbits` on are 0. -/
def queueCommandWord (s : State) (nbits w : Nat) : State :=
  { s with pending := .write (s.params.base + regOffset .cmd) 4 (BitVec.ofNat 32 (w % 2 ^ nbits)) :: s.pending }

end Sys2Proof.Machine
end

