-- ==== Sys2Proof/Machine/Step.lean ====
section
/-! DEFINITION. One step of the machine: one host transaction (00_scope.md R2). -/

namespace Sys2Proof.Machine

/-- One step: the next host transaction, or an idle step when there is none. -/
def step (s : State) : Host.Outcome State Fault Refusal := nextTransaction s

/-- The command word `w` as the very next transaction of the host: the CORE fetches nothing (20_memory.md R59), a command
exists only as the value of a `CMD` write (log 1). -/
def State.withFetchWord (s : State) (nbits w : Nat) : State := queueCommandWord s nbits w

end Sys2Proof.Machine
end

