-- ==== Sys2Proof/Machine/HostProgram.lean ====
section
/-! DEFINITION. The notation of host programs as transactions (30_encoding.md R71, R72), and the running of a sequence
of commands. -/

namespace Sys2Proof.Machine

/-- `cmd MNEMONIC` (R71): a write of the command's word to `CMD`. -/
def cmdTxn (p : Config.Params) (i : Instr) : Txn := .write (p.base + regOffset .cmd) 4 (encode i)

/-- `wr REG, value` (R71). -/
def wrTxn (p : Config.Params) (r : Reg) (v : Word) : Txn := .write (p.base + regOffset r) 4 v

/-- `rd REG` (R71). -/
def rdTxn (p : Config.Params) (r : Reg) : Txn := .read (p.base + regOffset r) 4

/-- `pushs* v0, ..., vk` (R72). -/
def pushsAll (xs : List Sym) : List Instr := xs.map Instr.pushs

/-- `pushb* b0, ..., bk` (R72). -/
def pushbAll (bs : List Byte) : List Instr := bs.map Instr.pushb

/-- `encode.p` (R72). -/
def encodeSteps : List Instr := [.freq, .build, .codes, .pack, .emitrec, .clrchunk]

/-- `decode.p` (R72). -/
def decodeSteps : List Instr := [.rdhead, .desertrie, .rdpay, .unpack]

/-- `drainb` (R72) issued in state `s`: one read of `BYTE_OUT` per queued byte and the one that returns `VALID = 0`. -/
def drainBytes (s : State) : List Txn := List.replicate (s.outq.length + 1) (rdTxn s.params .byteOut)

/-- `drains` (R72) issued in state `s`: one read of `SYM_OUT` per symbol and the one that returns `VALID = 0`. -/
def drainSymbols (s : State) : List Txn := List.replicate (s.symbuf.length + 1) (rdTxn s.params .symOut)

/-- Commands executed one after the other. -/
def execAll : List Instr → State → Host.Outcome State Fault Refusal
  | [], s => .next s
  | i :: rest, s =>
    match exec i s with
    | .next t => execAll rest t
    | .fault f => .fault f
    | .refused r => .refused r

/-- Transactions performed one after the other. -/
def performAll : List Txn → State → Host.Outcome State Fault Refusal
  | [], s => .next s
  | t :: rest, s =>
    match perform t s with
    | .next u => performAll rest u
    | .fault f => .fault f
    | .refused r => .refused r

end Sys2Proof.Machine
end

