-- ==== Sys2Proof/WellFormed.lean ====
section
/-! DEFINITION. Which terms are well-formed: the ranges of the parameters (00_scope.md R5) and of the immediates
(30_encoding.md R67). -/

namespace Sys2Proof

/-- The ranges of 00_scope.md R5, one conjunct per row (and the relation between `NODE_MAX` and `CHUNK_MAX`). -/
def Config.Params.wf (p : Config.Params) : Bool :=
  decide (1 ≤ p.chunkMax) && decide (p.chunkMax ≤ 2 ^ 32 - 1) &&
  decide (1 ≤ p.payMax) && decide (p.payMax ≤ 2 ^ 32 - 1) &&
  decide (2 * min p.chunkMax 65536 - 1 ≤ p.nodeMax) &&
  decide (1 ≤ p.inqMax) && decide (p.inqMax ≤ 2 ^ 32 - 1) &&
  decide (1 ≤ p.outqMax) && decide (p.outqMax ≤ 2 ^ 32 - 1) &&
  decide (p.base % 256 = 0)

/-- A command is well-formed when its immediate fits its field (30_encoding.md R66, R67). The widths are in the types
of `Instr`, so no term is ill-formed; the arms are written out so that a new operand cannot slip past. -/
def Instr.wf : Instr → Bool
  | .pushs imm16 => decide (imm16.toNat < 2 ^ 16)
  | .pushb imm8 => decide (imm8.toNat < 2 ^ 8)
  | .nop | .sreset | .clrchunk | .clrin => true
  | .freq | .build | .codes | .pack | .unpack | .sertrie | .desertrie => true
  | .wrhead | .wrpay | .emitrec | .encode | .rdhead | .rdpay | .decode => true
  | .wrhdr | .rdhdr => true

end Sys2Proof
end

