-- ==== Sys2Proof/Safety.lean ====
section
/-! DEFINITION. What every state of a run satisfies (10_state.md R42) and what counts as a good end of a run
(60_exceptions.md R172, 70_reset_and_hazards.md R201). -/

namespace Sys2Proof.Machine

/-- The invariants of 10_state.md R42, (a) to (g), with the bounds of the single rules they rest on: the parameters in
their ranges (00_scope.md R5), the canonical form of `FREQ` and `CODE`, the ranges of `FREQ` (R14), `CODE` (R15) and
`ERRINFO` (R23), and what keeps the 32-bit views exact (log 5). -/
structure Inv (s : State) : Prop where
  /-- 00_scope.md R5. -/
  params : s.params.wf = true
  /-- The canonical form of the tables (R14, R15; log 4). -/
  memory : Memory.wf s = true
  /-- R14: `FREQ[s] <= CHUNK_MAX`. -/
  freq_le : ∀ e ∈ s.freq, e.2 ≤ s.params.chunkMax
  /-- R14, R91: a table made by `FREQ` lists at most one symbol per element of the chunk it counted. -/
  distinct_le : s.freq.length ≤ s.params.chunkMax
  /-- R42 (a). -/
  freq_clear : s.freqV = false → ∀ x, freqAt s.freq x = 0
  /-- R42 (b). -/
  trie_flag : s.trieV = true ↔ s.trie ≠ none
  /-- R42 (c). -/
  code_clear : s.codeV = false → ∀ x, tableGet x s.code = none
  /-- R42 (d). -/
  pay_clear : s.payV = false → s.paybuf = [] ∧ s.bitcnt = 0#64
  /-- R42 (e). -/
  bitcnt_le : s.bitcnt.toNat ≤ 8 * s.paybuf.length
  /-- R42 (f), `SYMBUF`. -/
  symbuf_le : s.symbuf.length ≤ s.params.chunkMax
  /-- R42 (f), `PAYBUF`. -/
  paybuf_le : s.paybuf.length ≤ s.params.payMax
  /-- R42 (f), `INQ`. -/
  inq_le : s.inq.length ≤ s.params.inqMax
  /-- R42 (f), `OUTQ`. -/
  outq_le : s.outq.length ≤ s.params.outqMax
  /-- R42 (f), `TRIE`. -/
  nodes_le : nodeCount s.trie ≤ s.params.nodeMax
  /-- A trie of `n` nodes was built for at most 65536 symbols or read from at least `n` bytes of `INQ`, so its node count
  fits `NODE_COUNT` (DEDUCED, log 5). -/
  nodes_fit : nodeCount s.trie ≤ 2 ^ 32 - 1
  /-- R15: a code has at most `NODE_MAX div 2` bits, the one bit of a single leaf apart (log 13); its length fits
  `QCODELEN` as the node count of its trie does (log 5). -/
  code_le : ∀ e ∈ s.code, e.2.length ≤ max 1 (min s.params.nodeMax (2 ^ 32 - 1) / 2)
  /-- R42 (g). -/
  faulted : s.err ≠ none →
    s.symbuf = [] ∧ s.inq = [] ∧ s.freqV = false ∧ s.trieV = false ∧ s.codeV = false ∧ s.payV = false
  /-- R23: `ERRINFO` is 0 when `ERR = 0`. -/
  errinfo_clear : s.err = none → s.errinfo = 0#32

/-- The faulted state `ERR != 0` (60_exceptions.md R172); never a successful end of a run. -/
def isFaulted (s : State) : Bool := faultFlag s

/-- A state a host may treat as "the container is fully decoded" (70_reset_and_hazards.md R201, 47_container.md R153):
not faulted, and the end of the input was met or the total reached. -/
def containerDecoded (s : State) : Bool := !isFaulted s && (s.eoc || decide (s.total.toNat ≤ s.proc.toNat))

/-- A state a host may treat as "the last record is taken" (R201): not faulted and nothing left to pop from `OUTQ`. -/
def outputTaken (s : State) : Bool := !isFaulted s && s.outq.isEmpty

end Sys2Proof.Machine
end

