-- ==== Sys2Proof/Certificates/Slice0/Obligations.lean ====
section
/-! DEFINITION. The statements for the provers, one per `def Obligations.<Name> : Prop`, and before them the few notions
of the rules they are written with (namespace `Sys2Proof.Rules`), spelled out from the spec and not through the model's
own operations. -/

namespace Sys2Proof.Rules

open Sys2Proof.Machine

/-- The state after fault entry (60_exceptions.md R171), field by field, from the state `s` before the command. -/
def afterFault (e : ErrKind) (w : Word) (s : State) : State :=
  { s with
    err := some e, errinfo := w, inq := [],
    symbuf := [], freq := [], trie := none, code := [], paybuf := [], bitcnt := 0#64,
    freqV := false, trieV := false, codeV := false, payV := false }

/-- The state after `ResetAll` (70_reset_and_hazards.md R186), field by field. -/
def afterReset (s : State) : State :=
  { s with
    symbuf := [], paybuf := [], inq := [], outq := [], trie := none, freq := [], code := [], bitcnt := 0#64,
    freqV := false, trieV := false, codeV := false, payV := false, eoc := false, err := none, errinfo := 0#32,
    chunkIdx := 0#32, recIdx := 0#32, recLen := 0#32, total := 0#64, proc := 0#64, qsym := 0#16 }

/-- The state after `ClearWork` (10_state.md R40), field by field. -/
def workCleared (s : State) : State :=
  { s with
    freq := [], trie := none, code := [], paybuf := [], bitcnt := 0#64,
    freqV := false, trieV := false, codeV := false, payV := false }

/-- One row of the opcode map (30_encoding.md R68). -/
structure Row where
  mnemonic : String
  value : Word
  mask : Word
deriving DecidableEq, Repr

/-- The "Match" and "Mask" columns of 30_encoding.md R68, row by row. -/
def opcodeMap : List Row :=
  [⟨"NOP", 0x00000000#32, 0xFFFFFFFF#32⟩, ⟨"SRESET", 0x00000001#32, 0xFFFFFFFF#32⟩, ⟨"CLRCHUNK", 0x00000002#32, 0xFFFFFFFF#32⟩,
   ⟨"CLRIN", 0x00000003#32, 0xFFFFFFFF#32⟩, ⟨"PUSHS", 0x00000004#32, 0x0000FFFF#32⟩, ⟨"PUSHB", 0x00000005#32, 0xFF00FFFF#32⟩] ++
  [⟨"FREQ", 0x00000010#32, 0xFFFFFFFF#32⟩, ⟨"BUILD", 0x00000011#32, 0xFFFFFFFF#32⟩, ⟨"CODES", 0x00000012#32, 0xFFFFFFFF#32⟩,
   ⟨"PACK", 0x00000013#32, 0xFFFFFFFF#32⟩, ⟨"UNPACK", 0x00000014#32, 0xFFFFFFFF#32⟩, ⟨"SERTRIE", 0x00000015#32, 0xFFFFFFFF#32⟩,
   ⟨"DESERTRIE", 0x00000016#32, 0xFFFFFFFF#32⟩] ++
  [⟨"WRHEAD", 0x00000020#32, 0xFFFFFFFF#32⟩, ⟨"WRPAY", 0x00000021#32, 0xFFFFFFFF#32⟩, ⟨"EMITREC", 0x00000022#32, 0xFFFFFFFF#32⟩,
   ⟨"ENCODE", 0x00000023#32, 0xFFFFFFFF#32⟩, ⟨"RDHEAD", 0x00000024#32, 0xFFFFFFFF#32⟩, ⟨"RDPAY", 0x00000025#32, 0xFFFFFFFF#32⟩,
   ⟨"DECODE", 0x00000026#32, 0xFFFFFFFF#32⟩, ⟨"WRHDR", 0x00000030#32, 0xFFFFFFFF#32⟩, ⟨"RDHDR", 0x00000031#32, 0xFFFFFFFF#32⟩]

/-- The mnemonic of a command (30_encoding.md R68). -/
def mnemonic : Instr → String
  | .nop => "NOP"
  | .sreset => "SRESET"
  | .clrchunk => "CLRCHUNK"
  | .clrin => "CLRIN"
  | .pushs _ => "PUSHS"
  | .pushb _ => "PUSHB"
  | .freq => "FREQ"
  | .build => "BUILD"
  | .codes => "CODES"
  | .pack => "PACK"
  | .unpack => "UNPACK"
  | .sertrie => "SERTRIE"
  | .desertrie => "DESERTRIE"
  | .wrhead => "WRHEAD"
  | .wrpay => "WRPAY"
  | .emitrec => "EMITREC"
  | .encode => "ENCODE"
  | .rdhead => "RDHEAD"
  | .rdpay => "RDPAY"
  | .decode => "DECODE"
  | .wrhdr => "WRHDR"
  | .rdhdr => "RDHDR"

/-- The "Raised by" column of 60_exceptions.md R161, turned round: the kinds a command may raise by its rule. -/
def mayRaise : Instr → List ErrKind
  | .nop | .sreset | .clrchunk | .clrin | .freq => []
  | .pushs _ | .pushb _ | .encode | .wrhdr => [.capacity]
  | .build => [.emptyInput, .sequence]
  | .codes => [.sequence]
  | .pack => [.sequence, .capacity, .noCode]
  | .unpack => [.inconsistentLength, .sequence, .capacity]
  | .sertrie | .wrhead | .wrpay | .emitrec => [.sequence, .capacity]
  | .desertrie => [.malformedTrie, .capacity]
  | .rdhead | .rdhdr => [.truncatedRecord]
  | .rdpay => [.truncatedRecord, .capacity]
  | .decode => [.malformedTrie, .truncatedRecord, .inconsistentLength, .capacity]

/-- The state a fault of a command is entered from (60_exceptions.md R171): its start state, with `EOC <- 0` kept for
`RDHEAD` and `DECODE`. -/
def faultBase (i : Instr) (s : State) : State :=
  match i with
  | .rdhead | .decode => { s with eoc := false }
  | _ => s

/-- The "Code" column of 60_exceptions.md R161. -/
def faultCode : ErrKind → Nat
  | .emptyInput => 1
  | .malformedTrie => 2
  | .truncatedRecord => 3
  | .inconsistentLength => 4
  | .illegalCommand => 5
  | .sequence => 6
  | .capacity => 7
  | .noCode => 8

/-- The symbols of the leaves, left to right. -/
def leafSymbols : Tree → List Sym
  | .leaf x => [x]
  | .internal l r => leafSymbols l ++ leafSymbols r

/-- The subtree at the end of a path, left = bit 0, right = bit 1 (43_code_table_builder.md R105). -/
def follow : Tree → Bits → Option Tree
  | t, [] => some t
  | .leaf _, _ :: _ => none
  | .internal l _, false :: p => follow l p
  | .internal _ r, true :: p => follow r p

/-- Path `p` leaves the common part of two paths to the left, path `q` to the right. -/
def LeftOf : Bits → Bits → Prop
  | x :: p, y :: q => (x = false ∧ y = true) ∨ (x = y ∧ LeftOf p q)
  | _, _ => False

/-- The bits of a payload in order, most significant bit of byte 0 first (20_memory.md R52). -/
def payloadBits (p : List Byte) : Bits := p.flatMap (fun b => (List.range 8).map (fun i => b.getLsbD (7 - i)))

/-- `p` is before `q` in the order of 42_trie_builder.md R97, as a proposition. -/
def Before (p q : QNode) : Prop :=
  p.freq < q.freq ∨
  (p.freq = q.freq ∧ (nodeKind p < nodeKind q ∨ (nodeKind p = nodeKind q ∧ p.minor < q.minor)))

/-- The loop of 42_trie_builder.md R96 as a relation on queues without an order of their own: from the queue `q` at
insertion sequence number `seq` it returns `t`. -/
inductive BuildsTo : List QNode → Nat → Tree → Prop
  | last (n : QNode) (seq : Nat) : BuildsTo [n] seq n.tree
  | merge (q : List QNode) (a b : QNode) (rest : List QNode) (seq : Nat) (t : Tree)
      (elements : q.Perm (a :: b :: rest))
      (firstLeast : ∀ x ∈ b :: rest, Before a x)
      (secondLeast : ∀ x ∈ rest, Before b x)
      (next : BuildsTo (⟨.internal a.tree b.tree, a.freq + b.freq, seq⟩ :: rest) (seq + 1) t) :
      BuildsTo q seq t

/-- The bytes of a serialized trie before the flag of one of its nodes, from the ancestors of that node, root first
(45_trie_serializer.md R120, R123): each gives its flag, and `some l` stands for an ancestor whose left subtree `l` is
complete, the node being in its right one. With no ancestor the node is the root. -/
def bytesBefore : List (Option Tree) → List Byte
  | [] => []
  | none :: below => 0x00#8 :: bytesBefore below
  | some l :: below => 0x00#8 :: (serialize l ++ bytesBefore below)

/-- How many nodes `Parse` has counted before that flag (R123). -/
def nodesBefore : List (Option Tree) → Nat
  | [] => 0
  | none :: below => 1 + nodesBefore below
  | some l :: below => 1 + nodes l + nodesBefore below

/-- The bits of a chunk under a code table (44_bit_packer_unpacker.md R110): the codes of the symbols, one after the
other. -/
def bitsOf (c : CodeTable) (q : List Sym) : Bits := (q.map (fun x => (tableGet x c).getD [])).flatten

end Sys2Proof.Rules

open Sys2Proof Sys2Proof.Machine Sys2Proof.Rules

/-! ## Encoding -/

/-- 30_encoding.md R66, R68: decoding an encoded command gives it back, with every immediate, and a word that decodes to
a command is that command's encoding. -/
def Obligations.DecodeAndEncodeAgree : Prop :=
  (∀ i : Instr, decode (Sys2Proof.encode i) = .instr i) ∧
  (∀ (w : Word) (i : Instr), decode w = .instr i → Sys2Proof.encode i = w)

/-- 30_encoding.md R68: a word encodes the command of a row exactly when `(w AND mask) = match`. -/
def Obligations.WordsEncodeByMatchAndMask : Prop :=
  ∀ (w : Word) (r : Row), r ∈ opcodeMap →
    (w &&& r.mask = r.value ↔ ∃ i, decode w = .instr i ∧ mnemonic i = r.mnemonic)

/-- 30_encoding.md R69, R73: a word that matches no row is illegal: executed while `ERR = 0` it raises
`IllegalCommandError` with the word in `ERRINFO`; while `ERR != 0` it is ignored. -/
def Obligations.WordsOfNoRowAreIllegal : Prop :=
  ∀ (s : State) (w : Word), (∀ r ∈ opcodeMap, w &&& r.mask ≠ r.value) →
    perform (.write s.params.base 4 w) s = .next (if s.err = none then afterFault .illegalCommand w s else s)

/-- 30_encoding.md R66, R68: words written out bit by bit decode to their commands, and words with a reserved opcode
or a must-be-zero bit set (95_test_vectors.md V9 to V13) to none. -/
def Obligations.SampleWordsDecode : Prop :=
  decode 0x00610004#32 = .instr (.pushs 0x0061#16) ∧ decode 0xFFFF0004#32 = .instr (.pushs 0xFFFF#16) ∧
  decode 0x001F0005#32 = .instr (.pushb 0x1F#8) ∧ decode 0x00000011#32 = .instr .build ∧
  decode 0x00000014#32 = .instr .unpack ∧ decode 0x00000016#32 = .instr .desertrie ∧
  decode 0x00000023#32 = .instr .encode ∧ decode 0x00000026#32 = .instr .decode ∧
  decode 0x00000030#32 = .instr .wrhdr ∧ decode 0x00000031#32 = .instr .rdhdr ∧
  decode 0x00000006#32 = .illegal (.unassignedOpcode 0x06#8) ∧
  decode 0x00000104#32 = .illegal (.reservedBitSet 0x04#8) ∧
  decode 0x01000005#32 = .illegal (.reservedBitSet 0x05#8) ∧
  decode 0x00010010#32 = .illegal (.reservedBitSet 0x10#8)

/-! ## Steps and transactions -/

/-- 30_encoding.md R73, 20_memory.md R57: when the host's next transaction writes a word to `CMD` that decodes to `i`, the
step is `i`'s execution on the state without that transaction. -/
def Obligations.StepRunsTheWrittenCommand : Prop :=
  ∀ (s : State) (w : Word) (i : Instr) (rest : List Txn),
    s.pending = .write s.params.base 4 w :: rest → decode w = .instr i →
    step s = exec i { s with pending := rest }

/-- The model's `withFetchWord` (log 1): the word it is given is the next command the machine runs. -/
def Obligations.QueuedWordRunsNext : Prop :=
  ∀ (s : State) (i : Instr), step (s.withFetchWord 32 (Sys2Proof.encode i).toNat) = exec i s

/-- 20_memory.md R57: transactions are performed one at a time in the host's order, each a single step. No transaction
changes what the host has still to do, and none changes the parameters (10_state.md R43). With nothing pending the state
is kept (60_exceptions.md R179). The list of pending transactions is the model's own (log 1). -/
def Obligations.TransactionsArePerformedInOrder : Prop :=
  (∀ s : State, s.pending = [] → step s = .next s) ∧
  (∀ (s : State) (t : Txn) (rest : List Txn), s.pending = t :: rest → step s = perform t { s with pending := rest }) ∧
  (∀ (t : Txn) (s u : State), perform t s = .next u → u.pending = s.pending ∧ u.params = s.params) ∧
  (∀ (i : Instr) (s u : State), exec i s = .next u → u.reads = s.reads)

/-! ## Registers -/

/-- 20_memory.md R46, R47 with 30_encoding.md R71 and 92_eei_decisions.md D23: an access is performed exactly when it is 4
bytes wide, naturally aligned and at a defined offset; any other is refused. That the host addresses a register at
`BASE` + offset, and that an access outside the 256 bytes at `BASE` is refused like one at a reserved offset, is the
model's choice (log 8). -/
def Obligations.UndefinedAccessesAreRefused : Prop :=
  ∀ (s : State) (addr n : Nat) (v : Word), s.params.base % 256 = 0 →
    ((∃ e, perform (.read addr n) s = .refused e) ↔
      ¬ (n = 4 ∧ addr % 4 = 0 ∧ s.params.base ≤ addr ∧ addr ≤ s.params.base + 0x5C)) ∧
    ((∃ e, perform (.write addr n v) s = .refused e) ↔
      ¬ (n = 4 ∧ addr % 4 = 0 ∧ s.params.base ≤ addr ∧ addr ≤ s.params.base + 0x5C))

/-- 10_state.md R35, R36: a read of `BYTE_OUT` or `SYM_OUT` removes the head and returns it below its `VALID` bit; on an
empty queue it returns 0 and changes nothing. The value goes to the host (log 2). -/
def Obligations.PopReadsRemoveTheHead : Prop :=
  (∀ (s : State) (b : Byte) (rest : List Byte), s.outq = b :: rest →
    ∃ v : Word, v.toNat = 0x100 + b.toNat ∧
      perform (rdTxn s.params .byteOut) s = .next { s with outq := rest, reads := s.reads ++ [v] }) ∧
  (∀ s : State, s.outq = [] →
    perform (rdTxn s.params .byteOut) s = .next { s with reads := s.reads ++ [0#32] }) ∧
  (∀ (s : State) (x : Sym) (rest : List Sym), s.symbuf = x :: rest →
    ∃ v : Word, v.toNat = 0x10000 + x.toNat ∧
      perform (rdTxn s.params .symOut) s = .next { s with symbuf := rest, reads := s.reads ++ [v] }) ∧
  (∀ s : State, s.symbuf = [] →
    perform (rdTxn s.params .symOut) s = .next { s with reads := s.reads ++ [0#32] })

/-- 20_memory.md R49, 10_state.md R20 to R34, R37: every register read other than the two pops gives the host the value
the register reads (`readReg`, whose values the three statements after the next say) and leaves the CORE as it is, in the
faulted state too. The value goes to the host (log 2). -/
def Obligations.OtherReadsChangeNothing : Prop :=
  ∀ (s : State) (r : Reg), r ≠ .byteOut → r ≠ .symOut →
    perform (rdTxn s.params r) s = .next { s with reads := s.reads ++ [(readReg r s).1] }

/-- 20_memory.md R48: a write to a read-write register replaces its value (of `QSYM` bits 15:0, of `TOTAL` the half
written), a write to any other register but `CMD` changes nothing; both whether or not `ERR != 0`. A read of `CMD` returns
0 and changes nothing. -/
def Obligations.RegisterWritesStoreOrAreIgnored : Prop :=
  ∀ (s : State) (v : Word),
    perform (wrTxn s.params .chunkIdx v) s = .next { s with chunkIdx := v } ∧
    perform (wrTxn s.params .recLen v) s = .next { s with recLen := v } ∧
    (∃ d : DWord, d.toNat = s.total.toNat / 2 ^ 32 * 2 ^ 32 + v.toNat ∧
      perform (wrTxn s.params .totalLo v) s = .next { s with total := d }) ∧
    (∃ d : DWord, d.toNat = v.toNat * 2 ^ 32 + s.total.toNat % 2 ^ 32 ∧
      perform (wrTxn s.params .totalHi v) s = .next { s with total := d }) ∧
    (∃ x : Sym, x.toNat = v.toNat % 2 ^ 16 ∧
      perform (wrTxn s.params .qsym v) s = .next { s with qsym := x }) ∧
    (∀ r : Reg, r ∉ [Reg.cmd, .chunkIdx, .recLen, .totalLo, .totalHi, .qsym] →
      perform (wrTxn s.params r v) s = .next s) ∧
    readReg .cmd s = (0#32, s)

/-- 10_state.md R21: the bits of `STATUS`, with `FAULT` the view `ERR != 0` and bits 31:6 reading 0. -/
def Obligations.StatusShowsTheFlags : Prop :=
  ∀ s : State,
    (readReg .status s).1.getLsbD 0 = s.freqV ∧ (readReg .status s).1.getLsbD 1 = s.trieV ∧
    (readReg .status s).1.getLsbD 2 = s.codeV ∧ (readReg .status s).1.getLsbD 3 = s.payV ∧
    (readReg .status s).1.getLsbD 4 = s.eoc ∧ ((readReg .status s).1.getLsbD 5 = true ↔ s.err ≠ none) ∧
    ∀ k, 6 ≤ k → (readReg .status s).1.getLsbD k = false

/-- 10_state.md R20 to R26, R32, R33, R37: what every register reads that holds a value and not a count; `ERR` reads the
code of 60_exceptions.md R161. -/
def Obligations.RegistersReadTheirValues : Prop :=
  ∀ s : State,
    (readReg .cmd s).1 = 0#32 ∧
    ((readReg .err s).1.toNat = match s.err with | none => 0 | some e => faultCode e) ∧
    (readReg .errinfo s).1 = s.errinfo ∧ (readReg .chunkIdx s).1 = s.chunkIdx ∧
    (readReg .recIdx s).1 = s.recIdx ∧ (readReg .recLen s).1 = s.recLen ∧
    (readReg .totalHi s).1.toNat * 2 ^ 32 + (readReg .totalLo s).1.toNat = s.total.toNat ∧
    (readReg .procHi s).1.toNat * 2 ^ 32 + (readReg .procLo s).1.toNat = s.proc.toNat ∧
    (readReg .qsym s).1.toNat = s.qsym.toNat

/-- 10_state.md R27 to R31, R34, R37: in every state that meets the invariant the views read the exact sizes and counts,
and `BITCNT_HI` is at most 7. -/
def Obligations.ViewsReadTheExactSizes : Prop :=
  ∀ s : State, Inv s →
    (readReg .symCount s).1.toNat = s.symbuf.length ∧ (readReg .payLen s).1.toNat = s.paybuf.length ∧
    (readReg .inAvail s).1.toNat = s.inq.length ∧ (readReg .outAvail s).1.toNat = s.outq.length ∧
    (readReg .distinct s).1.toNat = s.freq.length ∧
    (readReg .nodeCount s).1.toNat = (match s.trie with | none => 0 | some t => 2 * (leafSymbols t).length - 1) ∧
    (readReg .qfreq s).1.toNat = (tableGet s.qsym s.freq).getD 0 ∧
    (readReg .qcodelen s).1.toNat = (match tableGet s.qsym s.code with | none => 0 | some b => b.length) ∧
    (readReg .bitcntHi s).1.toNat * 2 ^ 32 + (readReg .bitcntLo s).1.toNat = s.bitcnt.toNat ∧
    (readReg .bitcntHi s).1.toNat ≤ 7

/-- 20_memory.md R51, 00_scope.md R8: `FromBE` is the inverse of `BE16`, `BE32` and `BE64`, which give 2, 4 and 8
bytes, the most significant first. -/
def Obligations.BigEndianFieldsReadBack : Prop :=
  (∀ v : BitVec 16, fromBE (be16 v) = v.toNat ∧ (be16 v).length = 2) ∧
  (∀ v : Word, fromBE (be32 v) = v.toNat ∧ (be32 v).length = 4) ∧
  (∀ v : DWord, fromBE (be64 v) = v.toNat ∧ (be64 v).length = 8) ∧
  (∀ (b : Byte) (rest : List Byte), fromBE (b :: rest) / 256 ^ rest.length = b.toNat)

/-! ## Reset -/

/-- 70_reset_and_hazards.md R185, R186, 40_housekeeping.md R81: `SRESET` from any state, the faulted one included, and
hardware reset both give every element of state its reset value and are not distinguishable afterwards. Every register
then reads `0x00000000`. The parameters stay. That hardware reset is a transaction of its own, and that the host's lists
`pending` and `reads` stay, is the model's choice (log 10). -/
def Obligations.ResetSetsEveryElement : Prop :=
  ∀ s : State, exec .sreset s = .next (afterReset s) ∧ perform .hardwareReset s = .next (afterReset s) ∧
    ∀ r : Reg, (readReg r (afterReset s)).1 = 0#32

/-- 10_state.md R42: the invariants hold after reset, for every instance whose parameters are in the ranges of
00_scope.md R5, and for the instance of `State.reset` (whose parameters are the model's choice, log 3). -/
def Obligations.InvariantHoldsAtReset : Prop :=
  (∀ p : Config.Params, p.wf = true → Inv (State.resetWith p)) ∧ Inv State.reset

/-- 10_state.md R42: the invariants hold after every host transaction, from every state in which they hold. -/
def Obligations.EveryStepKeepsTheInvariant : Prop :=
  ∀ s t : State, Inv s → step s = .next t → Inv t

/-! ## Faults -/

/-- 60_exceptions.md R172: in the faulted state every write to `CMD` other than the exact word `0x00000001` changes
nothing. -/
def Obligations.FaultedStateIgnoresCommands : Prop :=
  ∀ (s : State) (w : Word), s.err ≠ none → w ≠ 0x00000001#32 → perform (.write s.params.base 4 w) s = .next s

/-- 60_exceptions.md R173: a transaction in the faulted state keeps `ERR` and `ERRINFO` (10_state.md R22, R23), unless it
is a hardware reset or an `SRESET`; then all state is reset and nothing is restored. -/
def Obligations.OnlyResetLeavesTheFaultedState : Prop :=
  ∀ (x : Txn) (s t : State), s.err ≠ none → perform x s = .next t →
    (t.err = s.err ∧ t.errinfo = s.errinfo) ∨
    ((x = .hardwareReset ∨ x = .write s.params.base 4 0x00000001#32) ∧ t = afterReset s)

/-- 60_exceptions.md R171: whichever command raises a fault, the state after it is the state before the command with
the fault recorded, the chunk cleared and `INQ` empty, `ERRINFO` holding the command's word; of the command's own
changes only the `EOC <- 0` of `RDHEAD` and `DECODE` remains. -/
def Obligations.FaultEntryDiscardsTheCommand : Prop :=
  ∀ (i : Instr) (s t : State) (e : ErrKind), s.err = none → exec i s = .next t → t.err = some e →
    t = afterFault e (Sys2Proof.encode i) (faultBase i s)

/-- 60_exceptions.md R161: a command raises only the fault kinds the table gives it; in particular `ENCODE` raises only
`CapacityError` (46_chunk_codec.md R134). -/
def Obligations.CommandsRaiseOnlyTheirFaults : Prop :=
  ∀ (i : Instr) (s t : State) (e : ErrKind), Inv s → s.err = none → exec i s = .next t → t.err = some e →
    e ∈ mayRaise i

/-! ## What commands leave alone -/

/-- 20_memory.md R55, 10_state.md R18: a command other than `SRESET` only appends to `OUTQ`; a command that raises a fault
appends nothing, and only the six encode-side commands append at all. -/
def Obligations.CommandsOnlyAppendOutput : Prop :=
  ∀ (i : Instr) (s t : State), i ≠ .sreset → exec i s = .next t →
    ∃ b, t.outq = s.outq ++ b ∧ (t.err ≠ none → b = []) ∧
      (b ≠ [] → i ∈ [Instr.wrhdr, .wrhead, .sertrie, .wrpay, .emitrec, .encode])

/-- 20_memory.md R54, 10_state.md R17: a command other than `PUSHB` only removes bytes from the head of `INQ`. -/
def Obligations.CommandsOnlyTakeFromTheInputHead : Prop :=
  ∀ (i : Instr) (s t : State), (∀ b, i ≠ .pushb b) → exec i s = .next t → ∃ k, t.inq = s.inq.drop k

/-- 10_state.md R24, R25, R26, R32, R33, R37: the commands that write each counter or operand register; every other
command leaves it. -/
def Obligations.CommandsWriteOnlyTheirRegisters : Prop :=
  ∀ (i : Instr) (s t : State), exec i s = .next t → i ≠ .sreset →
    (t.chunkIdx ≠ s.chunkIdx → i ∈ [Instr.wrhead, .emitrec, .encode, .wrhdr]) ∧
    (t.recIdx ≠ s.recIdx → i ∈ [Instr.rdhead, .decode]) ∧
    (t.recLen ≠ s.recLen → i ∈ [Instr.pack, .encode, .rdhead, .decode]) ∧
    (t.total ≠ s.total → i = .rdhdr) ∧
    (t.proc ≠ s.proc → i ∈ [Instr.unpack, .decode, .rdhdr]) ∧
    t.qsym = s.qsym

/-- 10_state.md R21, columns "Set by" and "Cleared by": which commands set a flag, and which change `EOC`. -/
def Obligations.FlagsAreSetOnlyByTheirCommands : Prop :=
  ∀ (i : Instr) (s t : State), exec i s = .next t → i ≠ .sreset →
    (s.freqV = false → t.freqV = true → i = .freq) ∧
    (s.trieV = false → t.trieV = true → i ∈ [Instr.build, .desertrie]) ∧
    (s.codeV = false → t.codeV = true → i = .codes) ∧
    (s.payV = false → t.payV = true → i ∈ [Instr.pack, .rdpay]) ∧
    (s.eoc = false → t.eoc = true → i ∈ [Instr.rdhead, .decode] ∧ s.inq = []) ∧
    (s.eoc = true → t.eoc = false → i ∈ [Instr.rdhead, .decode, .rdhdr, .clrin])

/-! ## Housekeeping commands -/

/-- 40_housekeeping.md R80, R82, R83: `NOP` changes nothing, in the faulted state as out of it; `CLRCHUNK` performs
`ClearChunk`, `CLRIN` empties `INQ` and clears `EOC`; both complete in every state with `ERR = 0` and change nothing
else. -/
def Obligations.NopAndClearingCommands : Prop :=
  decode 0x00000000#32 = .instr .nop ∧ decode 0x00000002#32 = .instr .clrchunk ∧
  decode 0x00000003#32 = .instr .clrin ∧
  (∀ s : State, exec .nop s = .next s) ∧
  (∀ s : State, s.err = none →
    exec .clrchunk s = .next { workCleared s with symbuf := [] } ∧
    exec .clrin s = .next { s with inq := [], eoc := false })

/-- 40_housekeeping.md R84, R85: `PUSHS` and `PUSHB` append their immediate at the tail, or raise `CapacityError` with
their own word when the buffer is full; nothing else changes, no flag among it. -/
def Obligations.PushCommandsAppendOrFault : Prop :=
  (∀ x : Sym, decode (x ++ 0x0004#16) = .instr (.pushs x)) ∧
  (∀ b : Byte, decode (0x00#8 ++ b ++ 0x0005#16) = .instr (.pushb b)) ∧
  ∀ s : State, s.err = none →
    (∀ x : Sym, exec (.pushs x) s = .next (
      if s.symbuf.length = s.params.chunkMax then afterFault .capacity (x ++ 0x0004#16) s
      else { s with symbuf := s.symbuf ++ [x] })) ∧
    (∀ b : Byte, exec (.pushb b) s = .next (
      if s.inq.length = s.params.inqMax then afterFault .capacity (0x00#8 ++ b ++ 0x0005#16) s
      else { s with inq := s.inq ++ [b] }))

/-- 30_encoding.md R72, 40_housekeeping.md R84: `pushs*` loads a chunk in order, whatever symbols it holds, when it
fits. -/
def Obligations.PushedSymbolsFormTheChunk : Prop :=
  ∀ (s : State) (xs : List Sym), s.err = none → s.symbuf.length + xs.length ≤ s.params.chunkMax →
    execAll (pushsAll xs) s = .next { s with symbuf := s.symbuf ++ xs }

/-- 30_encoding.md R72, 10_state.md R35: `drainb` takes every byte of `OUTQ` in order, each with `VALID = 1`, then reads
`VALID = 0`; it works in the faulted state too. -/
def Obligations.DrainingTakesTheWholeOutput : Prop :=
  ∀ s : State, performAll (drainBytes s) s =
    .next { s with outq := [], reads := s.reads ++ s.outq.map (fun b => 0x00000100#32 + b.setWidth 32) ++ [0#32] }

/-! ## Frequency analyzer -/

/-- 41_frequency_analyzer.md R90, R91, 10_state.md R30: `FREQ` completes in every state with `ERR = 0`; the new table
holds for every symbol the number of its occurrences in `SYMBUF` and nothing of the old table, `FREQ_V` is set, nothing
else changes, and `DISTINCT` is then the number of distinct symbols of the chunk. -/
def Obligations.FreqCountsTheChunk : Prop :=
  decode 0x00000010#32 = .instr .freq ∧
  ∀ s : State, s.err = none → ∃ f : FreqTable,
    exec .freq s = .next { s with freq := f, freqV := true } ∧
    (∀ x, freqAt f x = s.symbuf.count x) ∧ distinct f = s.symbuf.dedup.length

/-! ## Trie builder -/

/-- 42_trie_builder.md R95: the whole rule of `BUILD`. It faults with `SequenceError` without a table and with
`EmptyInputError` on an empty one; otherwise it completes with a tree of `2 * DISTINCT - 1` nodes. -/
def Obligations.BuildMakesTheTrieOrFaults : Prop :=
  decode 0x00000011#32 = .instr .build ∧
  ∀ s : State, s.err = none →
    (s.freqV = false → exec .build s = .next (afterFault .sequence 0x00000011#32 s)) ∧
    (s.freqV = true → distinct s.freq = 0 → exec .build s = .next (afterFault .emptyInput 0x00000011#32 s)) ∧
    (s.freqV = true → distinct s.freq ≠ 0 → ∃ t, buildTree s.freq = some t ∧ nodes t = 2 * distinct s.freq - 1 ∧
      exec .build s = .next { s with trie := some t, trieV := true })

/-- 42_trie_builder.md R97: the model's comparison is the lexicographic order on frequency, kind and minor key, and it
is strict and total between nodes that differ in one of them. -/
def Obligations.NodeOrderIsTheMandatedOne : Prop :=
  (∀ p q : QNode, nodeBefore p q = true ↔ Before p q) ∧
  (∀ p : QNode, ¬ Before p p) ∧
  (∀ p q r : QNode, Before p q → Before q r → Before p r) ∧
  (∀ p q : QNode, (p.freq, nodeKind p, p.minor) ≠ (q.freq, nodeKind q, q.minor) → Before p q ∨ Before q p)

/-- 42_trie_builder.md R96: the tree of `Build(f)` is the one the document's loop returns, which at each turn removes the
two least nodes of the queue under R97 and inserts their merge, removed-first left. -/
def Obligations.BuildMergesTheTwoLeast : Prop :=
  ∀ (f : FreqTable) (t : Tree), keysRise f = true →
    (buildTree f = some t ↔
      BuildsTo ((f.filter (fun e => decide (1 ≤ e.2))).map (fun e => ⟨.leaf e.1, e.2, e.1.toNat⟩)) 0 t)

/-- 42_trie_builder.md R98 (a): the leaves of `Build(f)` carry exactly the symbols with `f[s] >= 1`, once each. -/
def Obligations.BuiltLeavesAreTheCountedSymbols : Prop :=
  ∀ (f : FreqTable) (t : Tree), buildTree f = some t →
    (leafSymbols t).Perm ((f.filter (fun e => decide (1 ≤ e.2))).map (·.1)) ∧ nodes t = 2 * leaves t - 1

/-! ## Code table builder -/

/-- 43_code_table_builder.md R105, R106, R108: `CODES` faults without a trie; otherwise it completes, changing `CODE` and
`CODE_V` only. The code of a single leaf is `"0"`; in any other trie the code of a symbol is the path from the root to the
rightmost of its leaves (its only leaf in a built trie), and a symbol of no leaf has none. -/
def Obligations.CodesAreRootToLeafPaths : Prop :=
  decode 0x00000012#32 = .instr .codes ∧
  ∀ s : State, s.err = none →
    (s.trieV = false → exec .codes s = .next (afterFault .sequence 0x00000012#32 s)) ∧
    (∀ t, s.trieV = true → s.trie = some t → ∃ c : CodeTable,
      exec .codes s = .next { s with code := c, codeV := true } ∧
      (∀ x, t = .leaf x → ∀ y, tableGet y c = if y = x then some [false] else none) ∧
      (∀ l r, t = .internal l r → ∀ y b, tableGet y c = some b ↔
        follow t b = some (.leaf y) ∧ ∀ b', follow t b' = some (.leaf y) → b' = b ∨ LeftOf b' b))

/-- 43_code_table_builder.md R107, R108: in every code table no code is empty and none is a prefix of another, for tries
with repeated symbols too. -/
def Obligations.CodesArePrefixFree : Prop :=
  ∀ (t : Tree) (x y : Sym) (b c : Bits), tableGet x (codesOf t) = some b → tableGet y (codesOf t) = some c →
    b ≠ [] ∧ (x ≠ y → ¬ b <+: c)

/-! ## Bit packer and unpacker -/

/-- 44_bit_packer_unpacker.md R110: the whole rule of `PACK`, its faults in the order `SequenceError`, `NoCodeError`,
`CapacityError`. -/
def Obligations.PackWritesThePayloadOrFaults : Prop :=
  decode 0x00000013#32 = .instr .pack ∧
  ∀ s : State, s.err = none →
    exec .pack s = .next (
      if s.codeV = false then afterFault .sequence 0x00000013#32 s
      else if ∃ x ∈ s.symbuf, tableGet x s.code = none then afterFault .noCode 0x00000013#32 s
      else if s.params.payMax < ((bitsOf s.code s.symbuf).length + 7) / 8 then afterFault .capacity 0x00000013#32 s
      else { s with
        paybuf := packBits (bitsOf s.code s.symbuf)
        bitcnt := BitVec.ofNat 64 (bitsOf s.code s.symbuf).length
        recLen := BitVec.ofNat 32 s.symbuf.length
        payV := true })

/-- 44_bit_packer_unpacker.md R111 (20_memory.md R52, R53): bit position `7 - i` of byte `k` is bit `8 * k + i` of the
sequence, most significant bit first, and 0 past its end; the length is `ceil_div(n, 8)`. -/
def Obligations.PackedBitsAreMsbFirst : Prop :=
  ∀ bits : Bits, (packBits bits).length = (bits.length + 7) / 8 ∧
    ∀ (k : Nat) (b : Byte), (packBits bits)[k]? = some b →
      ∀ i, i < 8 → b.getLsbD (7 - i) = bits.getD (8 * k + i) false

/-- 44_bit_packer_unpacker.md R113: the whole rule of `UNPACK`. -/
def Obligations.UnpackRecoversSymbolsOrFaults : Prop :=
  decode 0x00000014#32 = .instr .unpack ∧
  ∀ s : State, s.err = none →
    (s.trieV = false ∨ s.payV = false → exec .unpack s = .next (afterFault .sequence 0x00000014#32 s)) ∧
    (∀ t, s.trieV = true → s.payV = true → s.trie = some t →
      (s.params.chunkMax < s.recLen.toNat → exec .unpack s = .next (afterFault .capacity 0x00000014#32 s)) ∧
      (s.recLen.toNat ≤ s.params.chunkMax →
        (unpackBits s.paybuf t s.recLen.toNat = none →
          exec .unpack s = .next (afterFault .inconsistentLength 0x00000014#32 s)) ∧
        (∀ out pos, unpackBits s.paybuf t s.recLen.toNat = some (out, pos) →
          exec .unpack s = .next { s with
            symbuf := out
            bitcnt := BitVec.ofNat 64 pos
            proc := s.proc + BitVec.ofNat 64 s.recLen.toNat })))

/-- 44_bit_packer_unpacker.md R112, R115: what `Unpack` delivers has exactly `N` symbols and never used a bit from
`8 * |p|` on; a smaller `N` never fails where a larger one succeeds, and delivers the first symbols of the same
sequence. -/
def Obligations.UnpackStaysInsideThePayload : Prop :=
  ∀ (p : List Byte) (t : Tree) (n : Nat) (out : List Sym) (pos : Nat), unpackBits p t n = some (out, pos) →
    out.length = n ∧ pos ≤ 8 * p.length ∧
    ∀ m, m ≤ n → ∃ pos', unpackBits p t m = some (out.take m, pos') ∧ pos' ≤ pos

/-- 44_bit_packer_unpacker.md R112: what `Unpack` returns. With a single-leaf trie (conflict C3) it consumes one bit per
symbol, whatever its value, and is `short` exactly when there are fewer bits than symbols. With any other trie it answers
the symbols at the ends of `N` root-to-leaf paths that together are the first `pos` bits of the payload, and is `short` when
there are no such paths. -/
def Obligations.UnpackFollowsThePayloadBits : Prop :=
  (∀ (p : List Byte) (x : Sym) (n : Nat),
    unpackBits p (.leaf x) n = if n ≤ 8 * p.length then some (List.replicate n x, n) else none) ∧
  (∀ (p : List Byte) (l r : Tree) (n : Nat) (out : List Sym) (pos : Nat),
    unpackBits p (.internal l r) n = some (out, pos) ↔
      ∃ paths : List Bits, paths.length = n ∧
        paths.map (follow (.internal l r)) = out.map (fun x => some (.leaf x)) ∧
        paths.flatten = (payloadBits p).take pos ∧ paths.flatten.length = pos)

/-- 44_bit_packer_unpacker.md R114: packing a non-empty chunk with the codes of its own trie and unpacking it returns
the chunk and consumes exactly the logical bit count. -/
def Obligations.UnpackingReversesPacking : Prop :=
  ∀ q : List Sym, q ≠ [] → ∃ t : Tree, buildTree (countSymbols q) = some t ∧
    (∀ x ∈ q, tableGet x (codesOf t) ≠ none) ∧
    unpackBits (packBits (bitsOf (codesOf t) q)) t q.length = some (q, (bitsOf (codesOf t) q).length)

/-! ## Trie serializer -/

/-- 45_trie_serializer.md R120, R121: `Ser`, and the whole rule of `SERTRIE`; the bytes number `4 * leaves - 1`. -/
def Obligations.SertrieAppendsTheTrieOrFaults : Prop :=
  decode 0x00000015#32 = .instr .sertrie ∧
  (∀ x : Sym, serialize (.leaf x) = 0x01#8 :: be16 x) ∧
  (∀ l r : Tree, serialize (.internal l r) = 0x00#8 :: (serialize l ++ serialize r)) ∧
  ∀ s : State, s.err = none →
    (s.trieV = false → exec .sertrie s = .next (afterFault .sequence 0x00000015#32 s)) ∧
    (∀ t, s.trieV = true → s.trie = some t →
      (serialize t).length = 4 * leaves t - 1 ∧
      exec .sertrie s = .next (
        if s.params.outqMax < s.outq.length + (4 * leaves t - 1) then afterFault .capacity 0x00000015#32 s
        else { s with outq := s.outq ++ serialize t }))

/-- 45_trie_serializer.md R125: `Parse` of a queue that begins with `Ser(t)` returns `t` and removes exactly those bytes;
conversely what `Parse` removed is the serialized form of what it returned. -/
def Obligations.ParseReversesSerialization : Prop :=
  (∀ (nodeMax : Nat) (t : Tree) (rest : List Byte), nodes t ≤ nodeMax →
    parseTree nodeMax (serialize t ++ rest) = .tree t (nodes t) rest) ∧
  (∀ (nodeMax : Nat) (q : List Byte) (t : Tree) (cnt : Nat) (rest : List Byte),
    parseTree nodeMax q = .tree t cnt rest → q = serialize t ++ rest ∧ cnt = nodes t ∧ nodes t ≤ nodeMax)

/-- 45_trie_serializer.md R122 with R125: `DESERTRIE` on a queue that begins with a serialized trie of at most `NODE_MAX`
nodes takes exactly that trie and leaves the rest; it completes only on such a queue, and otherwise raises
`MalformedTrieError` or `CapacityError`. -/
def Obligations.DesertrieReadsExactlyATrie : Prop :=
  ∀ s : State, s.err = none →
    (∀ (t : Tree) (rest : List Byte), s.inq = serialize t ++ rest → nodes t ≤ s.params.nodeMax →
      exec .desertrie s = .next { s with inq := rest, trie := some t, trieV := true }) ∧
    ((∀ (t : Tree) (rest : List Byte), s.inq = serialize t ++ rest → s.params.nodeMax < nodes t) →
      exec .desertrie s = .next (afterFault .malformedTrie 0x00000016#32 s) ∨
      exec .desertrie s = .next (afterFault .capacity 0x00000016#32 s))

/-- 45_trie_serializer.md R122, R123, R126, 60_exceptions.md R163, R168: a well-formed trie with more than `NODE_MAX`
nodes raises `CapacityError`, and so does any flag byte met when `NODE_MAX` nodes are counted. A flag byte other than
`0x00` and `0x01` at a node counted up to `NODE_MAX`, and a queue that ends before a flag (the empty queue among them) or
inside a leaf's symbol with no more nodes than that, raise `MalformedTrieError`; so does every queue that ends inside a
trie of at most `NODE_MAX` nodes. -/
def Obligations.BadTriesFaultByKind : Prop :=
  ∀ s : State, s.err = none →
    (∀ (t : Tree) (rest : List Byte), s.inq = serialize t ++ rest → s.params.nodeMax < nodes t →
      exec .desertrie s = .next (afterFault .capacity 0x00000016#32 s)) ∧
    (∀ (above : List (Option Tree)) (f : Byte) (rest : List Byte), s.inq = bytesBefore above ++ f :: rest →
      nodesBefore above = s.params.nodeMax →
      exec .desertrie s = .next (afterFault .capacity 0x00000016#32 s)) ∧
    (∀ (above : List (Option Tree)) (f : Byte) (rest : List Byte), s.inq = bytesBefore above ++ f :: rest →
      f ≠ 0x00#8 → f ≠ 0x01#8 → nodesBefore above + 1 ≤ s.params.nodeMax →
      exec .desertrie s = .next (afterFault .malformedTrie 0x00000016#32 s)) ∧
    (∀ above : List (Option Tree), s.inq = bytesBefore above → nodesBefore above ≤ s.params.nodeMax →
      exec .desertrie s = .next (afterFault .malformedTrie 0x00000016#32 s)) ∧
    (∀ (above : List (Option Tree)) (x : List Byte), s.inq = bytesBefore above ++ 0x01#8 :: x → x.length < 2 →
      nodesBefore above + 1 ≤ s.params.nodeMax →
      exec .desertrie s = .next (afterFault .malformedTrie 0x00000016#32 s)) ∧
    (∀ (t : Tree) (k : Nat), nodes t ≤ s.params.nodeMax → k < (serialize t).length → s.inq = (serialize t).take k →
      exec .desertrie s = .next (afterFault .malformedTrie 0x00000016#32 s))

/-! ## Chunk codec, encode side -/

/-- 46_chunk_codec.md R131: the whole rule of `WRHEAD`; `CHUNK_IDX` wraps modulo `2^32`. -/
def Obligations.WrheadWritesTheHeadOrFaults : Prop :=
  decode 0x00000020#32 = .instr .wrhead ∧
  ∀ s : State, s.err = none →
    exec .wrhead s = .next (
      if s.recLen = 0#32 then afterFault .sequence 0x00000020#32 s
      else if s.params.outqMax < s.outq.length + 8 then afterFault .capacity 0x00000020#32 s
      else { s with
        outq := s.outq ++ (be32 s.chunkIdx ++ be32 s.recLen)
        chunkIdx := BitVec.ofNat 32 ((s.chunkIdx.toNat + 1) % 2 ^ 32) })

/-- 46_chunk_codec.md R132: the whole rule of `WRPAY`. -/
def Obligations.WrpayWritesThePayloadOrFaults : Prop :=
  decode 0x00000021#32 = .instr .wrpay ∧
  ∀ s : State, s.err = none →
    exec .wrpay s = .next (
      if s.payV = false then afterFault .sequence 0x00000021#32 s
      else if s.params.outqMax < s.outq.length + (4 + s.paybuf.length) then afterFault .capacity 0x00000021#32 s
      else { s with outq := s.outq ++ (be32 (BitVec.ofNat 32 s.paybuf.length) ++ s.paybuf) })

/-- 46_chunk_codec.md R130, R133: the whole rule of `EMITREC`, the record's layout included. -/
def Obligations.EmitrecWritesTheRecordOrFaults : Prop :=
  decode 0x00000022#32 = .instr .emitrec ∧
  ∀ s : State, s.err = none →
    (s.trieV = false ∨ s.payV = false ∨ s.recLen = 0#32 →
      exec .emitrec s = .next (afterFault .sequence 0x00000022#32 s)) ∧
    (∀ t, s.trieV = true → s.trie = some t → s.payV = true → s.recLen ≠ 0#32 →
      exec .emitrec s = .next (
        if s.params.outqMax < s.outq.length + (12 + (4 * leaves t - 1) + s.paybuf.length) then
          afterFault .capacity 0x00000022#32 s
        else { s with
          outq := s.outq ++ (be32 s.chunkIdx ++ be32 s.recLen ++ serialize t ++
            be32 (BitVec.ofNat 32 s.paybuf.length) ++ s.paybuf)
          chunkIdx := BitVec.ofNat 32 ((s.chunkIdx.toNat + 1) % 2 ^ 32) }))

/-- 46_chunk_codec.md R133: `EMITREC` writes the same bytes as `WRHEAD`, `SERTRIE`, `WRPAY` in that order, but
atomically. -/
def Obligations.EmitrecIsTheThreeFieldCommands : Prop :=
  ∀ s t : State, s.err = none → t.err = none →
    (exec .emitrec s = .next t ↔ execAll [.wrhead, .sertrie, .wrpay] s = .next t)

/-- 46_chunk_codec.md R134: `ENCODE` on an empty chunk performs `ClearChunk` and writes no record; on a chunk `q` it appends
the record of `q` (its trie built from its counts, its payload packed with that trie's codes), advances `CHUNK_IDX`, sets
`REC_LEN` and clears the chunk, or raises `CapacityError` when the payload or the record does not fit. -/
def Obligations.EncodeEmitsOneRecord : Prop :=
  decode 0x00000023#32 = .instr .encode ∧
  ∀ s : State, Inv s → s.err = none →
    (s.symbuf = [] → exec .encode s = .next { workCleared s with symbuf := [] }) ∧
    (s.symbuf ≠ [] → ∃ t bits, buildTree (countSymbols s.symbuf) = some t ∧ bits = bitsOf (codesOf t) s.symbuf ∧
      exec .encode s = .next (
        if s.params.payMax < (bits.length + 7) / 8 ∨
            s.params.outqMax < s.outq.length + (12 + (4 * s.symbuf.dedup.length - 1) + (bits.length + 7) / 8) then
          afterFault .capacity 0x00000023#32 s
        else { workCleared s with
          symbuf := []
          outq := s.outq ++ (be32 s.chunkIdx ++ be32 (BitVec.ofNat 32 s.symbuf.length) ++ serialize t ++
            be32 (BitVec.ofNat 32 ((bits.length + 7) / 8)) ++ packBits bits)
          recLen := BitVec.ofNat 32 s.symbuf.length
          chunkIdx := BitVec.ofNat 32 ((s.chunkIdx.toNat + 1) % 2 ^ 32) }))

/-- 46_chunk_codec.md R135: for a non-empty chunk, and when no fault occurs, `ENCODE` and the primitive sequence of
`encode.p` leave identical state. -/
def Obligations.EncodeIsThePrimitiveSequence : Prop :=
  ∀ s t : State, s.err = none → s.symbuf ≠ [] → t.err = none →
    (exec .encode s = .next t ↔ execAll encodeSteps s = .next t)

/-! ## Chunk codec, decode side -/

/-- 46_chunk_codec.md R136, R137: the whole rule of `RDHEAD`; an empty `INQ` sets `EOC` and nothing else. -/
def Obligations.RdheadReadsTheHead : Prop :=
  decode 0x00000024#32 = .instr .rdhead ∧
  ∀ s : State, s.err = none →
    (s.inq = [] → exec .rdhead s = .next { s with eoc := true }) ∧
    (1 ≤ s.inq.length → s.inq.length ≤ 7 →
      exec .rdhead s = .next (afterFault .truncatedRecord 0x00000024#32 { s with eoc := false })) ∧
    (∀ (idx len : Word) (rest : List Byte), s.inq = be32 idx ++ be32 len ++ rest →
      exec .rdhead s = .next { s with eoc := false, inq := rest, recIdx := idx, recLen := len })

/-- 46_chunk_codec.md R138: the whole rule of `RDPAY`; the length is checked before the payload is taken. -/
def Obligations.RdpayReadsThePayload : Prop :=
  decode 0x00000025#32 = .instr .rdpay ∧
  ∀ s : State, s.err = none →
    (s.inq.length < 4 → exec .rdpay s = .next (afterFault .truncatedRecord 0x00000025#32 s)) ∧
    (∀ (len : Word) (rest : List Byte), s.inq = be32 len ++ rest →
      exec .rdpay s = .next (
        if s.params.payMax < len.toNat then afterFault .capacity 0x00000025#32 s
        else if rest.length < len.toNat then afterFault .truncatedRecord 0x00000025#32 s
        else { s with
          inq := rest.drop len.toNat
          paybuf := rest.take len.toNat
          bitcnt := 0#64
          payV := true }))

/-- 46_chunk_codec.md R137, R140, R141, R143, R145: `DECODE` with `INQ` empty sets `EOC` and does nothing else; with a
record whose fields are all present it removes exactly that record and delivers its symbols, surplus payload bytes and
a `chunk_length` of 0 included, or raises the fault of the first length among them that is too great or inconsistent. -/
def Obligations.DecodeReadsOneRecord : Prop :=
  ∀ s : State, s.err = none →
    (s.inq = [] → exec .decode s = .next { s with eoc := true }) ∧
    (∀ (idx len payLen : Word) (t : Tree) (payload rest : List Byte),
      s.inq = be32 idx ++ be32 len ++ serialize t ++ be32 payLen ++ payload ++ rest →
      payload.length = payLen.toNat → nodes t ≤ s.params.nodeMax →
      (s.params.payMax < payLen.toNat ∨ s.params.chunkMax < len.toNat →
        exec .decode s = .next (afterFault .capacity 0x00000026#32 { s with eoc := false })) ∧
      (payLen.toNat ≤ s.params.payMax → len.toNat ≤ s.params.chunkMax →
        (unpackBits payload t len.toNat = none →
          exec .decode s = .next (afterFault .inconsistentLength 0x00000026#32 { s with eoc := false })) ∧
        (∀ out pos, unpackBits payload t len.toNat = some (out, pos) →
          exec .decode s = .next { workCleared s with
            inq := rest
            symbuf := out
            recIdx := idx
            recLen := len
            proc := s.proc + BitVec.ofNat 64 len.toNat
            eoc := false })))

/-- 46_chunk_codec.md R140, R141, 30_encoding.md R72, 60_exceptions.md R171: with `INQ` not empty the sequence `decode.p`
completes, and `DECODE` is that sequence followed by `ClearWork` when no step of it faults; when one does, `DECODE` enters
the same fault (the later steps are ignored), from its own start state with `EOC = 0` and with its own word. -/
def Obligations.DecodeIsThePrimitiveSequence : Prop :=
  ∀ s : State, s.err = none → s.inq ≠ [] → ∃ u, execAll decodeSteps s = .next u ∧
    (u.err = none → exec .decode s = .next (workCleared u)) ∧
    (∀ e, u.err = some e → exec .decode s = .next (afterFault e 0x00000026#32 { s with eoc := false }))

/-- 46_chunk_codec.md R144: a record that `ENCODE` wrote is read back by `DECODE`: no fault, exactly the record is
removed, and `SYMBUF`, `REC_LEN` and `REC_IDX` are the chunk, its length and the encoder's `CHUNK_IDX`; everything else is
as R140, R141 say. -/
def Obligations.DecodeReversesEncode : Prop :=
  ∀ (enc enc' dec : State) (record rest : List Byte), Inv enc → enc.err = none → enc.symbuf ≠ [] →
    exec .encode enc = .next enc' → enc'.err = none → enc'.outq = enc.outq ++ record →
    dec.params = enc.params → dec.err = none → dec.inq = record ++ rest →
    exec .decode dec = .next { workCleared dec with
      inq := rest
      symbuf := enc.symbuf
      recIdx := enc.chunkIdx
      recLen := BitVec.ofNat 32 enc.symbuf.length
      proc := dec.proc + BitVec.ofNat 64 enc.symbuf.length
      eoc := false }

/-- 46_chunk_codec.md R142: the fault that each cut of a record gives: none before it (`EOC`), `TruncatedRecordError`
inside the head, `MalformedTrieError` inside the trie, `TruncatedRecordError` after it. -/
def Obligations.CutRecordsFaultByPosition : Prop :=
  ∀ (enc enc' dec : State) (record : List Byte) (k : Nat), Inv enc → enc.err = none → enc.symbuf ≠ [] →
    exec .encode enc = .next enc' → enc'.err = none → enc'.outq = enc.outq ++ record →
    dec.params = enc.params → dec.err = none → k < record.length → dec.inq = record.take k →
    exec .decode dec = .next (
      if k = 0 then { dec with eoc := true }
      else if k < 8 then afterFault .truncatedRecord 0x00000026#32 { dec with eoc := false }
      else if k < 8 + (4 * enc.symbuf.dedup.length - 1) then
        afterFault .malformedTrie 0x00000026#32 { dec with eoc := false }
      else afterFault .truncatedRecord 0x00000026#32 { dec with eoc := false })

/-! ## Container -/

/-- 47_container.md R151, R152: the whole rules of `WRHDR` and `RDHDR`, their words included. -/
def Obligations.HeaderCommands : Prop :=
  decode 0x00000030#32 = .instr .wrhdr ∧ decode 0x00000031#32 = .instr .rdhdr ∧
  ∀ s : State, s.err = none →
    (exec .wrhdr s = .next (
      if s.params.outqMax < s.outq.length + 8 then afterFault .capacity 0x00000030#32 s
      else { s with outq := s.outq ++ be64 s.total, chunkIdx := 0#32 })) ∧
    (s.inq.length < 8 → exec .rdhdr s = .next (afterFault .truncatedRecord 0x00000031#32 s)) ∧
    (∀ (n : DWord) (rest : List Byte), s.inq = be64 n ++ rest →
      exec .rdhdr s = .next { s with inq := rest, total := n, proc := 0#64, eoc := false })
end

