-- ==== Sys2Proof/Laws/State.lean ====
section
/-! SUPPORT. What each named update of the state leaves in each field: one lemma per field and update. -/

namespace Sys2Proof.Machine

/-! ## `ClearWork` (10_state.md R40) -/

@[simp] theorem clearWork_params (s : State) : (clearWork s).params = s.params := rfl
@[simp] theorem clearWork_symbuf (s : State) : (clearWork s).symbuf = s.symbuf := rfl
@[simp] theorem clearWork_trie (s : State) : (clearWork s).trie = none := rfl
@[simp] theorem clearWork_freq (s : State) : (clearWork s).freq = [] := rfl
@[simp] theorem clearWork_code (s : State) : (clearWork s).code = [] := rfl
@[simp] theorem clearWork_paybuf (s : State) : (clearWork s).paybuf = [] := rfl
@[simp] theorem clearWork_bitcnt (s : State) : (clearWork s).bitcnt = 0#64 := rfl
@[simp] theorem clearWork_inq (s : State) : (clearWork s).inq = s.inq := rfl
@[simp] theorem clearWork_outq (s : State) : (clearWork s).outq = s.outq := rfl
@[simp] theorem clearWork_freqV (s : State) : (clearWork s).freqV = false := rfl
@[simp] theorem clearWork_trieV (s : State) : (clearWork s).trieV = false := rfl
@[simp] theorem clearWork_codeV (s : State) : (clearWork s).codeV = false := rfl
@[simp] theorem clearWork_payV (s : State) : (clearWork s).payV = false := rfl
@[simp] theorem clearWork_eoc (s : State) : (clearWork s).eoc = s.eoc := rfl
@[simp] theorem clearWork_err (s : State) : (clearWork s).err = s.err := rfl
@[simp] theorem clearWork_errinfo (s : State) : (clearWork s).errinfo = s.errinfo := rfl
@[simp] theorem clearWork_chunkIdx (s : State) : (clearWork s).chunkIdx = s.chunkIdx := rfl
@[simp] theorem clearWork_recIdx (s : State) : (clearWork s).recIdx = s.recIdx := rfl
@[simp] theorem clearWork_recLen (s : State) : (clearWork s).recLen = s.recLen := rfl
@[simp] theorem clearWork_total (s : State) : (clearWork s).total = s.total := rfl
@[simp] theorem clearWork_proc (s : State) : (clearWork s).proc = s.proc := rfl
@[simp] theorem clearWork_qsym (s : State) : (clearWork s).qsym = s.qsym := rfl
@[simp] theorem clearWork_pending (s : State) : (clearWork s).pending = s.pending := rfl
@[simp] theorem clearWork_reads (s : State) : (clearWork s).reads = s.reads := rfl

/-! ## `ClearChunk` (10_state.md R41) -/

@[simp] theorem clearChunk_params (s : State) : (clearChunk s).params = s.params := rfl
@[simp] theorem clearChunk_symbuf (s : State) : (clearChunk s).symbuf = [] := rfl
@[simp] theorem clearChunk_trie (s : State) : (clearChunk s).trie = none := rfl
@[simp] theorem clearChunk_freq (s : State) : (clearChunk s).freq = [] := rfl
@[simp] theorem clearChunk_code (s : State) : (clearChunk s).code = [] := rfl
@[simp] theorem clearChunk_paybuf (s : State) : (clearChunk s).paybuf = [] := rfl
@[simp] theorem clearChunk_bitcnt (s : State) : (clearChunk s).bitcnt = 0#64 := rfl
@[simp] theorem clearChunk_inq (s : State) : (clearChunk s).inq = s.inq := rfl
@[simp] theorem clearChunk_outq (s : State) : (clearChunk s).outq = s.outq := rfl
@[simp] theorem clearChunk_freqV (s : State) : (clearChunk s).freqV = false := rfl
@[simp] theorem clearChunk_trieV (s : State) : (clearChunk s).trieV = false := rfl
@[simp] theorem clearChunk_codeV (s : State) : (clearChunk s).codeV = false := rfl
@[simp] theorem clearChunk_payV (s : State) : (clearChunk s).payV = false := rfl
@[simp] theorem clearChunk_eoc (s : State) : (clearChunk s).eoc = s.eoc := rfl
@[simp] theorem clearChunk_err (s : State) : (clearChunk s).err = s.err := rfl
@[simp] theorem clearChunk_errinfo (s : State) : (clearChunk s).errinfo = s.errinfo := rfl
@[simp] theorem clearChunk_chunkIdx (s : State) : (clearChunk s).chunkIdx = s.chunkIdx := rfl
@[simp] theorem clearChunk_recIdx (s : State) : (clearChunk s).recIdx = s.recIdx := rfl
@[simp] theorem clearChunk_recLen (s : State) : (clearChunk s).recLen = s.recLen := rfl
@[simp] theorem clearChunk_total (s : State) : (clearChunk s).total = s.total := rfl
@[simp] theorem clearChunk_proc (s : State) : (clearChunk s).proc = s.proc := rfl
@[simp] theorem clearChunk_qsym (s : State) : (clearChunk s).qsym = s.qsym := rfl
@[simp] theorem clearChunk_pending (s : State) : (clearChunk s).pending = s.pending := rfl
@[simp] theorem clearChunk_reads (s : State) : (clearChunk s).reads = s.reads := rfl

/-! ## `FaultEntry` (60_exceptions.md R171) -/

@[simp] theorem faultEntry_params (e : ErrKind) (w : Word) (s : State) : (faultEntry e w s).params = s.params := rfl
@[simp] theorem faultEntry_symbuf (e : ErrKind) (w : Word) (s : State) : (faultEntry e w s).symbuf = [] := rfl
@[simp] theorem faultEntry_trie (e : ErrKind) (w : Word) (s : State) : (faultEntry e w s).trie = none := rfl
@[simp] theorem faultEntry_freq (e : ErrKind) (w : Word) (s : State) : (faultEntry e w s).freq = [] := rfl
@[simp] theorem faultEntry_code (e : ErrKind) (w : Word) (s : State) : (faultEntry e w s).code = [] := rfl
@[simp] theorem faultEntry_paybuf (e : ErrKind) (w : Word) (s : State) : (faultEntry e w s).paybuf = [] := rfl
@[simp] theorem faultEntry_bitcnt (e : ErrKind) (w : Word) (s : State) : (faultEntry e w s).bitcnt = 0#64 := rfl
@[simp] theorem faultEntry_inq (e : ErrKind) (w : Word) (s : State) : (faultEntry e w s).inq = [] := rfl
@[simp] theorem faultEntry_outq (e : ErrKind) (w : Word) (s : State) : (faultEntry e w s).outq = s.outq := rfl
@[simp] theorem faultEntry_freqV (e : ErrKind) (w : Word) (s : State) : (faultEntry e w s).freqV = false := rfl
@[simp] theorem faultEntry_trieV (e : ErrKind) (w : Word) (s : State) : (faultEntry e w s).trieV = false := rfl
@[simp] theorem faultEntry_codeV (e : ErrKind) (w : Word) (s : State) : (faultEntry e w s).codeV = false := rfl
@[simp] theorem faultEntry_payV (e : ErrKind) (w : Word) (s : State) : (faultEntry e w s).payV = false := rfl
@[simp] theorem faultEntry_eoc (e : ErrKind) (w : Word) (s : State) : (faultEntry e w s).eoc = s.eoc := rfl
@[simp] theorem faultEntry_err (e : ErrKind) (w : Word) (s : State) : (faultEntry e w s).err = some e := rfl
@[simp] theorem faultEntry_errinfo (e : ErrKind) (w : Word) (s : State) : (faultEntry e w s).errinfo = w := rfl
@[simp] theorem faultEntry_chunkIdx (e : ErrKind) (w : Word) (s : State) : (faultEntry e w s).chunkIdx = s.chunkIdx := rfl
@[simp] theorem faultEntry_recIdx (e : ErrKind) (w : Word) (s : State) : (faultEntry e w s).recIdx = s.recIdx := rfl
@[simp] theorem faultEntry_recLen (e : ErrKind) (w : Word) (s : State) : (faultEntry e w s).recLen = s.recLen := rfl
@[simp] theorem faultEntry_total (e : ErrKind) (w : Word) (s : State) : (faultEntry e w s).total = s.total := rfl
@[simp] theorem faultEntry_proc (e : ErrKind) (w : Word) (s : State) : (faultEntry e w s).proc = s.proc := rfl
@[simp] theorem faultEntry_qsym (e : ErrKind) (w : Word) (s : State) : (faultEntry e w s).qsym = s.qsym := rfl
@[simp] theorem faultEntry_pending (e : ErrKind) (w : Word) (s : State) : (faultEntry e w s).pending = s.pending := rfl
@[simp] theorem faultEntry_reads (e : ErrKind) (w : Word) (s : State) : (faultEntry e w s).reads = s.reads := rfl

/-! ## `ResetAll` (70_reset_and_hazards.md R186) -/

@[simp] theorem resetAll_params (s : State) : (resetAll s).params = s.params := rfl
@[simp] theorem resetAll_symbuf (s : State) : (resetAll s).symbuf = [] := rfl
@[simp] theorem resetAll_trie (s : State) : (resetAll s).trie = none := rfl
@[simp] theorem resetAll_freq (s : State) : (resetAll s).freq = [] := rfl
@[simp] theorem resetAll_code (s : State) : (resetAll s).code = [] := rfl
@[simp] theorem resetAll_paybuf (s : State) : (resetAll s).paybuf = [] := rfl
@[simp] theorem resetAll_bitcnt (s : State) : (resetAll s).bitcnt = 0#64 := rfl
@[simp] theorem resetAll_inq (s : State) : (resetAll s).inq = [] := rfl
@[simp] theorem resetAll_outq (s : State) : (resetAll s).outq = [] := rfl
@[simp] theorem resetAll_freqV (s : State) : (resetAll s).freqV = false := rfl
@[simp] theorem resetAll_trieV (s : State) : (resetAll s).trieV = false := rfl
@[simp] theorem resetAll_codeV (s : State) : (resetAll s).codeV = false := rfl
@[simp] theorem resetAll_payV (s : State) : (resetAll s).payV = false := rfl
@[simp] theorem resetAll_eoc (s : State) : (resetAll s).eoc = false := rfl
@[simp] theorem resetAll_err (s : State) : (resetAll s).err = none := rfl
@[simp] theorem resetAll_errinfo (s : State) : (resetAll s).errinfo = 0#32 := rfl
@[simp] theorem resetAll_chunkIdx (s : State) : (resetAll s).chunkIdx = 0#32 := rfl
@[simp] theorem resetAll_recIdx (s : State) : (resetAll s).recIdx = 0#32 := rfl
@[simp] theorem resetAll_recLen (s : State) : (resetAll s).recLen = 0#32 := rfl
@[simp] theorem resetAll_total (s : State) : (resetAll s).total = 0#64 := rfl
@[simp] theorem resetAll_proc (s : State) : (resetAll s).proc = 0#64 := rfl
@[simp] theorem resetAll_qsym (s : State) : (resetAll s).qsym = 0#16 := rfl
@[simp] theorem resetAll_pending (s : State) : (resetAll s).pending = s.pending := rfl
@[simp] theorem resetAll_reads (s : State) : (resetAll s).reads = s.reads := rfl

/-! ## `EOC <- 0` (46_chunk_codec.md R136) -/

@[simp] theorem clearEoc_params (s : State) : (clearEoc s).params = s.params := rfl
@[simp] theorem clearEoc_symbuf (s : State) : (clearEoc s).symbuf = s.symbuf := rfl
@[simp] theorem clearEoc_trie (s : State) : (clearEoc s).trie = s.trie := rfl
@[simp] theorem clearEoc_freq (s : State) : (clearEoc s).freq = s.freq := rfl
@[simp] theorem clearEoc_code (s : State) : (clearEoc s).code = s.code := rfl
@[simp] theorem clearEoc_paybuf (s : State) : (clearEoc s).paybuf = s.paybuf := rfl
@[simp] theorem clearEoc_bitcnt (s : State) : (clearEoc s).bitcnt = s.bitcnt := rfl
@[simp] theorem clearEoc_inq (s : State) : (clearEoc s).inq = s.inq := rfl
@[simp] theorem clearEoc_outq (s : State) : (clearEoc s).outq = s.outq := rfl
@[simp] theorem clearEoc_freqV (s : State) : (clearEoc s).freqV = s.freqV := rfl
@[simp] theorem clearEoc_trieV (s : State) : (clearEoc s).trieV = s.trieV := rfl
@[simp] theorem clearEoc_codeV (s : State) : (clearEoc s).codeV = s.codeV := rfl
@[simp] theorem clearEoc_payV (s : State) : (clearEoc s).payV = s.payV := rfl
@[simp] theorem clearEoc_eoc (s : State) : (clearEoc s).eoc = false := rfl
@[simp] theorem clearEoc_err (s : State) : (clearEoc s).err = s.err := rfl
@[simp] theorem clearEoc_errinfo (s : State) : (clearEoc s).errinfo = s.errinfo := rfl
@[simp] theorem clearEoc_chunkIdx (s : State) : (clearEoc s).chunkIdx = s.chunkIdx := rfl
@[simp] theorem clearEoc_recIdx (s : State) : (clearEoc s).recIdx = s.recIdx := rfl
@[simp] theorem clearEoc_recLen (s : State) : (clearEoc s).recLen = s.recLen := rfl
@[simp] theorem clearEoc_total (s : State) : (clearEoc s).total = s.total := rfl
@[simp] theorem clearEoc_proc (s : State) : (clearEoc s).proc = s.proc := rfl
@[simp] theorem clearEoc_qsym (s : State) : (clearEoc s).qsym = s.qsym := rfl
@[simp] theorem clearEoc_pending (s : State) : (clearEoc s).pending = s.pending := rfl
@[simp] theorem clearEoc_reads (s : State) : (clearEoc s).reads = s.reads := rfl

/-! ## the advance of `CHUNK_IDX` (10_state.md R24) -/

@[simp] theorem bumpChunkIdx_params (s : State) : (bumpChunkIdx s).params = s.params := rfl
@[simp] theorem bumpChunkIdx_symbuf (s : State) : (bumpChunkIdx s).symbuf = s.symbuf := rfl
@[simp] theorem bumpChunkIdx_trie (s : State) : (bumpChunkIdx s).trie = s.trie := rfl
@[simp] theorem bumpChunkIdx_freq (s : State) : (bumpChunkIdx s).freq = s.freq := rfl
@[simp] theorem bumpChunkIdx_code (s : State) : (bumpChunkIdx s).code = s.code := rfl
@[simp] theorem bumpChunkIdx_paybuf (s : State) : (bumpChunkIdx s).paybuf = s.paybuf := rfl
@[simp] theorem bumpChunkIdx_bitcnt (s : State) : (bumpChunkIdx s).bitcnt = s.bitcnt := rfl
@[simp] theorem bumpChunkIdx_inq (s : State) : (bumpChunkIdx s).inq = s.inq := rfl
@[simp] theorem bumpChunkIdx_outq (s : State) : (bumpChunkIdx s).outq = s.outq := rfl
@[simp] theorem bumpChunkIdx_freqV (s : State) : (bumpChunkIdx s).freqV = s.freqV := rfl
@[simp] theorem bumpChunkIdx_trieV (s : State) : (bumpChunkIdx s).trieV = s.trieV := rfl
@[simp] theorem bumpChunkIdx_codeV (s : State) : (bumpChunkIdx s).codeV = s.codeV := rfl
@[simp] theorem bumpChunkIdx_payV (s : State) : (bumpChunkIdx s).payV = s.payV := rfl
@[simp] theorem bumpChunkIdx_eoc (s : State) : (bumpChunkIdx s).eoc = s.eoc := rfl
@[simp] theorem bumpChunkIdx_err (s : State) : (bumpChunkIdx s).err = s.err := rfl
@[simp] theorem bumpChunkIdx_errinfo (s : State) : (bumpChunkIdx s).errinfo = s.errinfo := rfl
@[simp] theorem bumpChunkIdx_chunkIdx (s : State) : (bumpChunkIdx s).chunkIdx = s.chunkIdx + 1#32 := rfl
@[simp] theorem bumpChunkIdx_recIdx (s : State) : (bumpChunkIdx s).recIdx = s.recIdx := rfl
@[simp] theorem bumpChunkIdx_recLen (s : State) : (bumpChunkIdx s).recLen = s.recLen := rfl
@[simp] theorem bumpChunkIdx_total (s : State) : (bumpChunkIdx s).total = s.total := rfl
@[simp] theorem bumpChunkIdx_proc (s : State) : (bumpChunkIdx s).proc = s.proc := rfl
@[simp] theorem bumpChunkIdx_qsym (s : State) : (bumpChunkIdx s).qsym = s.qsym := rfl
@[simp] theorem bumpChunkIdx_pending (s : State) : (bumpChunkIdx s).pending = s.pending := rfl
@[simp] theorem bumpChunkIdx_reads (s : State) : (bumpChunkIdx s).reads = s.reads := rfl

/-! ## the rule of `FREQ` (41_frequency_analyzer.md R90) -/

@[simp] theorem countChunk_params (s : State) : (countChunk s).params = s.params := rfl
@[simp] theorem countChunk_symbuf (s : State) : (countChunk s).symbuf = s.symbuf := rfl
@[simp] theorem countChunk_trie (s : State) : (countChunk s).trie = s.trie := rfl
@[simp] theorem countChunk_freq (s : State) : (countChunk s).freq = countSymbols s.symbuf := rfl
@[simp] theorem countChunk_code (s : State) : (countChunk s).code = s.code := rfl
@[simp] theorem countChunk_paybuf (s : State) : (countChunk s).paybuf = s.paybuf := rfl
@[simp] theorem countChunk_bitcnt (s : State) : (countChunk s).bitcnt = s.bitcnt := rfl
@[simp] theorem countChunk_inq (s : State) : (countChunk s).inq = s.inq := rfl
@[simp] theorem countChunk_outq (s : State) : (countChunk s).outq = s.outq := rfl
@[simp] theorem countChunk_freqV (s : State) : (countChunk s).freqV = true := rfl
@[simp] theorem countChunk_trieV (s : State) : (countChunk s).trieV = s.trieV := rfl
@[simp] theorem countChunk_codeV (s : State) : (countChunk s).codeV = s.codeV := rfl
@[simp] theorem countChunk_payV (s : State) : (countChunk s).payV = s.payV := rfl
@[simp] theorem countChunk_eoc (s : State) : (countChunk s).eoc = s.eoc := rfl
@[simp] theorem countChunk_err (s : State) : (countChunk s).err = s.err := rfl
@[simp] theorem countChunk_errinfo (s : State) : (countChunk s).errinfo = s.errinfo := rfl
@[simp] theorem countChunk_chunkIdx (s : State) : (countChunk s).chunkIdx = s.chunkIdx := rfl
@[simp] theorem countChunk_recIdx (s : State) : (countChunk s).recIdx = s.recIdx := rfl
@[simp] theorem countChunk_recLen (s : State) : (countChunk s).recLen = s.recLen := rfl
@[simp] theorem countChunk_total (s : State) : (countChunk s).total = s.total := rfl
@[simp] theorem countChunk_proc (s : State) : (countChunk s).proc = s.proc := rfl
@[simp] theorem countChunk_qsym (s : State) : (countChunk s).qsym = s.qsym := rfl
@[simp] theorem countChunk_pending (s : State) : (countChunk s).pending = s.pending := rfl
@[simp] theorem countChunk_reads (s : State) : (countChunk s).reads = s.reads := rfl

/-! ## a value read by the host (log 2) -/

@[simp] theorem recordRead_params (v : Word) (s : State) : (recordRead v s).params = s.params := rfl
@[simp] theorem recordRead_symbuf (v : Word) (s : State) : (recordRead v s).symbuf = s.symbuf := rfl
@[simp] theorem recordRead_trie (v : Word) (s : State) : (recordRead v s).trie = s.trie := rfl
@[simp] theorem recordRead_freq (v : Word) (s : State) : (recordRead v s).freq = s.freq := rfl
@[simp] theorem recordRead_code (v : Word) (s : State) : (recordRead v s).code = s.code := rfl
@[simp] theorem recordRead_paybuf (v : Word) (s : State) : (recordRead v s).paybuf = s.paybuf := rfl
@[simp] theorem recordRead_bitcnt (v : Word) (s : State) : (recordRead v s).bitcnt = s.bitcnt := rfl
@[simp] theorem recordRead_inq (v : Word) (s : State) : (recordRead v s).inq = s.inq := rfl
@[simp] theorem recordRead_outq (v : Word) (s : State) : (recordRead v s).outq = s.outq := rfl
@[simp] theorem recordRead_freqV (v : Word) (s : State) : (recordRead v s).freqV = s.freqV := rfl
@[simp] theorem recordRead_trieV (v : Word) (s : State) : (recordRead v s).trieV = s.trieV := rfl
@[simp] theorem recordRead_codeV (v : Word) (s : State) : (recordRead v s).codeV = s.codeV := rfl
@[simp] theorem recordRead_payV (v : Word) (s : State) : (recordRead v s).payV = s.payV := rfl
@[simp] theorem recordRead_eoc (v : Word) (s : State) : (recordRead v s).eoc = s.eoc := rfl
@[simp] theorem recordRead_err (v : Word) (s : State) : (recordRead v s).err = s.err := rfl
@[simp] theorem recordRead_errinfo (v : Word) (s : State) : (recordRead v s).errinfo = s.errinfo := rfl
@[simp] theorem recordRead_chunkIdx (v : Word) (s : State) : (recordRead v s).chunkIdx = s.chunkIdx := rfl
@[simp] theorem recordRead_recIdx (v : Word) (s : State) : (recordRead v s).recIdx = s.recIdx := rfl
@[simp] theorem recordRead_recLen (v : Word) (s : State) : (recordRead v s).recLen = s.recLen := rfl
@[simp] theorem recordRead_total (v : Word) (s : State) : (recordRead v s).total = s.total := rfl
@[simp] theorem recordRead_proc (v : Word) (s : State) : (recordRead v s).proc = s.proc := rfl
@[simp] theorem recordRead_qsym (v : Word) (s : State) : (recordRead v s).qsym = s.qsym := rfl
@[simp] theorem recordRead_pending (v : Word) (s : State) : (recordRead v s).pending = s.pending := rfl
@[simp] theorem recordRead_reads (v : Word) (s : State) : (recordRead v s).reads = s.reads ++ [v] := rfl

end Sys2Proof.Machine
end

