-- ==== Sys2Proof/Laws/Ops.lean ====
section
/-! SUPPORT. What the shared operations can do, said once: tables, queues, the frame of a command. -/

namespace Sys2Proof.Machine

/-! ## Tables by symbol -/

@[simp] theorem tableGet_nil {α : Type} (k : Sym) : tableGet k ([] : List (Sym × α)) = none := rfl

theorem tableGet_cons {α : Type} (k k' : Sym) (v : α) (t : List (Sym × α)) :
    tableGet k ((k', v) :: t) = if k' = k then some v else tableGet k t := rfl

/-- A symbol below every symbol of a table has no entry in it. -/
theorem tableGet_none_of_lt {α : Type} (k : Sym) (t : List (Sym × α)) (h : ∀ e ∈ t, k.toNat < e.1.toNat) :
    tableGet k t = none := by
  induction t with
  | nil => rfl
  | cons e t ih =>
    obtain ⟨k', v⟩ := e
    have hk : k.toNat < k'.toNat := h (k', v) (by simp)
    have hne : k' ≠ k := by rintro rfl; omega
    rw [tableGet_cons, if_neg hne, ih fun e he => h e (by simp [he])]

theorem keysRise_cons {α : Type} (k : Sym) (v : α) (t : List (Sym × α)) :
    keysRise ((k, v) :: t) = true ↔ (∀ e ∈ t, k.toNat < e.1.toNat) ∧ keysRise t = true := by
  simp [keysRise]

/-- Read after write. -/
theorem tableGet_tableSet {α : Type} (k x : Sym) (v : α) (t : List (Sym × α)) (h : keysRise t = true) :
    tableGet x (tableSet k v t) = if x = k then some v else tableGet x t := by
  induction t with
  | nil =>
    by_cases hx : x = k
    · simp [tableSet, tableGet_cons, hx]
    · simp [tableSet, tableGet_cons, hx, Ne.symm hx]
  | cons e t ih =>
    obtain ⟨k', v'⟩ := e
    obtain ⟨hlt, ht⟩ := (keysRise_cons k' v' t).1 h
    unfold tableSet
    split
    · by_cases hx : x = k
      · simp [tableGet_cons, hx]
      · simp [tableGet_cons, hx, Ne.symm hx]
    · split
      · rename_i hk; subst hk
        by_cases hx : x = k
        · simp [tableGet_cons, hx]
        · simp [tableGet_cons, hx, Ne.symm hx]
      · rename_i hnlt hne
        rw [tableGet_cons, tableGet_cons, ih ht]
        by_cases hx : k' = x
        · subst hx; simp [Ne.symm hne]
        · simp [hx]

/-- Every entry of the new table is the one written or one of the old table. -/
theorem mem_tableSet {α : Type} (k : Sym) (v : α) (t : List (Sym × α)) (e : Sym × α) (h : e ∈ tableSet k v t) :
    e = (k, v) ∨ e ∈ t := by
  induction t with
  | nil => simpa [tableSet] using h
  | cons e' t ih =>
    obtain ⟨k', v'⟩ := e'
    unfold tableSet at h
    split at h
    · simpa using h
    · split at h
      · rcases List.mem_cons.1 h with h | h
        · exact .inl h
        · exact .inr (by simp [h])
      · rcases List.mem_cons.1 h with h | h
        · exact .inr (by simp [h])
        · rcases ih h with h | h
          · exact .inl h
          · exact .inr (by simp [h])

/-- A write keeps the symbols rising. -/
theorem keysRise_tableSet {α : Type} (k : Sym) (v : α) (t : List (Sym × α)) (h : keysRise t = true) :
    keysRise (tableSet k v t) = true := by
  induction t with
  | nil => rfl
  | cons e t ih =>
    obtain ⟨k', v'⟩ := e
    obtain ⟨hlt, ht⟩ := (keysRise_cons k' v' t).1 h
    unfold tableSet
    split
    · rename_i hk
      refine (keysRise_cons k v _).2 ⟨?_, h⟩
      intro e he
      rcases List.mem_cons.1 he with rfl | he
      · exact hk
      · exact Nat.lt_trans hk (hlt e he)
    · split
      · rename_i hk; subst hk
        exact (keysRise_cons k v t).2 ⟨hlt, ht⟩
      · rename_i hnlt hne
        refine (keysRise_cons k' v' _).2 ⟨?_, ih ht⟩
        intro e he
        rcases mem_tableSet k v t e he with rfl | he
        · have : k.toNat ≠ k'.toNat := fun hc => hne (BitVec.eq_of_toNat_eq hc)
          show k'.toNat < k.toNat
          omega
        · exact hlt e he

/-- In a canonical table an entry is found under its symbol. -/
theorem tableGet_of_mem {α : Type} (t : List (Sym × α)) (h : keysRise t = true) (e : Sym × α) (he : e ∈ t) :
    tableGet e.1 t = some e.2 := by
  induction t with
  | nil => simp at he
  | cons e' t ih =>
    obtain ⟨k', v'⟩ := e'
    obtain ⟨hlt, ht⟩ := (keysRise_cons k' v' t).1 h
    rcases List.mem_cons.1 he with rfl | he
    · simp [tableGet_cons]
    · have := hlt e he
      have hne : k' ≠ e.1 := by rintro rfl; omega
      rw [tableGet_cons, if_neg hne, ih ht he]

/-- What a table answers is one of its entries. -/
theorem mem_of_tableGet {α : Type} (t : List (Sym × α)) (k : Sym) (v : α) (h : tableGet k t = some v) :
    (k, v) ∈ t := by
  induction t with
  | nil => simp at h
  | cons e t ih =>
    obtain ⟨k', v'⟩ := e
    rw [tableGet_cons] at h
    split at h
    · rename_i hk; subst hk; simp_all
    · exact List.mem_cons_of_mem _ (ih h)

/-- `FREQ` and `CODE` are in canonical form: the two tables, said apart. -/
theorem memory_wf_iff (s : State) :
    Memory.wf s = true ↔
      (keysRise s.freq = true ∧ ∀ e ∈ s.freq, 1 ≤ e.2) ∧ keysRise s.code = true ∧ ∀ e ∈ s.code, e.2 ≠ [] := by
  simp [Memory.wf]

/-! ## Queue primitives -/

/-- `InTake(n)` takes the first `n` bytes or is short (20_memory.md R54). -/
theorem inTake_eq_some (n : Nat) (q b rest : List Byte) :
    inTake n q = some (b, rest) ↔ q = b ++ rest ∧ b.length = n := by
  unfold inTake
  split
  · constructor
    · intro h
      obtain ⟨rfl, rfl⟩ : q.take n = b ∧ q.drop n = rest := by simpa using h
      exact ⟨(List.take_append_drop n q).symm, by simp; omega⟩
    · rintro ⟨rfl, rfl⟩; simp
  · constructor
    · intro h; simp at h
    · rintro ⟨rfl, rfl⟩; simp at *

theorem inTake_eq_none (n : Nat) (q : List Byte) : inTake n q = none ↔ q.length < n := by
  unfold inTake; split <;> simp <;> omega

@[simp] theorem inTake_append (b rest : List Byte) : inTake b.length (b ++ rest) = some (b, rest) :=
  (inTake_eq_some _ _ _ _).2 ⟨rfl, rfl⟩

/-- `OutPut` completes only by appending all bytes into free room (20_memory.md R55). -/
theorem outPut_eq_ok (b : List Byte) (s t : State) :
    outPut b s = .ok t ↔ s.outq.length + b.length ≤ s.params.outqMax ∧ t = { s with outq := s.outq ++ b } := by
  unfold outPut
  split
  · rename_i h; simp [h, eq_comm]
  · rename_i h; simp [h]

/-- `OutPut` fails only by `CapacityError`, for want of room. -/
theorem outPut_eq_error (b : List Byte) (s : State) (e : ErrKind) :
    outPut b s = .error e ↔ s.params.outqMax < s.outq.length + b.length ∧ e = .capacity := by
  unfold outPut
  split
  · rename_i h; simp; omega
  · rename_i h; simp [eq_comm]; omega

/-! ## The frame of a command -/

/-- In the faulted state a command does nothing (60_exceptions.md R172). -/
theorem runCommand_faulted (i : Instr) (s base : State) (r : Except ErrKind State) (h : s.err ≠ none) :
    runCommand i s base r = .next s := by
  unfold runCommand
  cases he : s.err with
  | none => exact absurd he h
  | some e => rfl

@[simp] theorem runCommand_ok (i : Instr) (s base t : State) (h : s.err = none) :
    runCommand i s base (.ok t) = .next t := by simp [runCommand, h]

@[simp] theorem runCommand_error (i : Instr) (s base : State) (e : ErrKind) (h : s.err = none) :
    runCommand i s base (.error e) = .next (faultEntry e (encode i) base) := by simp [runCommand, h]

/-- Everything the frame of a command can do: nothing, the command's own result, or fault entry. -/
theorem runCommand_cases {i : Instr} {s base t : State} {r : Except ErrKind State}
    (h : runCommand i s base r = .next t) :
    (s.err ≠ none ∧ t = s) ∨ (s.err = none ∧ r = .ok t) ∨
    (s.err = none ∧ ∃ e, r = .error e ∧ t = faultEntry e (encode i) base) := by
  unfold runCommand at h
  cases he : s.err with
  | some e => simp_all
  | none =>
    cases r with
    | ok u => simp_all
    | error e => simp_all [eq_comm]

/-- A command always answers a next state. -/
theorem runCommand_next (i : Instr) (s base : State) (r : Except ErrKind State) :
    ∃ t, runCommand i s base r = .next t := by
  cases he : s.err with
  | some e => exact ⟨s, runCommand_faulted i s base r (by simp [he])⟩
  | none =>
    cases r with
    | ok u => exact ⟨u, runCommand_ok i s base u he⟩
    | error e => exact ⟨_, runCommand_error i s base e he⟩

end Sys2Proof.Machine
end

