-- ==== Sys2Proof/Laws/Commands.lean ====
section
/-! SUPPORT. When the rule of each command completes and what it then leaves: one lemma per rule, so that no proof unfolds a
rule again; and the shape all commands but `SRESET` share. -/

namespace Sys2Proof.Machine

/-! ## The shape of a command -/

/-- The rule of each command, apart from the frame it runs in (`SRESET` has no rule of this shape: it runs in every
state). -/
def commandRule : Instr → State → Except ErrKind State
  | .nop, s => .ok s
  | .sreset, s => .ok (resetAll s)
  | .clrchunk, s => .ok (clearChunk s)
  | .clrin, s => .ok { s with inq := [], eoc := false }
  | .pushs x, s => pushSymbol x s
  | .pushb b, s => pushByte b s
  | .freq, s => .ok (countChunk s)
  | .build, s => buildTrie s
  | .codes, s => makeCodes s
  | .pack, s => packChunk s
  | .unpack, s => unpackPayload s
  | .sertrie, s => writeTrie s
  | .desertrie, s => readTrie s
  | .wrhead, s => writeHead s
  | .wrpay, s => writePay s
  | .emitrec, s => emitRecord s
  | .encode, s => encodeChunk s
  | .rdhead, s => atRecordStart readHead s
  | .rdpay, s => readPay s
  | .decode, s => atRecordStart decodeRecord s
  | .wrhdr, s => writeHeader s
  | .rdhdr, s => readHeader s

/-- The state a fault of each command is entered from (60_exceptions.md R171). -/
def commandBase : Instr → State → State
  | .rdhead, s => clearEoc s
  | .decode, s => clearEoc s
  | .nop, s | .sreset, s | .clrchunk, s | .clrin, s | .pushs _, s | .pushb _, s | .freq, s | .build, s | .codes, s
  | .pack, s | .unpack, s | .sertrie, s | .desertrie, s | .wrhead, s | .wrpay, s | .emitrec, s | .encode, s
  | .rdpay, s | .wrhdr, s | .rdhdr, s => s

/-- Every command but `SRESET` is its rule run in the frame. -/
theorem exec_eq_runCommand (i : Instr) (s : State) (h : i ≠ .sreset) :
    exec i s = runCommand i s (commandBase i s) (commandRule i s) := by
  cases i <;> first | rfl | exact absurd rfl h

/-- A command always answers a next state. -/
theorem exec_next (i : Instr) (s : State) : ∃ t, exec i s = .next t := by
  by_cases h : i = .sreset
  · subst h; exact ⟨_, rfl⟩
  · rw [exec_eq_runCommand i s h]; exact runCommand_next _ _ _ _

/-- In the faulted state every command but `SRESET` changes nothing (60_exceptions.md R172). -/
theorem exec_faulted (i : Instr) (s : State) (h : i ≠ .sreset) (he : s.err ≠ none) : exec i s = .next s := by
  rw [exec_eq_runCommand i s h, runCommand_faulted _ _ _ _ he]

/-- Everything a command can do: reset, nothing in the faulted state, its rule's result, or fault entry. -/
theorem exec_cases {i : Instr} {s t : State} (h : exec i s = .next t) :
    (i = .sreset ∧ t = resetAll s) ∨
    (i ≠ .sreset ∧ s.err ≠ none ∧ t = s) ∨
    (i ≠ .sreset ∧ s.err = none ∧ commandRule i s = .ok t) ∨
    (i ≠ .sreset ∧ s.err = none ∧ ∃ e, commandRule i s = .error e ∧ t = faultEntry e (encode i) (commandBase i s)) := by
  by_cases hi : i = .sreset
  · subst hi
    have ht : resetAll s = t := by simpa [exec, execSreset] using h
    exact .inl ⟨rfl, ht.symm⟩
  · rw [exec_eq_runCommand i s hi] at h
    rcases runCommand_cases h with ⟨h1, h2⟩ | ⟨h1, h2⟩ | ⟨h1, h2⟩
    · exact .inr (.inl ⟨hi, h1, h2⟩)
    · exact .inr (.inr (.inl ⟨hi, h1, h2⟩))
    · exact .inr (.inr (.inr ⟨hi, h1, h2⟩))

/-! ## Composition of rules -/

theorem ok_iff {α : Type} (a b : α) : (Except.ok a : Except ErrKind α) = .ok b ↔ b = a := by
  rw [Except.ok.injEq, eq_comm]

theorem except_bind_ok {α β : Type} (r : Except ErrKind α) (f : α → Except ErrKind β) (b : β) :
    r.bind f = .ok b ↔ ∃ a, r = .ok a ∧ f a = .ok b := by
  cases r <;> simp [Except.bind]

theorem except_map_ok {α β : Type} (r : Except ErrKind α) (f : α → β) (b : β) :
    r.map f = .ok b ↔ ∃ a, r = .ok a ∧ b = f a := by
  cases r <;> simp [Except.map, ok_iff, -Except.ok.injEq]

theorem except_bind_error {α β : Type} (r : Except ErrKind α) (f : α → Except ErrKind β) (e : ErrKind) :
    r.bind f = .error e ↔ r = .error e ∨ ∃ a, r = .ok a ∧ f a = .error e := by
  cases r <;> simp [Except.bind]

theorem except_map_error {α β : Type} (r : Except ErrKind α) (f : α → β) (e : ErrKind) :
    r.map f = .error e ↔ r = .error e := by
  cases r <;> simp [Except.map]

/-! ## One lemma per rule -/

theorem pushSymbol_ok (x : Sym) (s t : State) :
    pushSymbol x s = .ok t ↔ s.symbuf.length ≠ s.params.chunkMax ∧ t = { s with symbuf := s.symbuf ++ [x] } := by
  unfold pushSymbol; split <;> simp_all [ok_iff, -Except.ok.injEq]

theorem pushByte_ok (b : Byte) (s t : State) :
    pushByte b s = .ok t ↔ s.inq.length ≠ s.params.inqMax ∧ t = { s with inq := s.inq ++ [b] } := by
  unfold pushByte; split <;> simp_all [ok_iff, -Except.ok.injEq]

theorem buildTrie_ok (s t : State) :
    buildTrie s = .ok t ↔
      s.freqV = true ∧ ∃ tr, buildTree s.freq = some tr ∧ t = { s with trie := some tr, trieV := true } := by
  unfold buildTrie
  split
  · simp_all
  · split <;> simp_all [ok_iff, -Except.ok.injEq]

theorem validTrie_eq_some (s : State) (tr : Tree) : validTrie s = some tr ↔ s.trieV = true ∧ s.trie = some tr := by
  unfold validTrie; split <;> simp_all

theorem makeCodes_ok (s t : State) :
    makeCodes s = .ok t ↔ ∃ tr, validTrie s = some tr ∧ t = { s with code := codesOf tr, codeV := true } := by
  unfold makeCodes; split <;> simp_all [ok_iff, -Except.ok.injEq]

theorem packChunk_ok (s t : State) :
    packChunk s = .ok t ↔
      s.codeV = true ∧ ∃ bits, chunkBits s.code s.symbuf = some bits ∧ ceilDiv bits.length 8 ≤ s.params.payMax ∧
        t = { s with
          paybuf := packBits bits
          bitcnt := BitVec.ofNat 64 bits.length
          recLen := countWord s.symbuf.length
          payV := true } := by
  unfold packChunk
  split
  · simp_all
  · split
    · simp_all
    · split <;> simp_all [ok_iff, -Except.ok.injEq]

theorem unpackPayload_ok (s t : State) :
    unpackPayload s = .ok t ↔
      ∃ tr, validTrie s = some tr ∧ s.payV = true ∧ s.recLen.toNat ≤ s.params.chunkMax ∧
        ∃ out pos, unpackBits s.paybuf tr s.recLen.toNat = some (out, pos) ∧
          t = { s with
            symbuf := out
            bitcnt := BitVec.ofNat 64 pos
            proc := s.proc + s.recLen.setWidth 64 } := by
  unfold unpackPayload
  split
  · simp_all
  · rename_i tr htr
    split
    · simp_all
    · split
      · simp_all
      · split
        · simp_all
        · rename_i h1 h2 _ out pos h3
          constructor
          · intro h
            exact ⟨tr, htr, by simpa using h1, by simpa using h2, out, pos, h3, (ok_iff _ _).1 h⟩
          · rintro ⟨tr', htr', -, -, out', pos', h3', rfl⟩
            obtain rfl : tr = tr' := by simpa [htr] using htr'
            obtain ⟨rfl, rfl⟩ : out = out' ∧ pos = pos' := by simpa [h3] using h3'
            rfl

theorem writeTrie_ok (s t : State) :
    writeTrie s = .ok t ↔ ∃ tr, validTrie s = some tr ∧ outPut (serialize tr) s = .ok t := by
  unfold writeTrie; split <;> simp_all

theorem readTrie_ok (s t : State) :
    readTrie s = .ok t ↔
      ∃ tr cnt rest, parseTree s.params.nodeMax s.inq = .tree tr cnt rest ∧
        t = { s with inq := rest, trie := some tr, trieV := true } := by
  unfold readTrie; split <;> simp_all [ok_iff, -Except.ok.injEq]

theorem writeHead_ok (s t : State) :
    writeHead s = .ok t ↔
      s.recLen ≠ 0#32 ∧ s.outq.length + (headBytes s).length ≤ s.params.outqMax ∧
        t = { s with outq := s.outq ++ headBytes s, chunkIdx := s.chunkIdx + 1#32 } := by
  unfold writeHead
  split
  · simp_all
  · simp_all [except_map_ok, outPut_eq_ok, bumpChunkIdx]

theorem writePay_ok (s t : State) :
    writePay s = .ok t ↔ s.payV = true ∧ outPut (payBytes s) s = .ok t := by
  unfold writePay; split <;> simp_all

theorem emitRecord_ok (s t : State) :
    emitRecord s = .ok t ↔
      ∃ tr, validTrie s = some tr ∧ s.payV = true ∧ s.recLen ≠ 0#32 ∧
        s.outq.length + (recordBytes tr s).length ≤ s.params.outqMax ∧
        t = { s with outq := s.outq ++ recordBytes tr s, chunkIdx := s.chunkIdx + 1#32 } := by
  unfold emitRecord
  split
  · simp_all
  · split
    · simp_all; grind
    · simp_all [except_map_ok, outPut_eq_ok, bumpChunkIdx]

theorem encodeChunk_ok (s t : State) :
    encodeChunk s = .ok t ↔
      (s.symbuf = [] ∧ t = clearChunk s) ∨
      (s.symbuf ≠ [] ∧ ∃ s₁ s₂ s₃ s₄, buildTrie (countChunk s) = .ok s₁ ∧ makeCodes s₁ = .ok s₂ ∧
        packChunk s₂ = .ok s₃ ∧ emitRecord s₃ = .ok s₄ ∧ t = clearChunk s₄) := by
  unfold encodeChunk
  split
  · simp_all [ok_iff, -Except.ok.injEq]
  · simp_all [except_map_ok, except_bind_ok]; grind

theorem encodeChunk_error (s : State) (e : ErrKind) :
    encodeChunk s = .error e ↔
      s.symbuf ≠ [] ∧ (buildTrie (countChunk s) = .error e ∨ ∃ s₁, buildTrie (countChunk s) = .ok s₁ ∧
        (makeCodes s₁ = .error e ∨ ∃ s₂, makeCodes s₁ = .ok s₂ ∧
          (packChunk s₂ = .error e ∨ ∃ s₃, packChunk s₂ = .ok s₃ ∧ emitRecord s₃ = .error e))) := by
  unfold encodeChunk
  split
  · simp_all
  · simp_all [except_map_error, except_bind_ok, except_bind_error]; grind

theorem atRecordStart_ok (body : State → Except ErrKind State) (s t : State) :
    atRecordStart body s = .ok t ↔
      (s.inq = [] ∧ t = { s with eoc := true }) ∨ (s.inq ≠ [] ∧ body (clearEoc s) = .ok t) := by
  unfold atRecordStart; split <;> simp_all [ok_iff, -Except.ok.injEq]

theorem atRecordStart_error (body : State → Except ErrKind State) (s : State) (e : ErrKind) :
    atRecordStart body s = .error e ↔ s.inq ≠ [] ∧ body (clearEoc s) = .error e := by
  unfold atRecordStart; split <;> simp_all

theorem readHead_ok (s t : State) :
    readHead s = .ok t ↔
      ∃ h rest, inTake 8 s.inq = some (h, rest) ∧
        t = { s with
          inq := rest
          recIdx := BitVec.ofNat 32 (fromBE (h.take 4))
          recLen := BitVec.ofNat 32 (fromBE (h.drop 4)) } := by
  unfold readHead; split <;> simp_all [ok_iff, -Except.ok.injEq]

theorem readPay_ok (s t : State) :
    readPay s = .ok t ↔
      ∃ h rest d rest', inTake 4 s.inq = some (h, rest) ∧ fromBE h ≤ s.params.payMax ∧
        inTake (fromBE h) rest = some (d, rest') ∧
        t = { s with inq := rest', paybuf := d, bitcnt := 0#64, payV := true } := by
  unfold readPay
  split
  · simp_all
  · split
    · simp_all
    · split <;> simp_all [ok_iff, -Except.ok.injEq]

theorem decodeRecord_ok (s t : State) :
    decodeRecord s = .ok t ↔
      ∃ s₁ s₂ s₃ s₄, readHead s = .ok s₁ ∧ readTrie s₁ = .ok s₂ ∧ readPay s₂ = .ok s₃ ∧
        unpackPayload s₃ = .ok s₄ ∧ t = clearWork s₄ := by
  unfold decodeRecord
  simp only [except_map_ok, except_bind_ok]; grind

theorem decodeRecord_error (s : State) (e : ErrKind) :
    decodeRecord s = .error e ↔
      readHead s = .error e ∨ ∃ s₁, readHead s = .ok s₁ ∧
        (readTrie s₁ = .error e ∨ ∃ s₂, readTrie s₁ = .ok s₂ ∧
          (readPay s₂ = .error e ∨ ∃ s₃, readPay s₂ = .ok s₃ ∧ unpackPayload s₃ = .error e)) := by
  unfold decodeRecord
  simp only [except_map_error, except_bind_ok, except_bind_error]; grind

theorem writeHeader_ok (s t : State) :
    writeHeader s = .ok t ↔
      s.outq.length + (be64 s.total).length ≤ s.params.outqMax ∧
        t = { s with outq := s.outq ++ be64 s.total, chunkIdx := 0#32 } := by
  unfold writeHeader; simp_all [except_map_ok, outPut_eq_ok]

theorem readHeader_ok (s t : State) :
    readHeader s = .ok t ↔
      ∃ h rest, inTake 8 s.inq = some (h, rest) ∧
        t = { s with inq := rest, total := BitVec.ofNat 64 (fromBE h), proc := 0#64, eoc := false } := by
  unfold readHeader; split <;> simp_all [ok_iff, -Except.ok.injEq]

/-! ## When a rule fails, and how -/

theorem error_iff {α : Type} (d e : ErrKind) : (Except.error d : Except ErrKind α) = .error e ↔ e = d := by
  rw [Except.error.injEq, eq_comm]

theorem pushSymbol_error (x : Sym) (s : State) (e : ErrKind) :
    pushSymbol x s = .error e ↔ s.symbuf.length = s.params.chunkMax ∧ e = .capacity := by
  unfold pushSymbol; split <;> simp_all [error_iff, -Except.error.injEq]

theorem pushByte_error (b : Byte) (s : State) (e : ErrKind) :
    pushByte b s = .error e ↔ s.inq.length = s.params.inqMax ∧ e = .capacity := by
  unfold pushByte; split <;> simp_all [error_iff, -Except.error.injEq]

theorem buildTrie_error (s : State) (e : ErrKind) :
    buildTrie s = .error e ↔
      (s.freqV = false ∧ e = .sequence) ∨ (s.freqV = true ∧ buildTree s.freq = none ∧ e = .emptyInput) := by
  unfold buildTrie
  split
  · simp_all [error_iff, -Except.error.injEq]
  · split <;> simp_all [error_iff, -Except.error.injEq]

theorem makeCodes_error (s : State) (e : ErrKind) :
    makeCodes s = .error e ↔ validTrie s = none ∧ e = .sequence := by
  unfold makeCodes; split <;> simp_all [error_iff, -Except.error.injEq]

theorem packChunk_error (s : State) (e : ErrKind) :
    packChunk s = .error e ↔
      (s.codeV = false ∧ e = .sequence) ∨
      (s.codeV = true ∧ chunkBits s.code s.symbuf = none ∧ e = .noCode) ∨
      (s.codeV = true ∧ ∃ bits, chunkBits s.code s.symbuf = some bits ∧ s.params.payMax < ceilDiv bits.length 8 ∧
        e = .capacity) := by
  unfold packChunk
  split
  · simp_all [error_iff, -Except.error.injEq]
  · split
    · simp_all [error_iff, -Except.error.injEq]
    · split <;> simp_all [error_iff, -Except.error.injEq]

theorem unpackPayload_error (s : State) (e : ErrKind) :
    unpackPayload s = .error e ↔
      ((validTrie s = none ∨ s.payV = false) ∧ e = .sequence) ∨
      ∃ tr, validTrie s = some tr ∧ s.payV = true ∧
        ((s.params.chunkMax < s.recLen.toNat ∧ e = .capacity) ∨
         (s.recLen.toNat ≤ s.params.chunkMax ∧ unpackBits s.paybuf tr s.recLen.toNat = none ∧
           e = .inconsistentLength)) := by
  unfold unpackPayload
  split
  · simp_all [error_iff, -Except.error.injEq]
  · split
    · simp_all [error_iff, -Except.error.injEq]
    · split
      · simp_all [error_iff, -Except.error.injEq]
      · split <;> simp_all [error_iff, -Except.error.injEq]

theorem writeTrie_error (s : State) (e : ErrKind) :
    writeTrie s = .error e ↔
      (validTrie s = none ∧ e = .sequence) ∨ ∃ tr, validTrie s = some tr ∧ outPut (serialize tr) s = .error e := by
  unfold writeTrie; split <;> simp_all [error_iff, -Except.error.injEq]

theorem readTrie_error (s : State) (e : ErrKind) :
    readTrie s = .error e ↔
      (parseTree s.params.nodeMax s.inq = .malformed ∧ e = .malformedTrie) ∨
      (parseTree s.params.nodeMax s.inq = .tooBig ∧ e = .capacity) := by
  unfold readTrie; split <;> simp_all [error_iff, -Except.error.injEq]

theorem writeHead_error (s : State) (e : ErrKind) :
    writeHead s = .error e ↔
      (s.recLen = 0#32 ∧ e = .sequence) ∨
      (s.recLen ≠ 0#32 ∧ s.params.outqMax < s.outq.length + (headBytes s).length ∧ e = .capacity) := by
  unfold writeHead; split <;> simp_all [error_iff, except_map_error, outPut_eq_error, -Except.error.injEq]

theorem writePay_error (s : State) (e : ErrKind) :
    writePay s = .error e ↔
      (s.payV = false ∧ e = .sequence) ∨ (s.payV = true ∧ outPut (payBytes s) s = .error e) := by
  unfold writePay; split <;> simp_all [error_iff, -Except.error.injEq]

theorem emitRecord_error (s : State) (e : ErrKind) :
    emitRecord s = .error e ↔
      ((validTrie s = none ∨ s.payV = false ∨ s.recLen = 0#32) ∧ e = .sequence) ∨
      ∃ tr, validTrie s = some tr ∧ s.payV = true ∧ s.recLen ≠ 0#32 ∧
        s.params.outqMax < s.outq.length + (recordBytes tr s).length ∧ e = .capacity := by
  unfold emitRecord
  split
  · simp_all [error_iff, -Except.error.injEq]
  · split
    · simp_all [error_iff, -Except.error.injEq]; grind
    · simp_all [except_map_error, outPut_eq_error]

theorem readHead_error (s : State) (e : ErrKind) :
    readHead s = .error e ↔ s.inq.length < 8 ∧ e = .truncatedRecord := by
  unfold readHead
  split
  · rename_i h; rw [inTake_eq_none] at h; simp [h, error_iff, -Except.error.injEq]
  · rename_i h; obtain ⟨hq, hl⟩ := (inTake_eq_some _ _ _ _).1 h; simp [hq, hl]

theorem readPay_error (s : State) (e : ErrKind) :
    readPay s = .error e ↔
      (s.inq.length < 4 ∧ e = .truncatedRecord) ∨
      ∃ h rest, inTake 4 s.inq = some (h, rest) ∧
        ((s.params.payMax < fromBE h ∧ e = .capacity) ∨
         (fromBE h ≤ s.params.payMax ∧ rest.length < fromBE h ∧ e = .truncatedRecord)) := by
  unfold readPay
  split
  · rename_i h; simp [h, (inTake_eq_none _ _).1 h, error_iff, -Except.error.injEq]
  · rename_i h0 rest h
    have h4 : ¬ s.inq.length < 4 := by
      obtain ⟨hq, hl⟩ := (inTake_eq_some _ _ _ _).1 h
      rw [hq, List.length_append, hl]; omega
    split
    · have : ¬ s.inq.length < 4 := h4
      simp_all [error_iff, -Except.error.injEq]; grind
    · split
      · rename_i h'; rw [inTake_eq_none] at h'; simp_all [error_iff, -Except.error.injEq]; grind
      · rename_i h'; obtain ⟨hq, hl⟩ := (inTake_eq_some _ _ _ _).1 h'
        have : ¬ rest.length < fromBE h0 := by rw [hq, List.length_append, hl]; omega
        simp_all

theorem writeHeader_error (s : State) (e : ErrKind) :
    writeHeader s = .error e ↔ s.params.outqMax < s.outq.length + (be64 s.total).length ∧ e = .capacity := by
  unfold writeHeader; simp [except_map_error, outPut_eq_error]

theorem readHeader_error (s : State) (e : ErrKind) :
    readHeader s = .error e ↔ s.inq.length < 8 ∧ e = .truncatedRecord := by
  unfold readHeader
  split
  · rename_i h; rw [inTake_eq_none] at h; simp [h, error_iff, -Except.error.injEq]
  · rename_i h; obtain ⟨hq, hl⟩ := (inTake_eq_some _ _ _ _).1 h; simp [hq, hl]

end Sys2Proof.Machine
end

