-- ==== Sys2Proof/Laws/PerInstr.lean ====
section
/-! SUPPORT. Laws of every command as syntax, one lemma per constructor of `Instr`. -/

namespace Sys2Proof.Laws

/-- Reading the fields of a command's word (30_encoding.md R66): bits 7:0 are its opcode and bits 31:8 its operand
field. -/
theorem fields_of_append (a : BitVec 24) (b : BitVec 8) :
    (a ++ b).extractLsb' 0 8 = b ∧ (a ++ b).extractLsb' 8 24 = a :=
  ⟨BitVec.extractLsb'_append_eq_right, BitVec.extractLsb'_append_eq_left⟩

namespace WordFields

/-- The word of a command holds its opcode and its operand field in their places. -/
def Statement (i : Instr) : Prop :=
  opcodeField (encode i) = opcodeOf i ∧ (encode i).extractLsb' 8 24 = operandField i

theorem nop : Statement .nop := fields_of_append _ _
theorem sreset : Statement .sreset := fields_of_append _ _
theorem clrchunk : Statement .clrchunk := fields_of_append _ _
theorem clrin : Statement .clrin := fields_of_append _ _
theorem pushs (imm16 : Sym) : Statement (.pushs imm16) := fields_of_append _ _
theorem pushb (imm8 : Byte) : Statement (.pushb imm8) := fields_of_append _ _
theorem freq : Statement .freq := fields_of_append _ _
theorem build : Statement .build := fields_of_append _ _
theorem codes : Statement .codes := fields_of_append _ _
theorem pack : Statement .pack := fields_of_append _ _
theorem unpack : Statement .unpack := fields_of_append _ _
theorem sertrie : Statement .sertrie := fields_of_append _ _
theorem desertrie : Statement .desertrie := fields_of_append _ _
theorem wrhead : Statement .wrhead := fields_of_append _ _
theorem wrpay : Statement .wrpay := fields_of_append _ _
theorem emitrec : Statement .emitrec := fields_of_append _ _
theorem encode : Statement .encode := fields_of_append _ _
theorem rdhead : Statement .rdhead := fields_of_append _ _
theorem rdpay : Statement .rdpay := fields_of_append _ _
theorem decode : Statement .decode := fields_of_append _ _
theorem wrhdr : Statement .wrhdr := fields_of_append _ _
theorem rdhdr : Statement .rdhdr := fields_of_append _ _

end WordFields

namespace OperandsFit

/-- Every command is well-formed: its immediate fits its field (30_encoding.md R67). -/
def Statement (i : Instr) : Prop := i.wf = true

theorem nop : Statement .nop := rfl
theorem sreset : Statement .sreset := rfl
theorem clrchunk : Statement .clrchunk := rfl
theorem clrin : Statement .clrin := rfl
theorem pushs (imm16 : Sym) : Statement (.pushs imm16) := decide_eq_true imm16.isLt
theorem pushb (imm8 : Byte) : Statement (.pushb imm8) := decide_eq_true imm8.isLt
theorem freq : Statement .freq := rfl
theorem build : Statement .build := rfl
theorem codes : Statement .codes := rfl
theorem pack : Statement .pack := rfl
theorem unpack : Statement .unpack := rfl
theorem sertrie : Statement .sertrie := rfl
theorem desertrie : Statement .desertrie := rfl
theorem wrhead : Statement .wrhead := rfl
theorem wrpay : Statement .wrpay := rfl
theorem emitrec : Statement .emitrec := rfl
theorem encode : Statement .encode := rfl
theorem rdhead : Statement .rdhead := rfl
theorem rdpay : Statement .rdpay := rfl
theorem decode : Statement .decode := rfl
theorem wrhdr : Statement .wrhdr := rfl
theorem rdhdr : Statement .rdhdr := rfl

end OperandsFit

end Sys2Proof.Laws
end

