-- ==== Sys2Proof/Laws/Tables.lean ====
section
/-! SUPPORT. The canonical form of `FREQ` and `CODE` (`Memory.wf`): every operation that makes or clears a table keeps it,
every command keeps it, and the state after reset has it. -/

namespace Sys2Proof.Machine

/-! ## The table of counts -/

theorem bumpCount_canonical (f : FreqTable) (x : Sym) (h : keysRise f = true ∧ ∀ e ∈ f, 1 ≤ e.2) :
    keysRise (bumpCount f x) = true ∧ ∀ e ∈ bumpCount f x, 1 ≤ e.2 := by
  refine ⟨keysRise_tableSet _ _ _ h.1, fun e he => ?_⟩
  rcases mem_tableSet _ _ _ _ he with rfl | he
  · simp
  · exact h.2 e he

/-- `Count(q)` is in canonical form. -/
theorem countSymbols_canonical (q : List Sym) :
    keysRise (countSymbols q) = true ∧ ∀ e ∈ countSymbols q, 1 ≤ e.2 := by
  have h : ∀ (q : List Sym) (f : FreqTable), (keysRise f = true ∧ ∀ e ∈ f, 1 ≤ e.2) →
      keysRise (q.foldl bumpCount f) = true ∧ ∀ e ∈ q.foldl bumpCount f, 1 ≤ e.2 := by
    intro q
    induction q with
    | nil => intro f hf; exact hf
    | cons x q ih => intro f hf; exact ih _ (bumpCount_canonical f x hf)
  exact h q [] ⟨rfl, by simp⟩

/-! ## The table of codes -/

theorem walkCodes_keysRise (t : Tree) (acc : Bits) (tab : CodeTable) (h : keysRise tab = true) :
    keysRise (walkCodes t acc tab) = true := by
  induction t generalizing acc tab with
  | leaf x => exact keysRise_tableSet _ _ _ h
  | internal l r ihl ihr => exact ihr _ _ (ihl _ _ h)

theorem walkCodes_ne_nil (t : Tree) (acc : Bits) (tab : CodeTable) (h : ∀ e ∈ tab, e.2 ≠ []) (ha : acc ≠ []) :
    ∀ e ∈ walkCodes t acc tab, e.2 ≠ [] := by
  induction t generalizing acc tab with
  | leaf x =>
    intro e he
    rcases mem_tableSet _ _ _ _ he with rfl | he
    · exact ha
    · exact h e he
  | internal l r ihl ihr => exact ihr _ _ (ihl _ _ h (by simp)) (by simp)

/-- `Codes(t)` is in canonical form: no code is the empty string. -/
theorem codesOf_canonical (t : Tree) : keysRise (codesOf t) = true ∧ ∀ e ∈ codesOf t, e.2 ≠ [] := by
  cases t with
  | leaf x => simp [codesOf, keysRise]
  | internal l r =>
    refine ⟨walkCodes_keysRise _ _ _ rfl, ?_⟩
    exact walkCodes_ne_nil r _ _ (walkCodes_ne_nil l _ _ (by simp) (by simp)) (by simp)

/-! ## The state -/

/-- `Memory.wf` looks at the two tables only. -/
theorem memory_wf_congr {s t : State} (hf : t.freq = s.freq) (hc : t.code = s.code) : Memory.wf t = Memory.wf s := by
  simp [Memory.wf, hf, hc]

theorem memory_wf_resetWith (p : Config.Params) : Memory.wf (State.resetWith p) = true := rfl

theorem memory_wf_reset : Memory.wf State.reset = true := rfl

theorem memory_wf_clearWork (s : State) : Memory.wf (clearWork s) = true := rfl

theorem memory_wf_clearChunk (s : State) : Memory.wf (clearChunk s) = true := rfl

theorem memory_wf_resetAll (s : State) : Memory.wf (resetAll s) = true := rfl

theorem memory_wf_faultEntry (e : ErrKind) (w : Word) (s : State) : Memory.wf (faultEntry e w s) = true := rfl

theorem memory_wf_countChunk (s : State) (h : Memory.wf s = true) : Memory.wf (countChunk s) = true :=
  (memory_wf_iff _).2 ⟨countSymbols_canonical s.symbuf, ((memory_wf_iff s).1 h).2⟩

theorem memory_wf_makeCodes {s t : State} (h : Memory.wf s = true) (ht : makeCodes s = .ok t) : Memory.wf t = true := by
  obtain ⟨tr, -, rfl⟩ := (makeCodes_ok s t).1 ht
  exact (memory_wf_iff _).2 ⟨((memory_wf_iff s).1 h).1, codesOf_canonical tr⟩

/-- The rule of every command keeps the canonical form. -/
theorem memory_wf_commandRule {i : Instr} {s t : State} (h : Memory.wf s = true) (ht : commandRule i s = .ok t) :
    Memory.wf t = true := by
  cases i with
  | nop => obtain rfl := (ok_iff _ _).1 ht; exact h
  | sreset => obtain rfl := (ok_iff _ _).1 ht; rfl
  | clrchunk => obtain rfl := (ok_iff _ _).1 ht; rfl
  | clrin => obtain rfl := (ok_iff _ _).1 ht; exact h
  | pushs x => obtain ⟨-, rfl⟩ := (pushSymbol_ok _ _ _).1 ht; exact h
  | pushb b => obtain ⟨-, rfl⟩ := (pushByte_ok _ _ _).1 ht; exact h
  | freq => obtain rfl := (ok_iff _ _).1 ht; exact memory_wf_countChunk s h
  | build => obtain ⟨-, tr, -, rfl⟩ := (buildTrie_ok _ _).1 ht; exact h
  | codes => exact memory_wf_makeCodes h ht
  | pack => obtain ⟨-, bits, -, -, rfl⟩ := (packChunk_ok _ _).1 ht; exact h
  | unpack => obtain ⟨tr, -, -, -, out, pos, -, rfl⟩ := (unpackPayload_ok _ _).1 ht; exact h
  | sertrie => obtain ⟨tr, -, h'⟩ := (writeTrie_ok _ _).1 ht; obtain ⟨-, rfl⟩ := (outPut_eq_ok _ _ _).1 h'; exact h
  | desertrie => obtain ⟨tr, c, r, -, rfl⟩ := (readTrie_ok _ _).1 ht; exact h
  | wrhead => obtain ⟨-, -, rfl⟩ := (writeHead_ok _ _).1 ht; exact h
  | wrpay => obtain ⟨-, h'⟩ := (writePay_ok _ _).1 ht; obtain ⟨-, rfl⟩ := (outPut_eq_ok _ _ _).1 h'; exact h
  | emitrec => obtain ⟨tr, -, -, -, -, rfl⟩ := (emitRecord_ok _ _).1 ht; exact h
  | encode =>
    rcases (encodeChunk_ok _ _).1 ht with ⟨-, rfl⟩ | ⟨-, s₁, s₂, s₃, s₄, -, -, -, -, rfl⟩
    · rfl
    · rfl
  | rdhead =>
    rcases (atRecordStart_ok _ _ _).1 ht with ⟨-, rfl⟩ | ⟨-, h'⟩
    · exact h
    · obtain ⟨hd, r, -, rfl⟩ := (readHead_ok _ _).1 h'; exact h
  | rdpay => obtain ⟨hd, r, d, r', -, -, -, rfl⟩ := (readPay_ok _ _).1 ht; exact h
  | decode =>
    rcases (atRecordStart_ok _ _ _).1 ht with ⟨-, rfl⟩ | ⟨-, h'⟩
    · exact h
    · obtain ⟨s₁, s₂, s₃, s₄, -, -, -, -, rfl⟩ := (decodeRecord_ok _ _).1 h'; rfl
  | wrhdr => obtain ⟨-, rfl⟩ := (writeHeader_ok _ _).1 ht; exact h
  | rdhdr => obtain ⟨hd, r, -, rfl⟩ := (readHeader_ok _ _).1 ht; exact h

/-- Every command keeps the canonical form. -/
theorem memory_wf_exec {i : Instr} {s t : State} (h : Memory.wf s = true) (ht : exec i s = .next t) :
    Memory.wf t = true := by
  rcases exec_cases ht with ⟨-, rfl⟩ | ⟨-, -, rfl⟩ | ⟨-, -, h'⟩ | ⟨-, -, e, -, rfl⟩
  · rfl
  · exact h
  · exact memory_wf_commandRule h h'
  · rfl

end Sys2Proof.Machine
end

