-- ==== Sys2Proof/Laws/Transactions.lean ====
section
/-! SUPPORT. What a rule and a register access leave alone, and which register an access reaches. -/

namespace Sys2Proof.Machine

/-- A rule that completes leaves the parameters and the host's side of the run, and, but for `SRESET`, the fault
registers. -/
theorem commandRule_frame {i : Instr} {s t : State} (ht : commandRule i s = .ok t) :
    t.pending = s.pending ∧ t.params = s.params ∧ t.reads = s.reads ∧
      (i ≠ .sreset → t.err = s.err ∧ t.errinfo = s.errinfo) := by
  cases i with
  | nop => obtain rfl := (ok_iff _ _).1 ht; simp
  | sreset => obtain rfl := (ok_iff _ _).1 ht; simp
  | clrchunk => obtain rfl := (ok_iff _ _).1 ht; simp
  | clrin => obtain rfl := (ok_iff _ _).1 ht; simp
  | pushs x => obtain ⟨-, rfl⟩ := (pushSymbol_ok _ _ _).1 ht; simp
  | pushb b => obtain ⟨-, rfl⟩ := (pushByte_ok _ _ _).1 ht; simp
  | freq => obtain rfl := (ok_iff _ _).1 ht; simp
  | build => obtain ⟨-, tr, -, rfl⟩ := (buildTrie_ok _ _).1 ht; simp
  | codes => obtain ⟨tr, -, rfl⟩ := (makeCodes_ok _ _).1 ht; simp
  | pack => obtain ⟨-, bits, -, -, rfl⟩ := (packChunk_ok _ _).1 ht; simp
  | unpack => obtain ⟨tr, -, -, -, out, pos, -, rfl⟩ := (unpackPayload_ok _ _).1 ht; simp
  | sertrie => obtain ⟨tr, -, h'⟩ := (writeTrie_ok _ _).1 ht; obtain ⟨-, rfl⟩ := (outPut_eq_ok _ _ _).1 h'; simp
  | desertrie => obtain ⟨tr, c, r, -, rfl⟩ := (readTrie_ok _ _).1 ht; simp
  | wrhead => obtain ⟨-, -, rfl⟩ := (writeHead_ok _ _).1 ht; simp
  | wrpay => obtain ⟨-, h'⟩ := (writePay_ok _ _).1 ht; obtain ⟨-, rfl⟩ := (outPut_eq_ok _ _ _).1 h'; simp
  | emitrec => obtain ⟨tr, -, -, -, -, rfl⟩ := (emitRecord_ok _ _).1 ht; simp
  | encode =>
    rcases (encodeChunk_ok _ _).1 ht with ⟨-, rfl⟩ | ⟨-, s₁, s₂, s₃, s₄, h1, h2, h3, h4, rfl⟩
    · simp
    · obtain ⟨-, tr, -, rfl⟩ := (buildTrie_ok _ _).1 h1
      obtain ⟨tr, -, rfl⟩ := (makeCodes_ok _ _).1 h2
      obtain ⟨-, bits, -, -, rfl⟩ := (packChunk_ok _ _).1 h3
      obtain ⟨tr, -, -, -, -, rfl⟩ := (emitRecord_ok _ _).1 h4; simp
  | rdhead =>
    rcases (atRecordStart_ok _ _ _).1 ht with ⟨-, rfl⟩ | ⟨-, h'⟩
    · simp
    · obtain ⟨hd, r, -, rfl⟩ := (readHead_ok _ _).1 h'; simp
  | rdpay => obtain ⟨hd, r, d, r', -, -, -, rfl⟩ := (readPay_ok _ _).1 ht; simp
  | decode =>
    rcases (atRecordStart_ok _ _ _).1 ht with ⟨-, rfl⟩ | ⟨-, h'⟩
    · simp
    · obtain ⟨s₁, s₂, s₃, s₄, h1, h2, h3, h4, rfl⟩ := (decodeRecord_ok _ _).1 h'
      obtain ⟨hd, r, -, rfl⟩ := (readHead_ok _ _).1 h1
      obtain ⟨tr, c, r, -, rfl⟩ := (readTrie_ok _ _).1 h2
      obtain ⟨hd, r, d, r', -, -, -, rfl⟩ := (readPay_ok _ _).1 h3
      obtain ⟨tr, -, -, -, out, pos, -, rfl⟩ := (unpackPayload_ok _ _).1 h4; simp
  | wrhdr => obtain ⟨-, rfl⟩ := (writeHeader_ok _ _).1 ht; simp
  | rdhdr => obtain ⟨hd, r, -, rfl⟩ := (readHeader_ok _ _).1 ht; simp

/-- What a command's fault is entered from differs from the start state in `EOC` only. -/
theorem commandBase_frame (i : Instr) (s : State) : ∃ e, commandBase i s = { s with eoc := e } := by
  cases i <;> exact ⟨_, rfl⟩

/-- A read leaves the parameters, the host's side of the run and the fault registers. -/
theorem readReg_frame (r : Reg) (s : State) :
    (readReg r s).2.pending = s.pending ∧ (readReg r s).2.params = s.params ∧ (readReg r s).2.reads = s.reads ∧
      (readReg r s).2.err = s.err ∧ (readReg r s).2.errinfo = s.errinfo := by
  cases r <;> simp [readReg, popByteOut, popSymOut] <;> split <;> simp

/-- A write of a register other than `CMD` leaves the parameters, the host's side of the run and the fault registers. -/
theorem writeDataReg_frame (r : Reg) (v : Word) (s : State) :
    (writeDataReg r v s).pending = s.pending ∧ (writeDataReg r v s).params = s.params ∧
      (writeDataReg r v s).reads = s.reads ∧ (writeDataReg r v s).err = s.err ∧
      (writeDataReg r v s).errinfo = s.errinfo := by
  cases r <;> simp [writeDataReg]

/-- A write runs a command or stores a value. -/
theorem writeReg_cases (r : Reg) (v : Word) (s : State) :
    (r = .cmd ∧ writeReg r v s = writeCmd v s) ∨ (r ≠ .cmd ∧ writeReg r v s = .next (writeDataReg r v s)) := by
  cases r <;> simp [writeReg]

/-- A naturally aligned word access at a register's offset reaches that register. -/
theorem locate_register (p : Config.Params) (r : Reg) : locate p (p.base + regOffset r) 4 = .ok r := by
  have hr : regAt (regOffset r) = some r := by cases r <;> decide
  have ho : regOffset r < 256 ∧ regOffset r % 4 = 0 := by cases r <;> decide
  have he : p.base + regOffset r - p.base = regOffset r := by omega
  unfold locate
  rw [if_neg (by omega), if_neg (by omega), he, if_neg (by omega), hr]

theorem perform_rdTxn (r : Reg) (s : State) :
    perform (rdTxn s.params r) s = .next (recordRead (readReg r s).1 (readReg r s).2) := by
  simp [perform, rdTxn, locate_register]

theorem perform_wrTxn (r : Reg) (v : Word) (s : State) : perform (wrTxn s.params r v) s = writeReg r v s := by
  simp [perform, wrTxn, locate_register]

end Sys2Proof.Machine
end

