-- ==== Sys2Proof/Tests/Slice0.lean ====
section
/-! SUPPORT. Tests of the model and the witnesses of the statements' hypotheses. Expected values come from the spec: words
from the formats of 30_encoding.md R66, R68, results from the vectors V<n> of 95_test_vectors.md, each named where it is
used. -/

namespace Sys2Proof.Tests

open Sys2Proof.Machine Sys2Proof.Rules

/-! ## Well-formed terms -/

/-- A small well-formed instance. -/
def tiny : Config.Params where
  chunkMax := 4
  payMax := 4
  nodeMax := 7
  inqMax := 64
  outqMax := 64
  base := 0x100

theorem test_wf_vectors : Config.Params.vectors.wf = true := by decide
theorem test_wf_tiny : tiny.wf = true := by decide
theorem test_wf_top : ({ tiny with chunkMax := 2 ^ 32 - 1, nodeMax := 131071 } : Config.Params).wf = true := by decide

theorem test_wf_refuses_chunkMax_zero : ({ tiny with chunkMax := 0 } : Config.Params).wf = false := by decide
theorem test_wf_refuses_chunkMax_big :
    ({ tiny with chunkMax := 2 ^ 32, nodeMax := 131071 } : Config.Params).wf = false := by decide
theorem test_wf_refuses_payMax_zero : ({ tiny with payMax := 0 } : Config.Params).wf = false := by decide
theorem test_wf_refuses_payMax_big : ({ tiny with payMax := 2 ^ 32 } : Config.Params).wf = false := by decide
theorem test_wf_refuses_nodeMax_small : ({ tiny with nodeMax := 6 } : Config.Params).wf = false := by decide
theorem test_wf_refuses_inqMax_zero : ({ tiny with inqMax := 0 } : Config.Params).wf = false := by decide
theorem test_wf_refuses_inqMax_big : ({ tiny with inqMax := 2 ^ 32 } : Config.Params).wf = false := by decide
theorem test_wf_refuses_outqMax_zero : ({ tiny with outqMax := 0 } : Config.Params).wf = false := by decide
theorem test_wf_refuses_outqMax_big : ({ tiny with outqMax := 2 ^ 32 } : Config.Params).wf = false := by decide
theorem test_wf_refuses_base_unaligned : ({ tiny with base := 0x80 } : Config.Params).wf = false := by decide
theorem test_wf_instr : (Instr.pushs 0xFFFF#16).wf = true ∧ (Instr.pushb 0xFF#8).wf = true ∧ Instr.decode.wf = true := by
  decide

/-! ## Decoding, words written out from 30_encoding.md R66, R68 -/

theorem test_decode_nop : decode 0b00000000000000000000000000000000#32 = .instr .nop := by decide
theorem test_decode_sreset : decode 0b00000000000000000000000000000001#32 = .instr .sreset := by decide
theorem test_decode_clrchunk : decode 0b00000000000000000000000000000010#32 = .instr .clrchunk := by decide
theorem test_decode_clrin : decode 0b00000000000000000000000000000011#32 = .instr .clrin := by decide
theorem test_decode_pushs : decode 0b10000000011000010000000000000100#32 = .instr (.pushs 0x8061#16) := by decide
theorem test_decode_pushb : decode 0b00000000100111110000000000000101#32 = .instr (.pushb 0x9F#8) := by decide
theorem test_decode_freq : decode 0b00000000000000000000000000010000#32 = .instr .freq := by decide
theorem test_decode_build : decode 0b00000000000000000000000000010001#32 = .instr .build := by decide
theorem test_decode_codes : decode 0b00000000000000000000000000010010#32 = .instr .codes := by decide
theorem test_decode_pack : decode 0b00000000000000000000000000010011#32 = .instr .pack := by decide
theorem test_decode_unpack : decode 0b00000000000000000000000000010100#32 = .instr .unpack := by decide
theorem test_decode_sertrie : decode 0b00000000000000000000000000010101#32 = .instr .sertrie := by decide
theorem test_decode_desertrie : decode 0b00000000000000000000000000010110#32 = .instr .desertrie := by decide
theorem test_decode_wrhead : decode 0b00000000000000000000000000100000#32 = .instr .wrhead := by decide
theorem test_decode_wrpay : decode 0b00000000000000000000000000100001#32 = .instr .wrpay := by decide
theorem test_decode_emitrec : decode 0b00000000000000000000000000100010#32 = .instr .emitrec := by decide
theorem test_decode_encode : decode 0b00000000000000000000000000100011#32 = .instr .encode := by decide
theorem test_decode_rdhead : decode 0b00000000000000000000000000100100#32 = .instr .rdhead := by decide
theorem test_decode_rdpay : decode 0b00000000000000000000000000100101#32 = .instr .rdpay := by decide
theorem test_decode_decode : decode 0b00000000000000000000000000100110#32 = .instr .decode := by decide
theorem test_decode_wrhdr : decode 0b00000000000000000000000000110000#32 = .instr .wrhdr := by decide
theorem test_decode_rdhdr : decode 0b00000000000000000000000000110001#32 = .instr .rdhdr := by decide

/-- V13: each of these words is illegal, and the model says why. -/
theorem test_decode_illegal :
    decode 0x000000FF#32 = .illegal (.unassignedOpcode 0xFF#8) ∧ decode 0x00000017#32 = .illegal (.unassignedOpcode 0x17#8) ∧
    decode 0x00000027#32 = .illegal (.unassignedOpcode 0x27#8) ∧ decode 0x00000032#32 = .illegal (.unassignedOpcode 0x32#8) ∧
    decode 0x00000100#32 = .illegal (.reservedBitSet 0x00#8) ∧ decode 0x80000000#32 = .illegal (.reservedBitSet 0x00#8) := by
  decide

theorem test_decodeTableWord :
    decodeTableWord 32 0x00610004 = some (.pushs 0x0061#16) ∧ decodeTableWord 32 0x00000104 = none ∧
    decodeTableWord 8 0x26 = some .decode := by decide

/-! ## One step on a small state -/

/-- The next state of an outcome, if it has one. -/
def nextOf (o : Host.Outcome State Fault Refusal) : Option State :=
  match o with
  | .next t => some t
  | .fault _ => none
  | .refused _ => none

/-- The refusal of an outcome, if it is one. -/
def refusalOf (o : Host.Outcome State Fault Refusal) : Option Refusal :=
  match o with
  | .next _ => none
  | .fault _ => none
  | .refused r => some r

theorem next_of {o : Host.Outcome State Fault Refusal} {t : State} (h : nextOf o = some t) : o = .next t := by
  cases o <;> simp_all [nextOf]

theorem refused_of {o : Host.Outcome State Fault Refusal} {r : Refusal} (h : refusalOf o = some r) : o = .refused r := by
  cases o <;> simp_all [refusalOf]

/-- The result of a command, looked at through `f`. -/
def after {α : Type} (i : Instr) (s : State) (f : State → α) : Option α := (nextOf (exec i s)).map f

/-- The state a command ends in. -/
def resultOf (i : Instr) (s : State) : State := (after i s id).getD s

/-- The reset state of the small instance. -/
def s0 : State := State.resetWith tiny

abbrev a : Sym := 0x0061#16
abbrev b : Sym := 0x0062#16
abbrev c : Sym := 0x0063#16

/-- The trie `(a, (c, b))` of V20. -/
def trieV20 : Tree := .internal (.leaf a) (.internal (.leaf c) (.leaf b))

/-- The bytes of `trieV20`, V20. -/
def bytesV20 : List Byte :=
  [0x00#8, 0x01#8, 0x00#8, 0x61#8, 0x00#8, 0x01#8, 0x00#8, 0x63#8, 0x01#8, 0x00#8, 0x62#8]

/-- `CODE` of V31: `a = "0"`, `b = "11"`, `c = "10"`. -/
def codesV31 : CodeTable := [(a, [false]), (b, [true, true]), (c, [true, false])]

/-- The state P1's chunk is in before `ENCODE` emits it: counts, trie, codes and payload of `a a b c` (codes of V31:
bits `0 0 11 10`, one payload byte `38`). -/
def loaded : State :=
  { s0 with
    symbuf := [a, a, b, c], freq := [(a, 2), (b, 1), (c, 1)], trie := some trieV20, code := codesV31,
    paybuf := [0x38#8], bitcnt := 6#64, recLen := 4#32, freqV := true, trieV := true, codeV := true, payV := true }

/-- The record of a chunk with the single symbol `a` at chunk index 0 (like V71). -/
def recordA : List Byte :=
  [0x00#8, 0x00#8, 0x00#8, 0x00#8, 0x00#8, 0x00#8, 0x00#8, 0x01#8, 0x01#8, 0x00#8, 0x61#8] ++
  [0x00#8, 0x00#8, 0x00#8, 0x01#8, 0x00#8]

theorem test_nop : exec .nop loaded = .next loaded := next_of (by decide)  -- V1

/-- V15. -/
theorem test_sreset : exec .sreset { loaded with err := some .truncatedRecord, outq := [0x22#8] } = .next s0 :=
  next_of (by decide)

/-- V7. -/
theorem test_clrchunk :
    after .clrchunk loaded (fun t => (t.symbuf, t.trie, (readReg .status t).1)) = some ([], none, 0#32) := by decide

/-- V6. -/
theorem test_clrin :
    after .clrin { s0 with inq := bytesV20, eoc := true } (fun t => (t.inq, t.eoc)) = some ([], false) := by decide

theorem test_pushs : after (.pushs b) { s0 with symbuf := [a] } (·.symbuf) = some [a, b] := by decide

/-- V8: the fifth symbol of a chunk of at most 4. -/
theorem test_pushs_full :
    after (.pushs 0x0065#16) { s0 with symbuf := [a, b, c, a] }
      (fun t => (t.err, t.errinfo, t.symbuf.length, (readReg .status t).1)) =
    some (some .capacity, 0x00650004#32, 0, 0x20#32) := by decide

theorem test_pushb : after (.pushb 0x1F#8) { s0 with inq := [0x07#8] } (·.inq) = some [0x07#8, 0x1F#8] := by decide

/-- V19a. -/
theorem test_freq :
    after .freq { s0 with symbuf := [a, a, a, b, b, c], freq := [(a, 9)], freqV := true }
      (fun t => ((readReg .distinct t).1, t.freq)) = some (3#32, [(a, 3), (b, 2), (c, 1)]) := by decide

/-- V20. -/
theorem test_build :
    after .build { s0 with freq := [(a, 3), (b, 2), (c, 1)], freqV := true } (·.trie) = some (some trieV20) := by decide

/-- V27: symbols are compared unsigned. -/
theorem test_build_unsigned :
    after .build { s0 with freq := [(0x7FFF#16, 1), (0x8000#16, 1)], freqV := true } (·.trie) =
      some (some (.internal (.leaf 0x7FFF#16) (.leaf 0x8000#16))) := by decide

/-- V31. -/
theorem test_codes : after .codes { s0 with trie := some trieV20, trieV := true } (·.code) = some codesV31 := by decide

/-- V36: of two leaves with one symbol the later one wins. -/
theorem test_codes_repeated :
    after .codes { s0 with trie := some (.internal (.leaf a) (.leaf a)), trieV := true } (·.code) = some [(a, [true])] := by
  decide

/-- V42. -/
theorem test_pack :
    after .pack { s0 with symbuf := [a, a, a, b, b, c], code := codesV31, codeV := true }
      (fun t => (t.paybuf, t.bitcnt, t.recLen, t.payV)) = some ([0x1F#8, 0x00#8], 9#64, 6#32, true) := by decide

/-- V49a. -/
theorem test_pack_noCode :
    after .pack { s0 with symbuf := [a, 0x0064#16], code := codesV31, codeV := true } (fun t => (t.err, t.errinfo)) =
      some (some .noCode, 0x13#32) := by decide

/-- V50a, cut to the first four symbols (`CHUNK_MAX = 4`). -/
theorem test_unpack :
    after .unpack { s0 with trie := some trieV20, trieV := true, paybuf := [0x1F#8, 0x00#8], payV := true, recLen := 4#32 }
      (fun t => (t.symbuf, t.bitcnt, t.proc)) = some ([a, a, a, b], 5#64, 4#64) := by decide

/-- V50d in small: `0x1F` holds `a a a b b` and one bit more, so a sixth symbol is short. -/
theorem test_unpack_short :
    after .unpack { loaded with params := { tiny with chunkMax := 9 }, paybuf := [0x1F#8], recLen := 6#32 }
      (fun t => (t.err, t.recLen, t.proc)) = some (some .inconsistentLength, 6#32, 0#64) := by decide

/-- V20. -/
theorem test_sertrie : after .sertrie loaded (·.outq) = some bytesV20 := by decide

/-- V60: the byte after the trie stays. -/
theorem test_desertrie :
    after .desertrie { s0 with inq := [0x01#8, 0x00#8, 0x61#8, 0xAA#8] } (fun t => (t.trie, t.inq, t.trieV)) =
      some (some (.leaf a), [0xAA#8], true) := by decide

/-- V67: a fourth node of at most 3. -/
theorem test_desertrie_big :
    after .desertrie { s0 with params := { tiny with nodeMax := 3 }, inq := bytesV20 } (fun t => (t.err, t.inq)) =
      some (some .capacity, []) := by decide

/-- P4, with a chunk index that shows the byte order and the wrap of V80. -/
theorem test_wrhead :
    after .wrhead { s0 with chunkIdx := 0xFFFFFFFF#32, recLen := 0x01020304#32 } (fun t => (t.outq, t.chunkIdx)) =
      some ([0xFF#8, 0xFF#8, 0xFF#8, 0xFF#8, 0x01#8, 0x02#8, 0x03#8, 0x04#8], 0#32) := by decide

/-- P4. -/
theorem test_wrpay :
    after .wrpay loaded (·.outq) = some [0x00#8, 0x00#8, 0x00#8, 0x01#8, 0x38#8] := by decide

theorem test_emitrec :
    after .emitrec loaded (fun t => (t.outq, t.chunkIdx, t.symbuf)) =
      some ([0x00#8, 0x00#8, 0x00#8, 0x00#8, 0x00#8, 0x00#8, 0x00#8, 0x04#8] ++ bytesV20 ++
        [0x00#8, 0x00#8, 0x00#8, 0x01#8, 0x38#8], 1#32, [a, a, b, c]) := by decide

set_option maxRecDepth 4000 in
/-- V70. -/
theorem test_encode :
    after .encode { s0 with params := { tiny with chunkMax := 6, nodeMax := 11 }, symbuf := [a, a, a, b, b, c] }
      (fun t => (t.outq, t.chunkIdx, t.recLen, t.symbuf)) =
      some ([0x00#8, 0x00#8, 0x00#8, 0x00#8, 0x00#8, 0x00#8, 0x00#8, 0x06#8] ++ bytesV20 ++
        [0x00#8, 0x00#8, 0x00#8, 0x02#8, 0x1F#8, 0x00#8], 1#32, 6#32, []) := by decide

/-- V81. -/
theorem test_encode_empty :
    after .encode { s0 with chunkIdx := 5#32 } (fun t => (t.outq, t.chunkIdx, t.err)) = some ([], 5#32, none) := by decide

theorem test_rdhead :
    after .rdhead { s0 with inq := recordA, eoc := true } (fun t => (t.recIdx, t.recLen, t.inq.length, t.eoc)) =
      some (0#32, 1#32, 8, false) := by decide

theorem test_rdpay :
    after .rdpay { s0 with inq := [0x00#8, 0x00#8, 0x00#8, 0x02#8, 0x1F#8, 0x00#8, 0x77#8] }
      (fun t => (t.paybuf, t.inq, t.payV)) = some ([0x1F#8, 0x00#8], [0x77#8], true) := by decide

set_option maxRecDepth 4000 in
/-- P2 in small: the record of `a`. -/
theorem test_decode :
    after .decode { s0 with inq := recordA ++ [0x55#8] } (fun t => (t.symbuf, t.recLen, t.inq, t.proc, t.eoc)) =
      some ([a], 1#32, [0x55#8], 1#64, false) := by decide

set_option maxRecDepth 4000 in
/-- P5 in small: the record cut inside `payload_byte_len`. -/
theorem test_decode_cut :
    after .decode { s0 with inq := recordA.take 12, eoc := true } (fun t => (t.err, t.errinfo, t.recLen, t.eoc)) =
      some (some .truncatedRecord, 0x26#32, 0#32, false) := by decide

/-- P3. -/
theorem test_wrhdr :
    after .wrhdr { s0 with total := 9#64, chunkIdx := 3#32 } (fun t => (t.outq, t.chunkIdx)) =
      some ([0x00#8, 0x00#8, 0x00#8, 0x00#8, 0x00#8, 0x00#8, 0x00#8, 0x09#8], 0#32) := by decide

/-- P3. -/
theorem test_rdhdr :
    after .rdhdr { s0 with inq := [0x00#8, 0x00#8, 0x00#8, 0x00#8, 0x00#8, 0x00#8, 0x00#8, 0x09#8], proc := 7#64 }
      (fun t => (t.total, t.proc, t.inq)) = some (9#64, 0#64, []) := by decide

/-! ## Transactions -/

/-- V2 as a step of the machine: the very first word written after reset. -/
theorem test_step_first_word :
    step (State.reset.withFetchWord 32 0x00610004) = .next { State.reset with symbuf := [a] } :=
  next_of (by decide)

/-- V9, in a step. -/
theorem test_step_illegal :
    step { s0 with pending := [.write 0x100 4 0x00000006#32] } =
      .next { s0 with err := some .illegalCommand, errinfo := 0x00000006#32 } := next_of (by decide)

/-- V3, V18: a pop and a read of the empty queue. -/
theorem test_pop_symOut :
    performAll [.read 0x150 4, .read 0x150 4] { s0 with symbuf := [0x0000#16] } =
      .next { s0 with reads := [0x00010000#32, 0x00000000#32] } := next_of (by decide)

/-- V17. -/
theorem test_write_qsym :
    performAll [.write 0x154 4 0x12345678#32, .read 0x154 4] s0 =
      .next { s0 with qsym := 0x5678#16, reads := [0x00005678#32] } := next_of (by decide)

/-- 20_memory.md R46, R47: the last register, the first reserved offset, the end of the window, a halfword, an odd word. -/
theorem test_accesses :
    (∃ t, perform (.read 0x15C 4) s0 = .next t) ∧
    perform (.read 0x160 4) s0 = .refused (.reservedOffset 0x60) ∧
    perform (.write 0x200 4 0#32) s0 = .refused (.outsideRegisterSpace 0x200) ∧
    perform (.read 0x110 2) s0 = .refused (.badWidth 2) ∧
    perform (.write 0x102 4 0#32) s0 = .refused (.misaligned 0x102) :=
  ⟨⟨_, rfl⟩, refused_of (by decide), refused_of (by decide), refused_of (by decide), refused_of (by decide)⟩

/-! ## Witnesses: concrete states and operands that meet a statement's hypotheses, clause by clause -/

/-- A state with a chunk and an input queue only meets the invariant when they fit. -/
theorem plain_inv (q : List Sym) (i : List Byte) (hq : q.length ≤ 4) (hi : i.length ≤ 64) :
    Inv { s0 with symbuf := q, inq := i } where
  params := test_wf_tiny
  memory := rfl
  freq_le := by intro e he; cases he
  distinct_le := Nat.zero_le _
  freq_clear := fun _ _ => rfl
  trie_flag := Iff.intro (fun h => nomatch h) (fun h => absurd rfl h)
  code_clear := fun _ _ => rfl
  pay_clear := fun _ => ⟨rfl, rfl⟩
  bitcnt_le := Nat.zero_le _
  symbuf_le := hq
  paybuf_le := Nat.zero_le _
  inq_le := hi
  outq_le := Nat.zero_le _
  nodes_le := Nat.zero_le _
  nodes_fit := Nat.zero_le _
  code_le := by intro e he; cases he
  faulted := fun h => absurd rfl h
  errinfo_clear := fun _ => rfl

/-- The invariant holds of a state in which every table, flag and buffer is in use, the chunk at its limit. -/
theorem loaded_inv : Inv loaded where
  params := by decide
  memory := by decide
  freq_le := by decide
  distinct_le := by decide
  freq_clear := fun h => by cases h
  trie_flag := by decide
  code_clear := fun h => by cases h
  pay_clear := fun h => by cases h
  bitcnt_le := by decide
  symbuf_le := by decide
  paybuf_le := by decide
  inq_le := by decide
  outq_le := by decide
  nodes_le := by decide
  nodes_fit := by decide
  code_le := by decide
  faulted := fun h => absurd rfl h
  errinfo_clear := fun _ => rfl

/-- `loaded` in the faulted state. -/
def broken : State := { s0 with err := some .truncatedRecord, errinfo := 0x00000026#32, outq := [0x11#8, 0x22#8] }

theorem witness_DecodeAndEncodeAgree : decode 0xFFFF0004#32 = .instr (.pushs 0xFFFF#16) := by decide

theorem witness_WordsEncodeByMatchAndMask :
    ⟨"NOP", 0x00000000#32, 0xFFFFFFFF#32⟩ ∈ opcodeMap ∧ ⟨"RDHDR", 0x00000031#32, 0xFFFFFFFF#32⟩ ∈ opcodeMap := by decide

theorem witness_WordsOfNoRowAreIllegal :
    (∀ r ∈ opcodeMap, 0x32#32 &&& r.mask ≠ r.value) ∧ s0.err = none ∧ broken.err ≠ none := by decide

theorem witness_StepRunsTheWrittenCommand :
    ({ s0 with pending := [.write 0x100 4 0x11#32, .hardwareReset] } : State).pending =
      .write s0.params.base 4 0x11#32 :: [.hardwareReset] ∧ decode 0x11#32 = .instr .build := by decide

theorem witness_TransactionsArePerformedInOrder :
    s0.pending = [] ∧ ({ s0 with pending := [.read 0x104 4] } : State).pending = .read 0x104 4 :: [] ∧
    perform (.read 0x104 4) loaded = .next { loaded with reads := [0x0F#32] } ∧
    exec .freq s0 = .next { s0 with freqV := true } :=
  ⟨by decide, by decide, next_of (by decide), next_of (by decide)⟩

theorem witness_UndefinedAccessesAreRefused : s0.params.base % 256 = 0 := by decide

theorem witness_PopReadsRemoveTheHead :
    broken.outq = 0x11#8 :: [0x22#8] ∧ s0.outq = [] ∧ loaded.symbuf = a :: [a, b, c] ∧ s0.symbuf = [] := by decide

theorem witness_OtherReadsChangeNothing : Reg.qcodelen ≠ .byteOut ∧ Reg.qcodelen ≠ .symOut := by decide

theorem witness_RegisterWritesStoreOrAreIgnored :
    Reg.status ∉ [Reg.cmd, .chunkIdx, .recLen, .totalLo, .totalHi, .qsym] := by decide

theorem witness_ViewsReadTheExactSizes : Inv loaded ∧ Inv s0 := ⟨loaded_inv, plain_inv [] [] (by decide) (by decide)⟩

theorem witness_InvariantHoldsAtReset : tiny.wf = true := by decide

theorem witness_EveryStepKeepsTheInvariant : Inv loaded ∧ step loaded = .next loaded := ⟨loaded_inv, next_of (by decide)⟩

theorem witness_FaultedStateIgnoresCommands :
    broken.err ≠ none ∧ 0x101#32 ≠ 0x00000001#32 := by decide  -- V14

theorem witness_OnlyResetLeavesTheFaultedState :
    broken.err ≠ none ∧ perform (.write 0x100 4 0x10#32) broken = .next broken ∧
    perform (.write 0x100 4 0x01#32) broken = .next s0 ∧ perform .hardwareReset broken = .next s0 :=
  ⟨by decide, next_of (by decide), next_of (by decide), next_of (by decide)⟩

theorem witness_FaultEntryDiscardsTheCommand :
    s0.err = none ∧ exec .build s0 = .next { s0 with err := some .sequence, errinfo := 0x11#32 } ∧
    exec .rdhead { s0 with inq := [0x00#8], eoc := true } =
      .next { s0 with err := some .truncatedRecord, errinfo := 0x24#32 } :=
  ⟨by decide, next_of (by decide), next_of (by decide)⟩

theorem witness_CommandsRaiseOnlyTheirFaults :
    Inv s0 ∧ s0.err = none ∧ exec .codes s0 = .next { s0 with err := some .sequence, errinfo := 0x12#32 } :=
  ⟨plain_inv [] [] (by decide) (by decide), by decide, next_of (by decide)⟩

theorem witness_CommandsOnlyAppendOutput :
    exec .sertrie loaded = .next { loaded with outq := bytesV20 } ∧
    exec .sertrie s0 = .next { s0 with err := some .sequence, errinfo := 0x15#32 } :=
  ⟨next_of (by decide), next_of (by decide)⟩

theorem witness_CommandsOnlyTakeFromTheInputHead :
    exec .desertrie { s0 with inq := [0x01#8, 0x00#8, 0x61#8, 0xAA#8] } =
      .next { s0 with inq := [0xAA#8], trie := some (.leaf a), trieV := true } := next_of (by decide)

theorem witness_CommandsWriteOnlyTheirRegisters :
    (resultOf .emitrec loaded).chunkIdx ≠ loaded.chunkIdx ∧
    (resultOf .rdhead { s0 with inq := [0#8, 0#8, 0#8, 7#8, 0#8, 0#8, 0#8, 9#8] }).recIdx ≠ s0.recIdx ∧
    (resultOf .pack { loaded with recLen := 0#32 }).recLen ≠ 0#32 ∧
    (resultOf .rdhdr { s0 with inq := [0#8, 0#8, 0#8, 0#8, 0#8, 0#8, 0#8, 9#8] }).total ≠ s0.total ∧
    (resultOf .unpack loaded).proc ≠ loaded.proc := by decide

theorem witness_FlagsAreSetOnlyByTheirCommands :
    (resultOf .freq s0).freqV = true ∧ (resultOf .build { loaded with trieV := false }).trieV = true ∧
    (resultOf .codes { loaded with codeV := false }).codeV = true ∧
    (resultOf .pack { loaded with payV := false }).payV = true ∧ (resultOf .rdhead s0).eoc = true ∧
    (resultOf .clrin { s0 with eoc := true }).eoc = false := by decide

theorem witness_NopAndClearingCommands : loaded.err = none := by decide

theorem witness_PushCommandsAppendOrFault :
    loaded.err = none ∧ loaded.symbuf.length = loaded.params.chunkMax ∧ s0.symbuf.length ≠ s0.params.chunkMax := by decide

theorem witness_PushedSymbolsFormTheChunk :
    s0.err = none ∧ s0.symbuf.length + [a, 0x0000#16, 0xFFFF#16, a].length ≤ s0.params.chunkMax := by decide

theorem witness_FreqCountsTheChunk : loaded.err = none ∧ s0.err = none := by decide

theorem witness_BuildMakesTheTrieOrFaults :
    s0.err = none ∧ s0.freqV = false ∧ ({ s0 with freqV := true } : State).freqV = true ∧ distinct s0.freq = 0 ∧
    loaded.err = none ∧ loaded.freqV = true ∧ distinct loaded.freq ≠ 0 := by decide

theorem witness_NodeOrderIsTheMandatedOne :
    Before ⟨.leaf a, 1, 0x61⟩ ⟨.leaf b, 1, 0x62⟩ ∧ Before ⟨.leaf b, 1, 0x62⟩ ⟨.internal (.leaf a) (.leaf c), 1, 0⟩ ∧
    ((1, nodeKind ⟨.leaf a, 1, 0x61⟩, 0x61) : Nat × Nat × Nat) ≠ (1, nodeKind ⟨.leaf b, 1, 0x62⟩, 0x62) := by
  unfold Before; decide

theorem witness_BuildMergesTheTwoLeast :
    keysRise [(a, 3), (b, 2), (c, 1)] = true ∧ buildTree [(a, 3), (b, 2), (c, 1)] = some trieV20 := by decide

theorem witness_BuiltLeavesAreTheCountedSymbols : buildTree [(a, 3), (b, 2), (c, 1)] = some trieV20 := by decide

theorem witness_CodesAreRootToLeafPaths :
    s0.err = none ∧ s0.trieV = false ∧ loaded.err = none ∧ loaded.trieV = true ∧
    loaded.trie = some (.internal (.leaf a) (.internal (.leaf c) (.leaf b))) ∧ (leafSymbols trieV20).Nodup ∧
    ({ loaded with trie := some (.leaf a) } : State).trie = some (.leaf a) := by decide

theorem witness_CodesArePrefixFree :
    tableGet b (codesOf trieV20) = some [true, true] ∧ tableGet c (codesOf trieV20) = some [true, false] ∧ b ≠ c := by
  decide

theorem witness_PackWritesThePayloadOrFaults :
    loaded.err = none ∧ loaded.codeV = true ∧
    loaded.symbuf.all (fun x => (tableGet x loaded.code).isSome) = true := by decide

theorem witness_PackedBitsAreMsbFirst : (packBits [true, false, true])[0]? = some 0xA0#8 ∧ 7 < 8 := by decide      -- V49

theorem witness_UnpackRecoversSymbolsOrFaults :
    s0.err = none ∧ s0.trieV = false ∧ loaded.err = none ∧ loaded.trieV = true ∧ loaded.payV = true ∧
    loaded.trie = some trieV20 ∧ loaded.recLen.toNat ≤ loaded.params.chunkMax ∧
    unpackBits loaded.paybuf trieV20 loaded.recLen.toNat = some ([a, a, b, c], 6) ∧
    ({ loaded with recLen := 5#32 } : State).params.chunkMax < ({ loaded with recLen := 5#32 } : State).recLen.toNat ∧
    unpackBits [] trieV20 4 = none := by decide

theorem witness_UnpackStaysInsideThePayload :
    unpackBits [0x38#8] trieV20 4 = some ([a, a, b, c], 6) ∧ 3 ≤ 4 := by decide

theorem witness_UnpackingReversesPacking : [a, a, b, c] ≠ [] := by decide

theorem witness_SertrieAppendsTheTrieOrFaults :
    s0.err = none ∧ s0.trieV = false ∧ loaded.err = none ∧ loaded.trieV = true ∧ loaded.trie = some trieV20 := by decide

theorem witness_ParseReversesSerialization :
    nodes trieV20 ≤ 5 ∧ parseTree 5 (bytesV20 ++ [0xAA#8]) = .tree trieV20 5 [0xAA#8] := by decide

theorem witness_DesertrieReadsExactlyATrie :
    s0.err = none ∧ ({ s0 with inq := bytesV20 ++ [0xAA#8] } : State).inq = serialize trieV20 ++ [0xAA#8] ∧
    nodes trieV20 ≤ s0.params.nodeMax := by decide

/-- The empty queue begins with no serialized trie. -/
theorem witness_DesertrieReadsExactlyATrie_bad (t : Tree) (rest : List Byte) (h : s0.inq = serialize t ++ rest) :
    s0.params.nodeMax < nodes t := by cases t <;> cases h

theorem witness_BadTriesFaultByKind :
    s0.err = none ∧
    ({ s0 with params := { tiny with nodeMax := 4 }, inq := bytesV20 } : State).inq = serialize trieV20 ++ [] ∧
    ({ s0 with params := { tiny with nodeMax := 4 } } : State).params.nodeMax < nodes trieV20 ∧
    nodes trieV20 ≤ s0.params.nodeMax ∧ 10 < (serialize trieV20).length ∧
    ({ s0 with inq := bytesV20.take 10 } : State).inq = (serialize trieV20).take 10 := by decide

/-- `s0` with at most 3 nodes to a trie and the bytes `q` to read. -/
def small (q : List Byte) : State := { s0 with params := { tiny with nodeMax := 3 }, inq := q }

/-- A flag met after the leaf `a` and two inner nodes, the third of them at the limit: a fourth node, whatever its flag; a
bad flag as the third node and as the first; the end before the fourth flag and before the first; the end inside the third
node's symbol, of which 0 bytes and 1 are left. -/
theorem witness_BadTriesFaultByKind_byNode :
    (small [0#8, 1#8, 0#8, 0x61#8, 0#8, 0xFF#8]).inq = bytesBefore [some (.leaf a), none] ++ 0xFF#8 :: [] ∧
    nodesBefore [some (.leaf a), none] = (small []).params.nodeMax ∧
    (small [0#8, 1#8, 0#8, 0x61#8, 0x02#8]).inq = bytesBefore [some (.leaf a)] ++ 0x02#8 :: [] ∧ 0x02#8 ≠ 0x00#8 ∧
    0x02#8 ≠ 0x01#8 ∧ nodesBefore [some (.leaf a)] + 1 ≤ (small []).params.nodeMax ∧
    (small [0xFF#8]).inq = bytesBefore [] ++ 0xFF#8 :: [] ∧ nodesBefore [] + 1 ≤ (small []).params.nodeMax ∧
    (small [0#8, 1#8, 0#8, 0x61#8, 0#8]).inq = bytesBefore [some (.leaf a), none] ∧ (small []).inq = bytesBefore [] ∧
    (small [0#8, 1#8, 0#8, 0x61#8, 1#8]).inq = bytesBefore [some (.leaf a)] ++ 0x01#8 :: [] ∧
    (small [0#8, 1#8, 0#8, 0x61#8, 1#8, 0#8]).inq = bytesBefore [some (.leaf a)] ++ 0x01#8 :: [0#8] ∧ [0#8].length < 2 := by
  decide

theorem witness_WrheadWritesTheHeadOrFaults : loaded.err = none ∧ loaded.recLen ≠ 0#32 := by decide

theorem witness_WrpayWritesThePayloadOrFaults : loaded.err = none ∧ loaded.payV = true := by decide

theorem witness_EmitrecWritesTheRecordOrFaults :
    s0.err = none ∧ s0.recLen = 0#32 ∧ loaded.err = none ∧ loaded.trieV = true ∧ loaded.trie = some trieV20 ∧
    loaded.payV = true ∧ loaded.recLen ≠ 0#32 := by decide

theorem witness_EmitrecIsTheThreeFieldCommands :
    loaded.err = none ∧ (resultOf .emitrec loaded).err = none ∧
    exec .emitrec loaded = .next (resultOf .emitrec loaded) := ⟨by decide, by decide, next_of (by decide)⟩

/-- A one-symbol chunk, ready for `ENCODE`. -/
def encoder : State := { s0 with symbuf := [a] }

/-- `encoder` after `ENCODE`. -/
def encoded : State := { s0 with outq := recordA, chunkIdx := 1#32, recLen := 1#32 }

theorem witness_EncodeEmitsOneRecord :
    Inv s0 ∧ s0.err = none ∧ s0.symbuf = [] ∧ Inv encoder ∧ encoder.err = none ∧ encoder.symbuf ≠ [] :=
  ⟨plain_inv [] [] (by decide) (by decide), by decide, by decide, plain_inv [a] [] (by decide) (by decide), by decide,
    by decide⟩

set_option maxRecDepth 4000 in
theorem witness_EncodeIsThePrimitiveSequence :
    encoder.err = none ∧ encoder.symbuf ≠ [] ∧ encoded.err = none ∧ exec .encode encoder = .next encoded :=
  ⟨by decide, by decide, by decide, next_of (by decide)⟩

theorem witness_RdheadReadsTheHead :
    s0.err = none ∧ s0.inq = [] ∧
    1 ≤ [0x00#8].length ∧ [0#8, 0#8, 0#8, 0#8, 0#8, 0#8, 0#8].length ≤ 7 ∧
    recordA = be32 0#32 ++ be32 1#32 ++ recordA.drop 8 := by decide

theorem witness_RdpayReadsThePayload :
    s0.err = none ∧ s0.inq.length < 4 ∧
    ({ s0 with inq := [0#8, 0#8, 0#8, 4#8, 0x1F#8] } : State).inq = be32 4#32 ++ [0x1F#8] := by decide

theorem witness_DecodeReadsOneRecord :
    s0.err = none ∧ s0.inq = [] ∧
    recordA ++ [0x55#8] =
      be32 0#32 ++ be32 1#32 ++ serialize (.leaf a) ++ be32 1#32 ++ [0x00#8] ++ [0x55#8] ∧
    [0x00#8].length = (1#32).toNat ∧ nodes (.leaf a) ≤ s0.params.nodeMax ∧ (1#32).toNat ≤ s0.params.payMax ∧
    (1#32).toNat ≤ s0.params.chunkMax ∧ unpackBits [0x00#8] (.leaf a) 1 = some ([a], 1) ∧
    unpackBits [] (.leaf a) 1 = none ∧ s0.params.chunkMax < (5#32).toNat ∧ s0.params.payMax < (5#32).toNat := by decide

/-- A decoder holding the record of `a`. -/
def decoder : State := { s0 with inq := recordA }

set_option maxRecDepth 4000 in
theorem witness_DecodeIsThePrimitiveSequence :
    decoder.err = none ∧ decoder.inq ≠ [] ∧
    (∃ u, execAll decodeSteps decoder = .next u ∧ u.err = none) ∧
    (∃ u, execAll decodeSteps { s0 with inq := recordA.take 8 ++ [0x02#8] } = .next u ∧ u.err = some .malformedTrie) :=
  ⟨by decide, by decide, ⟨_, rfl, rfl⟩, ⟨_, rfl, rfl⟩⟩

set_option maxRecDepth 4000 in
theorem witness_DecodeReversesEncode :
    Inv encoder ∧ encoder.err = none ∧ encoder.symbuf ≠ [] ∧ exec .encode encoder = .next encoded ∧ encoded.err = none ∧
    encoded.outq = encoder.outq ++ recordA ∧ decoder.params = encoder.params ∧ decoder.err = none ∧
    decoder.inq = recordA ++ [] :=
  ⟨plain_inv [a] [] (by decide) (by decide), by decide, by decide, next_of (by decide), by decide⟩

set_option maxRecDepth 4000 in
/-- The cuts at both ends of the head, of the trie and of the record. -/
theorem witness_CutRecordsFaultByPosition :
    Inv encoder ∧ encoder.err = none ∧ encoder.symbuf ≠ [] ∧ exec .encode encoder = .next encoded ∧ encoded.err = none ∧
    encoded.outq = encoder.outq ++ recordA ∧
    ∀ k ∈ [0, 1, 7, 8, 10, 11, 15],
      ({ s0 with inq := recordA.take k } : State).params = encoder.params ∧
      ({ s0 with inq := recordA.take k } : State).err = none ∧ k < recordA.length :=
  ⟨plain_inv [a] [] (by decide) (by decide), by decide, by decide, next_of (by decide), by decide⟩

theorem witness_HeaderCommands :
    s0.err = none ∧ s0.inq.length < 8 ∧
    [0#8, 0#8, 0#8, 0#8, 0#8, 0#8, 0#8, 9#8, 0x55#8] = be64 9#64 ++ [0x55#8] := by decide

end Sys2Proof.Tests
end

section
/-! # Sizes of what the components make

The bounds that the invariant (10_state.md R42) and the exact views rest on: one law per component function, stated
without any state. -/

namespace Sys2Proof.Machine

open Sys2Proof.Rules

/-! ## Tables by symbol -/

theorem length_tableSet_le {α : Type} (k : Sym) (v : α) (t : List (Sym × α)) :
    (tableSet k v t).length ≤ t.length + 1 := by
  induction t with
  | nil => simp [tableSet]
  | cons e t ih =>
    unfold tableSet
    split
    · simp
    · split
      · simp
      · simpa using ih

/-- A table in canonical form whose symbols start at `n` or above has room for `65536 - n` entries. -/
theorem add_length_le_of_keysRise {α : Type} (t : List (Sym × α)) (h : keysRise t = true) (n : Nat)
    (hn : n ≤ 65536) (hlow : ∀ e ∈ t, n ≤ e.1.toNat) : n + t.length ≤ 65536 := by
  induction t generalizing n with
  | nil => exact hn
  | cons e t ih =>
    obtain ⟨k, v⟩ := e
    obtain ⟨hlt, ht⟩ := (keysRise_cons k v t).1 h
    have hk : n ≤ k.toNat := hlow (k, v) (by simp)
    have htail := ih ht (k.toNat + 1) k.isLt hlt
    simp only [List.length_cons]
    omega

/-- `TableBound n f`: no count of `f` is above `n`, and neither is the number of entries (10_state.md R14). -/
def TableBound (n : Nat) (f : FreqTable) : Prop := (∀ e ∈ f, e.2 ≤ n) ∧ f.length ≤ n

theorem freqAt_le_of_forall_le {n : Nat} {f : FreqTable} (h : ∀ e ∈ f, e.2 ≤ n) (x : Sym) : freqAt f x ≤ n := by
  unfold freqAt
  cases hx : tableGet x f with
  | none => exact Nat.zero_le n
  | some v => exact h (x, v) (mem_of_tableGet f x v hx)

theorem tableBound_bumpCount {n : Nat} {f : FreqTable} (h : TableBound n f) (x : Sym) :
    TableBound (n + 1) (bumpCount f x) := by
  obtain ⟨hcount, hlength⟩ := h
  constructor
  · intro e he
    rcases mem_tableSet _ _ _ _ he with rfl | he
    · exact Nat.succ_le_succ (freqAt_le_of_forall_le hcount x)
    · exact Nat.le_succ_of_le (hcount e he)
  · exact (length_tableSet_le _ _ _).trans (Nat.succ_le_succ hlength)

theorem tableBound_foldl_bumpCount (q : List Sym) {n : Nat} {f : FreqTable} (h : TableBound n f) :
    TableBound (n + q.length) (q.foldl bumpCount f) := by
  induction q generalizing n f with
  | nil => exact h
  | cons x q ih =>
    rw [List.length_cons, Nat.add_comm q.length, ← Nat.add_assoc]
    exact ih (tableBound_bumpCount h x)

/-- Counts and entries of `Count(q)` are at most the length of `q` (41_frequency_analyzer.md R91). -/
theorem tableBound_countSymbols (q : List Sym) : TableBound q.length (countSymbols q) := by
  have h := tableBound_foldl_bumpCount q (n := 0) (f := []) ⟨by simp, Nat.le_refl 0⟩
  rwa [Nat.zero_add] at h

/-- With no zero counts listed, `DISTINCT` (10_state.md R30) is the number of entries. -/
theorem distinct_eq_length {f : FreqTable} (h : ∀ e ∈ f, 1 ≤ e.2) : distinct f = f.length := by
  unfold distinct
  rw [List.filter_eq_self.2 fun e he => decide_eq_true (h e he)]

/-! ## Trees -/

theorem leaves_pos (t : Tree) : 1 ≤ leaves t := by
  induction t with
  | leaf x => exact Nat.le_refl 1
  | internal l r ihl ihr => exact Nat.le_add_right_of_le ihl

theorem nodes_add_one (t : Tree) : nodes t + 1 = 2 * leaves t := by
  induction t with
  | leaf x => rfl
  | internal l r ihl ihr => simp only [nodes, leaves]; omega

theorem length_leafSymbols (t : Tree) : (leafSymbols t).length = leaves t := by
  induction t with
  | leaf x => rfl
  | internal l r ihl ihr => simp [leafSymbols, leaves, ihl, ihr]

/-! ## The Trie Builder (42_trie_builder.md R96) -/

theorem popLeast_eq_none (q : List QNode) : popLeast q = none ↔ q = [] := by
  cases q with
  | nil => simp [popLeast]
  | cons x xs =>
    unfold popLeast
    split
    · simp
    · split <;> simp

theorem perm_of_popLeast {q rest : List QNode} {m : QNode} (h : popLeast q = some (m, rest)) : q.Perm (m :: rest) := by
  induction q generalizing m rest with
  | nil => cases h
  | cons x xs ih =>
    unfold popLeast at h
    split at h
    next hnone =>
      obtain ⟨rfl, rfl⟩ : x = m ∧ [] = rest := by simpa using h
      rw [(popLeast_eq_none xs).1 hnone]
    next m' rest' hsome =>
      split at h
      next =>
        obtain ⟨rfl, rfl⟩ : m' = m ∧ x :: rest' = rest := by simpa using h
        exact ((ih hsome).cons x).trans (.swap _ _ _)
      next =>
        obtain ⟨rfl, rfl⟩ : x = m ∧ xs = rest := by simpa using h
        exact .refl _

/-- The symbols of all leaves in a queue of nodes. -/
def queueSymbols (q : List QNode) : List Sym := q.flatMap fun n => leafSymbols n.tree

theorem queueSymbols_perm {p q : List QNode} (h : p.Perm q) : (queueSymbols p).Perm (queueSymbols q) :=
  h.flatMap_right _

/-- A merge keeps the leaves: the new node's are those of the removed pair. -/
theorem queueSymbols_mergeNodes (a b : QNode) (seq : Nat) (q : List QNode) :
    queueSymbols (mergeNodes a b seq :: q) = queueSymbols (a :: b :: q) := by
  simp [queueSymbols, mergeNodes, leafSymbols]

/-- The loop of `Build` returns a tree with the leaves of its queue; the fuel suffices by the bound (log 11). -/
theorem leafSymbols_perm_of_mergeLoop {fuel seq : Nat} {q : List QNode} {t : Tree} (hfuel : q.length ≤ fuel + 1)
    (h : mergeLoop fuel seq q = some t) : (leafSymbols t).Perm (queueSymbols q) := by
  induction fuel generalizing seq q with
  | zero =>
    match q, hfuel, h with
    | [n], _, h =>
      obtain rfl : n.tree = t := by simpa [mergeLoop] using h
      simp [queueSymbols]
  | succ fuel ih =>
    unfold mergeLoop at h
    split at h
    next => cases h
    next a qa ha =>
      have hqa := perm_of_popLeast ha
      split at h
      next hnone =>
        obtain rfl : a.tree = t := by simpa using h
        obtain rfl := (popLeast_eq_none qa).1 hnone
        simpa [queueSymbols] using (queueSymbols_perm hqa).symm
      next b qb hb =>
        have hq : q.Perm (a :: b :: qb) := hqa.trans ((perm_of_popLeast hb).cons a)
        have hlength : (mergeNodes a b seq :: qb).length ≤ fuel + 1 := by
          have := hq.length_eq
          simp only [List.length_cons] at this ⊢
          omega
        have hmerged := ih hlength h
        rw [queueSymbols_mergeNodes] at hmerged
        exact hmerged.trans (queueSymbols_perm hq).symm

theorem queueSymbols_leafQueue (f : FreqTable) :
    queueSymbols (leafQueue f) = (f.filter fun e => decide (1 ≤ e.2)).map (·.1) := by
  simp [queueSymbols, leafQueue, leafSymbols, List.flatMap_map, ← List.map_eq_flatMap]

/-- The leaves of `Build(f)` carry the counted symbols, once each (42_trie_builder.md R98 (a)). -/
theorem leafSymbols_perm_of_buildTree {f : FreqTable} {t : Tree} (h : buildTree f = some t) :
    (leafSymbols t).Perm ((f.filter fun e => decide (1 ≤ e.2)).map (·.1)) := by
  rw [← queueSymbols_leafQueue]
  exact leafSymbols_perm_of_mergeLoop (Nat.le_succ _) h

theorem leaves_of_buildTree {f : FreqTable} {t : Tree} (h : buildTree f = some t) : leaves t = distinct f := by
  rw [← length_leafSymbols, (leafSymbols_perm_of_buildTree h).length_eq, List.length_map, distinct]

/-! ## The Code Table Builder (43_code_table_builder.md R105) -/

/-- A code that `Walk(t, acc)` enters extends `acc` by less than the leaves of `t`. -/
theorem length_of_mem_walkCodes (t : Tree) (acc : Bits) (tab : CodeTable) (e : Sym × Bits)
    (he : e ∈ walkCodes t acc tab) : e ∈ tab ∨ e.2.length + 1 ≤ acc.length + leaves t := by
  induction t generalizing acc tab with
  | leaf x =>
    rcases mem_tableSet _ _ _ _ he with rfl | he
    · exact .inr (Nat.le_refl _)
    · exact .inl he
  | internal l r ihl ihr =>
    have hl := leaves_pos l
    have hr := leaves_pos r
    simp only [leaves]
    rcases ihr _ _ he with he | hlen
    · rcases ihl _ _ he with he | hlen
      · exact .inl he
      · right; simp only [List.length_append, List.length_singleton] at hlen; omega
    · right; simp only [List.length_append, List.length_singleton] at hlen; omega

/-- No code is longer than the tree is deep: one bit for a single leaf, else less than the leaves (10_state.md R15). -/
theorem length_of_mem_codesOf {t : Tree} {e : Sym × Bits} (he : e ∈ codesOf t) :
    e.2.length ≤ max 1 (leaves t - 1) := by
  cases t with
  | leaf x =>
    obtain rfl : e = (x, [false]) := by simpa [codesOf] using he
    exact Nat.le_refl 1
  | internal l r =>
    rcases length_of_mem_walkCodes _ _ _ _ he with he | hlen
    · cases he
    · simp only [List.length_nil] at hlen; omega

/-! ## The Bit Packer and Unpacker (44_bit_packer_unpacker.md R111, R112) -/

theorem length_packBits (bits : Bits) : (packBits bits).length = ceilDiv bits.length 8 := by simp [packBits]

theorem le_mul_ceilDiv (n : Nat) : n ≤ 8 * ceilDiv n 8 := by unfold ceilDiv; omega

theorem lt_of_bitAt {p : List Byte} {j : Nat} {b : Bool} (h : bitAt p j = some b) : j < 8 * p.length := by
  obtain ⟨byte, hbyte, -⟩ := Option.map_eq_some_iff.1 h
  obtain ⟨hj, -⟩ := List.getElem?_eq_some_iff.1 hbyte
  omega

theorem le_of_descend {p : List Byte} {t : Tree} {pos pos' : Nat} {x : Sym} (h : descend p t pos = some (x, pos'))
    (hpos : pos ≤ 8 * p.length) : pos' ≤ 8 * p.length := by
  induction t generalizing pos with
  | leaf y =>
    obtain ⟨-, rfl⟩ : y = x ∧ pos = pos' := by simpa [descend] using h
    exact hpos
  | internal l r ihl ihr =>
    unfold descend at h
    split at h
    next => cases h
    next hbit => exact ihl h (lt_of_bitAt hbit)
    next hbit => exact ihr h (lt_of_bitAt hbit)

theorem le_of_unpackOne {p : List Byte} {t : Tree} {pos pos' : Nat} {x : Sym}
    (h : unpackOne p t pos = some (x, pos')) (hpos : pos ≤ 8 * p.length) : pos' ≤ 8 * p.length := by
  cases t with
  | leaf y =>
    simp only [unpackOne] at h
    split at h
    next => cases h
    next hroom =>
      obtain ⟨-, rfl⟩ : y = x ∧ pos + 1 = pos' := by simpa using h
      exact Nat.lt_of_not_le hroom
  | internal l r => exact le_of_descend h hpos

theorem bounds_of_unpackFrom {p : List Byte} {t : Tree} {n pos last : Nat} {out : List Sym}
    (h : unpackFrom p t n pos = some (out, last)) (hpos : pos ≤ 8 * p.length) :
    out.length = n ∧ last ≤ 8 * p.length := by
  induction n generalizing pos out with
  | zero =>
    obtain ⟨rfl, rfl⟩ : [] = out ∧ pos = last := by simpa [unpackFrom] using h
    exact ⟨rfl, hpos⟩
  | succ n ih =>
    unfold unpackFrom at h
    split at h
    next => cases h
    next x pos' hone =>
      split at h
      next => cases h
      next out' last' hrest =>
        obtain ⟨rfl, rfl⟩ : x :: out' = out ∧ last' = last := by simpa using h
        obtain ⟨hlength, hlast⟩ := ih hrest (le_of_unpackOne hone hpos)
        exact ⟨by rw [List.length_cons, hlength], hlast⟩

/-- `Unpack` delivers `n` symbols and stays inside the payload (R112, R115). -/
theorem bounds_of_unpackBits {p : List Byte} {t : Tree} {n pos : Nat} {out : List Sym}
    (h : unpackBits p t n = some (out, pos)) : out.length = n ∧ pos ≤ 8 * p.length :=
  bounds_of_unpackFrom h (Nat.zero_le _)

/-! ## The Trie Deserializer (45_trie_serializer.md R123) -/

theorem length_of_inTake {n : Nat} {q b rest : List Byte} (h : inTake n q = some (b, rest)) :
    b.length = n ∧ q.length = n + rest.length := by
  obtain ⟨rfl, rfl⟩ := (inTake_eq_some _ _ _ _).1 h
  exact ⟨rfl, List.length_append⟩

/-- `Parse` counts the nodes of the tree it returns, at most `NODE_MAX`, and takes at least one byte for each. -/
theorem bounds_of_parseNode {nodeMax fuel cnt last : Nat} {q rest : List Byte} {t : Tree}
    (h : parseNode nodeMax fuel cnt q = .tree t last rest) :
    last = cnt + nodes t ∧ last ≤ nodeMax ∧ nodes t + rest.length ≤ q.length := by
  induction fuel generalizing cnt last q rest t with
  | zero => cases h
  | succ fuel ih =>
    unfold parseNode at h
    split at h
    next => cases h
    next f q₁ hflag =>
      have hq := (length_of_inTake hflag).2
      split at h
      next => cases h
      next hroom =>
        split at h
        next =>
          split at h
          next => cases h
          next x q₂ hsym =>
            have hq₁ := (length_of_inTake hsym).2
            obtain ⟨rfl, rfl, rfl⟩ := Parsed.tree.inj h
            simp only [nodes, true_and]
            omega
        next =>
          split at h
          next =>
            split at h
            next => cases h
            next => cases h
            next l cl ql hl =>
              split at h
              next => cases h
              next => cases h
              next r cr qr hr =>
                obtain ⟨rfl, rfl, rfl⟩ := Parsed.tree.inj h
                have := ih hl
                have := ih hr
                simp only [nodes]
                omega
          next => cases h

theorem bounds_of_parseTree {nodeMax cnt : Nat} {q rest : List Byte} {t : Tree}
    (h : parseTree nodeMax q = .tree t cnt rest) : nodes t ≤ nodeMax ∧ nodes t + rest.length ≤ q.length := by
  have := bounds_of_parseNode h
  omega

end Sys2Proof.Machine
end

section
/-! # What a completed command did

The rules of Laws/Commands.lean gathered into one relation: every way a command completes, with the checks it passed and
the state it leaves, the two composite commands written out to their end. -/

namespace Sys2Proof.Machine

/-- `Completes s i t`: from `s` the rule of command `i` completes in `t`. -/
inductive Completes (s : State) : Instr → State → Prop
  | nop : Completes s .nop s
  | sreset : Completes s .sreset (resetAll s)
  | clrchunk : Completes s .clrchunk (clearChunk s)
  | clrin : Completes s .clrin { s with inq := [], eoc := false }
  | pushs (x : Sym) (room : s.symbuf.length ≠ s.params.chunkMax) :
      Completes s (.pushs x) { s with symbuf := s.symbuf ++ [x] }
  | pushb (b : Byte) (room : s.inq.length ≠ s.params.inqMax) :
      Completes s (.pushb b) { s with inq := s.inq ++ [b] }
  | freq : Completes s .freq (countChunk s)
  | build (tr : Tree) (counted : s.freqV = true) (built : buildTree s.freq = some tr) :
      Completes s .build { s with trie := some tr, trieV := true }
  | codes (tr : Tree) (valid : validTrie s = some tr) :
      Completes s .codes { s with code := codesOf tr, codeV := true }
  | pack (bits : Bits) (coded : s.codeV = true) (packed : chunkBits s.code s.symbuf = some bits)
      (fits : ceilDiv bits.length 8 ≤ s.params.payMax) :
      Completes s .pack { s with
        paybuf := packBits bits
        bitcnt := BitVec.ofNat 64 bits.length
        recLen := countWord s.symbuf.length
        payV := true }
  | unpack (tr : Tree) (out : List Sym) (pos : Nat) (valid : validTrie s = some tr) (paid : s.payV = true)
      (fits : s.recLen.toNat ≤ s.params.chunkMax)
      (unpacked : unpackBits s.paybuf tr s.recLen.toNat = some (out, pos)) :
      Completes s .unpack { s with
        symbuf := out
        bitcnt := BitVec.ofNat 64 pos
        proc := s.proc + s.recLen.setWidth 64 }
  | sertrie (tr : Tree) (valid : validTrie s = some tr)
      (room : s.outq.length + (serialize tr).length ≤ s.params.outqMax) :
      Completes s .sertrie { s with outq := s.outq ++ serialize tr }
  | desertrie (tr : Tree) (cnt : Nat) (rest : List Byte)
      (parsed : parseTree s.params.nodeMax s.inq = .tree tr cnt rest) :
      Completes s .desertrie { s with inq := rest, trie := some tr, trieV := true }
  | wrhead (counted : s.recLen ≠ 0#32) (room : s.outq.length + (headBytes s).length ≤ s.params.outqMax) :
      Completes s .wrhead { s with outq := s.outq ++ headBytes s, chunkIdx := s.chunkIdx + 1#32 }
  | wrpay (paid : s.payV = true) (room : s.outq.length + (payBytes s).length ≤ s.params.outqMax) :
      Completes s .wrpay { s with outq := s.outq ++ payBytes s }
  | emitrec (tr : Tree) (valid : validTrie s = some tr) (paid : s.payV = true) (counted : s.recLen ≠ 0#32)
      (room : s.outq.length + (recordBytes tr s).length ≤ s.params.outqMax) :
      Completes s .emitrec { s with outq := s.outq ++ recordBytes tr s, chunkIdx := s.chunkIdx + 1#32 }
  | encodeNone (empty : s.symbuf = []) : Completes s .encode (clearChunk s)
  | encode (tr : Tree) (bits : Bits) (record : List Byte) (chunk : s.symbuf ≠ [])
      (built : buildTree (countSymbols s.symbuf) = some tr)
      (packed : chunkBits (codesOf tr) s.symbuf = some bits) (fits : ceilDiv bits.length 8 ≤ s.params.payMax)
      (counted : countWord s.symbuf.length ≠ 0#32)
      (written : record =
        recordBytes tr { s with recLen := countWord s.symbuf.length, paybuf := packBits bits })
      (room : s.outq.length + record.length ≤ s.params.outqMax) :
      Completes s .encode { clearChunk s with
        outq := s.outq ++ record
        chunkIdx := s.chunkIdx + 1#32
        recLen := countWord s.symbuf.length }
  | rdheadNone (empty : s.inq = []) : Completes s .rdhead { s with eoc := true }
  | rdhead (head rest : List Byte) (taken : inTake 8 s.inq = some (head, rest)) :
      Completes s .rdhead { s with
        eoc := false
        inq := rest
        recIdx := BitVec.ofNat 32 (fromBE (head.take 4))
        recLen := BitVec.ofNat 32 (fromBE (head.drop 4)) }
  | rdpay (len q payload rest : List Byte) (lengthTaken : inTake 4 s.inq = some (len, q))
      (fits : fromBE len ≤ s.params.payMax) (taken : inTake (fromBE len) q = some (payload, rest)) :
      Completes s .rdpay { s with inq := rest, paybuf := payload, bitcnt := 0#64, payV := true }
  | decodeNone (empty : s.inq = []) : Completes s .decode { s with eoc := true }
  | decode (head q₁ q₂ len q₃ payload rest : List Byte) (tr : Tree) (cnt pos : Nat) (n : Word) (out : List Sym)
      (headTaken : inTake 8 s.inq = some (head, q₁))
      (parsed : parseTree s.params.nodeMax q₁ = .tree tr cnt q₂)
      (lengthTaken : inTake 4 q₂ = some (len, q₃)) (payFits : fromBE len ≤ s.params.payMax)
      (payTaken : inTake (fromBE len) q₃ = some (payload, rest))
      (count : n = BitVec.ofNat 32 (fromBE (head.drop 4))) (chunkFits : n.toNat ≤ s.params.chunkMax)
      (unpacked : unpackBits payload tr n.toNat = some (out, pos)) :
      Completes s .decode { clearWork s with
        eoc := false
        inq := rest
        symbuf := out
        recIdx := BitVec.ofNat 32 (fromBE (head.take 4))
        recLen := n
        proc := s.proc + n.setWidth 64 }
  | wrhdr (room : s.outq.length + (be64 s.total).length ≤ s.params.outqMax) :
      Completes s .wrhdr { s with outq := s.outq ++ be64 s.total, chunkIdx := 0#32 }
  | rdhdr (head rest : List Byte) (taken : inTake 8 s.inq = some (head, rest)) :
      Completes s .rdhdr { s with
        inq := rest, total := BitVec.ofNat 64 (fromBE head), proc := 0#64, eoc := false }

/-- `ENCODE` (46_chunk_codec.md R134), its five rules run through. -/
theorem completes_of_encodeChunk {s t : State} (ht : encodeChunk s = .ok t) : Completes s .encode t := by
  rcases (encodeChunk_ok _ _).1 ht with ⟨hempty, rfl⟩ | ⟨hchunk, s₁, s₂, s₃, s₄, h1, h2, h3, h4, rfl⟩
  · exact .encodeNone hempty
  · obtain ⟨-, tr, hbuilt, rfl⟩ := (buildTrie_ok _ _).1 h1
    obtain ⟨tr₂, hvalid, rfl⟩ := (makeCodes_ok _ _).1 h2
    obtain rfl : tr = tr₂ := by simpa [validTrie] using hvalid
    obtain ⟨-, bits, hpacked, hfits, rfl⟩ := (packChunk_ok _ _).1 h3
    obtain ⟨tr₄, hvalid₄, -, hcounted, hroom, rfl⟩ := (emitRecord_ok _ _).1 h4
    obtain rfl : tr = tr₄ := by simpa [validTrie] using hvalid₄
    exact .encode tr bits _ hchunk hbuilt hpacked hfits hcounted rfl hroom

/-- `DECODE` (46_chunk_codec.md R140), its four rules run through. -/
theorem completes_of_decode {s t : State} (ht : atRecordStart decodeRecord s = .ok t) : Completes s .decode t := by
  rcases (atRecordStart_ok _ _ _).1 ht with ⟨hempty, rfl⟩ | ⟨-, hbody⟩
  · exact .decodeNone hempty
  · obtain ⟨s₁, s₂, s₃, s₄, h1, h2, h3, h4, rfl⟩ := (decodeRecord_ok _ _).1 hbody
    obtain ⟨head, q₁, hhead, rfl⟩ := (readHead_ok _ _).1 h1
    obtain ⟨tr, cnt, q₂, hparsed, rfl⟩ := (readTrie_ok _ _).1 h2
    obtain ⟨len, q₃, payload, rest, hlen, hpayFits, hpay, rfl⟩ := (readPay_ok _ _).1 h3
    obtain ⟨tr₃, hvalid, -, hchunkFits, out, pos, hunpacked, rfl⟩ := (unpackPayload_ok _ _).1 h4
    obtain rfl : tr = tr₃ := by simpa [validTrie] using hvalid
    exact .decode head q₁ q₂ len q₃ payload rest tr cnt pos _ out hhead hparsed hlen hpayFits hpay rfl hchunkFits
      hunpacked

/-- A rule that completes does so in one of the ways listed. -/
theorem completes_of_commandRule {i : Instr} {s t : State} (ht : commandRule i s = .ok t) : Completes s i t := by
  cases i with
  | nop => obtain rfl := (ok_iff _ _).1 ht; exact .nop
  | sreset => obtain rfl := (ok_iff _ _).1 ht; exact .sreset
  | clrchunk => obtain rfl := (ok_iff _ _).1 ht; exact .clrchunk
  | clrin => obtain rfl := (ok_iff _ _).1 ht; exact .clrin
  | freq => obtain rfl := (ok_iff _ _).1 ht; exact .freq
  | pushs x => obtain ⟨hroom, rfl⟩ := (pushSymbol_ok _ _ _).1 ht; exact .pushs x hroom
  | pushb b => obtain ⟨hroom, rfl⟩ := (pushByte_ok _ _ _).1 ht; exact .pushb b hroom
  | build => obtain ⟨hcounted, tr, hbuilt, rfl⟩ := (buildTrie_ok _ _).1 ht; exact .build tr hcounted hbuilt
  | codes => obtain ⟨tr, hvalid, rfl⟩ := (makeCodes_ok _ _).1 ht; exact .codes tr hvalid
  | pack =>
    obtain ⟨hcoded, bits, hpacked, hfits, rfl⟩ := (packChunk_ok _ _).1 ht
    exact .pack bits hcoded hpacked hfits
  | unpack =>
    obtain ⟨tr, hvalid, hpaid, hfits, out, pos, hunpacked, rfl⟩ := (unpackPayload_ok _ _).1 ht
    exact .unpack tr out pos hvalid hpaid hfits hunpacked
  | sertrie =>
    obtain ⟨tr, hvalid, hout⟩ := (writeTrie_ok _ _).1 ht
    obtain ⟨hroom, rfl⟩ := (outPut_eq_ok _ _ _).1 hout
    exact .sertrie tr hvalid hroom
  | desertrie => obtain ⟨tr, cnt, rest, hparsed, rfl⟩ := (readTrie_ok _ _).1 ht; exact .desertrie tr cnt rest hparsed
  | wrhead => obtain ⟨hcounted, hroom, rfl⟩ := (writeHead_ok _ _).1 ht; exact .wrhead hcounted hroom
  | wrpay =>
    obtain ⟨hpaid, hout⟩ := (writePay_ok _ _).1 ht
    obtain ⟨hroom, rfl⟩ := (outPut_eq_ok _ _ _).1 hout
    exact .wrpay hpaid hroom
  | emitrec =>
    obtain ⟨tr, hvalid, hpaid, hcounted, hroom, rfl⟩ := (emitRecord_ok _ _).1 ht
    exact .emitrec tr hvalid hpaid hcounted hroom
  | encode => exact completes_of_encodeChunk ht
  | rdhead =>
    rcases (atRecordStart_ok _ _ _).1 ht with ⟨hempty, rfl⟩ | ⟨-, hbody⟩
    · exact .rdheadNone hempty
    · obtain ⟨head, rest, htaken, rfl⟩ := (readHead_ok _ _).1 hbody
      exact .rdhead head rest htaken
  | rdpay =>
    obtain ⟨len, q, payload, rest, hlen, hfits, htaken, rfl⟩ := (readPay_ok _ _).1 ht
    exact .rdpay len q payload rest hlen hfits htaken
  | decode => exact completes_of_decode ht
  | wrhdr => obtain ⟨hroom, rfl⟩ := (writeHeader_ok _ _).1 ht; exact .wrhdr hroom
  | rdhdr => obtain ⟨head, rest, htaken, rfl⟩ := (readHeader_ok _ _).1 ht; exact .rdhdr head rest htaken

/-- Everything a command other than `SRESET` can do: nothing in the faulted state, else complete or enter a fault. -/
theorem exec_outcomes {i : Instr} {s t : State} (h : exec i s = .next t) (hi : i ≠ .sreset) :
    (s.err ≠ none ∧ t = s) ∨ (s.err = none ∧ Completes s i t) ∨
    (s.err = none ∧ ∃ e, t = faultEntry e (encode i) (commandBase i s)) := by
  rcases exec_cases h with ⟨hsreset, -⟩ | ⟨-, hfaulted, rfl⟩ | ⟨-, hrun, hok⟩ | ⟨-, hrun, e, -, rfl⟩
  · exact absurd hsreset hi
  · exact .inl ⟨hfaulted, rfl⟩
  · exact .inr (.inl ⟨hrun, completes_of_commandRule hok⟩)
  · exact .inr (.inr ⟨hrun, e, rfl⟩)

end Sys2Proof.Machine
end

section
/-! # The invariant

10_state.md R42 holds at reset and is kept by every step. A case below names the conjuncts that the update touches; the
others are those of the state before. -/

namespace Sys2Proof.Machine

/-! ## What the invariant gives -/

/-- The ranges of 00_scope.md R5 as a conjunction. -/
theorem params_wf_iff (p : Config.Params) :
    p.wf = true ↔
      1 ≤ p.chunkMax ∧ p.chunkMax ≤ 2 ^ 32 - 1 ∧ 1 ≤ p.payMax ∧ p.payMax ≤ 2 ^ 32 - 1 ∧
      2 * min p.chunkMax 65536 - 1 ≤ p.nodeMax ∧ 1 ≤ p.inqMax ∧ p.inqMax ≤ 2 ^ 32 - 1 ∧
      1 ≤ p.outqMax ∧ p.outqMax ≤ 2 ^ 32 - 1 ∧ p.base % 256 = 0 := by
  simp only [Config.Params.wf, Bool.and_eq_true, decide_eq_true_eq, and_assoc]

/-- A trie built from the table of counts fits the trie store and `NODE_COUNT` (10_state.md R12, R31). -/
theorem nodes_le_of_buildTree {s : State} (h : Inv s) {tr : Tree} (hb : buildTree s.freq = some tr) :
    nodes tr ≤ s.params.nodeMax ∧ nodes tr ≤ 2 ^ 32 - 1 := by
  obtain ⟨⟨hrise, hpos⟩, -⟩ := (memory_wf_iff s).1 h.memory
  obtain ⟨-, -, -, -, hnodeMax, -⟩ := (params_wf_iff _).1 h.params
  have hsymbols : s.freq.length ≤ 65536 := by
    simpa using add_length_le_of_keysRise s.freq hrise 0 (by decide) fun _ _ => Nat.zero_le _
  have hchunk := h.distinct_le
  have hleaves : leaves tr = s.freq.length := (leaves_of_buildTree hb).trans (distinct_eq_length hpos)
  have hnodes := nodes_add_one tr
  omega

/-- A trie read from `INQ` fits the trie store and `NODE_COUNT`, and no byte is added to `INQ`. -/
theorem nodes_le_of_parseTree {s : State} (h : Inv s) {tr : Tree} {cnt : Nat} {rest : List Byte}
    (hp : parseTree s.params.nodeMax s.inq = .tree tr cnt rest) :
    nodes tr ≤ s.params.nodeMax ∧ nodes tr ≤ 2 ^ 32 - 1 ∧ rest.length ≤ s.params.inqMax := by
  obtain ⟨-, -, -, -, -, -, hinqMax, -⟩ := (params_wf_iff _).1 h.params
  have hbounds := bounds_of_parseTree hp
  have hinq := h.inq_le
  omega

/-- The codes of the stored trie are no longer than 10_state.md R15 allows (log 13). -/
theorem length_code_le {s : State} (h : Inv s) {tr : Tree} (hv : validTrie s = some tr) (e : Sym × Bits)
    (he : e ∈ codesOf tr) : e.2.length ≤ max 1 (min s.params.nodeMax (2 ^ 32 - 1) / 2) := by
  obtain ⟨-, htrie⟩ := (validTrie_eq_some s tr).1 hv
  have hnodeMax := h.nodes_le
  have hfit := h.nodes_fit
  simp only [htrie, nodeCount] at hnodeMax hfit
  have hlength := length_of_mem_codesOf he
  have hnodes := nodes_add_one tr
  omega

/-! ## Reset, clearing and fault entry -/

theorem inv_resetWith {p : Config.Params} (hp : p.wf = true) : Inv (State.resetWith p) where
  params := hp
  memory := memory_wf_resetWith p
  freq_le := List.forall_mem_nil _
  distinct_le := Nat.zero_le _
  freq_clear := fun _ _ => rfl
  trie_flag := by simp [State.resetWith]
  code_clear := fun _ _ => rfl
  pay_clear := fun _ => ⟨rfl, rfl⟩
  bitcnt_le := Nat.zero_le _
  symbuf_le := Nat.zero_le _
  paybuf_le := Nat.zero_le _
  inq_le := Nat.zero_le _
  outq_le := Nat.zero_le _
  nodes_le := Nat.zero_le _
  nodes_fit := Nat.zero_le _
  code_le := List.forall_mem_nil _
  faulted := fun he => absurd rfl he
  errinfo_clear := fun _ => rfl

theorem inv_resetAll {s : State} (h : Inv s) : Inv (resetAll s) :=
  { inv_resetWith h.params with }

theorem inv_clearWork {s : State} (h : Inv s) : Inv (clearWork s) :=
  { h with
    memory := memory_wf_clearWork s
    freq_le := List.forall_mem_nil _
    distinct_le := Nat.zero_le _
    freq_clear := fun _ _ => rfl
    trie_flag := by simp
    code_clear := fun _ _ => rfl
    pay_clear := fun _ => ⟨rfl, rfl⟩
    bitcnt_le := Nat.zero_le _
    paybuf_le := Nat.zero_le _
    nodes_le := Nat.zero_le _
    nodes_fit := Nat.zero_le _
    code_le := List.forall_mem_nil _
    faulted := fun he =>
      have ⟨hsymbuf, hinq, _⟩ := h.faulted he
      ⟨hsymbuf, hinq, rfl, rfl, rfl, rfl⟩ }

theorem inv_clearChunk {s : State} (h : Inv s) : Inv (clearChunk s) :=
  { inv_clearWork h with
    symbuf_le := Nat.zero_le _
    faulted := fun he =>
      have ⟨_, hinq, hflags⟩ := (inv_clearWork h).faulted he
      ⟨rfl, hinq, hflags⟩ }

theorem inv_faultEntry {s : State} (h : Inv s) (e : ErrKind) (w : Word) : Inv (faultEntry e w s) :=
  { inv_clearChunk h with
    inq_le := Nat.zero_le _
    faulted := fun _ => ⟨rfl, rfl, rfl, rfl, rfl, rfl⟩
    errinfo_clear := fun he => nomatch he }

theorem inv_commandBase {s : State} (h : Inv s) (i : Instr) : Inv (commandBase i s) := by
  obtain ⟨e, he⟩ := commandBase_frame i s
  rw [he]
  exact { h with }

/-! ## Commands -/

theorem inv_countChunk {s : State} (h : Inv s) (hrun : s.err = none) : Inv (countChunk s) :=
  have ⟨hcount, hlength⟩ := tableBound_countSymbols s.symbuf
  { h with
    memory := memory_wf_countChunk s h.memory
    freq_le := fun e he => (hcount e he).trans h.symbuf_le
    distinct_le := hlength.trans h.symbuf_le
    freq_clear := fun hv => nomatch hv
    faulted := fun he => absurd hrun he }

/-- A completed command keeps the invariant. -/
theorem inv_of_completes {i : Instr} {s t : State} (h : Inv s) (hrun : s.err = none) (hc : Completes s i t) :
    Inv t := by
  cases hc with
  | nop => exact h
  | sreset => exact inv_resetAll h
  | clrchunk | encodeNone => exact inv_clearChunk h
  | clrin => exact { h with inq_le := Nat.zero_le _, faulted := fun he => absurd hrun he }
  | freq => exact inv_countChunk h hrun
  | rdheadNone | decodeNone => exact { h with }
  | pushs x hroom =>
    exact { h with
      symbuf_le := by rw [List.length_append]; exact Nat.lt_of_le_of_ne h.symbuf_le hroom
      faulted := fun he => absurd hrun he }
  | pushb b hroom =>
    exact { h with
      inq_le := by rw [List.length_append]; exact Nat.lt_of_le_of_ne h.inq_le hroom
      faulted := fun he => absurd hrun he }
  | build tr hcounted hbuilt =>
    obtain ⟨hle, hfit⟩ := nodes_le_of_buildTree h hbuilt
    exact { h with
      trie_flag := by simp
      nodes_le := hle
      nodes_fit := hfit
      faulted := fun he => absurd hrun he }
  | codes tr hvalid =>
    exact { h with
      memory := (memory_wf_iff _).2 ⟨((memory_wf_iff s).1 h.memory).1, codesOf_canonical tr⟩
      code_clear := fun hv => nomatch hv
      code_le := length_code_le h hvalid
      faulted := fun he => absurd hrun he }
  | pack bits hcoded hpacked hfits =>
    exact { h with
      pay_clear := fun hv => nomatch hv
      bitcnt_le := by
        simp only [BitVec.toNat_ofNat, length_packBits]
        exact (Nat.mod_le _ _).trans (le_mul_ceilDiv _)
      paybuf_le := by rwa [length_packBits]
      faulted := fun he => absurd hrun he }
  | unpack tr out pos hvalid hpaid hfits hunpacked =>
    obtain ⟨hlength, hpos⟩ := bounds_of_unpackBits hunpacked
    exact { h with
      pay_clear := fun hv => absurd hpaid (by simpa using hv)
      bitcnt_le := by
        simp only [BitVec.toNat_ofNat]
        exact (Nat.mod_le _ _).trans hpos
      symbuf_le := by rwa [hlength]
      faulted := fun he => absurd hrun he }
  | sertrie tr hvalid hroom | wrpay hpaid hroom | wrhdr hroom | wrhead hcounted hroom
  | emitrec tr hvalid hpaid hcounted hroom =>
    exact { h with outq_le := by simpa using hroom }
  | desertrie tr cnt rest hparsed =>
    obtain ⟨hle, hfit, hinq⟩ := nodes_le_of_parseTree h hparsed
    exact { h with
      trie_flag := by simp
      inq_le := hinq
      nodes_le := hle
      nodes_fit := hfit
      faulted := fun he => absurd hrun he }
  | encode tr bits record hchunk hbuilt hpacked hfits hcounted hwritten hroom =>
    exact { inv_clearChunk h with outq_le := by simpa using hroom }
  | rdhead head rest htaken | rdhdr head rest htaken =>
    have hinq := h.inq_le
    have hrest := (length_of_inTake htaken).2
    exact { h with
      inq_le := by simp only; omega
      faulted := fun he => absurd hrun he }
  | rdpay len q payload rest hlen hfits htaken =>
    have hinq := h.inq_le
    have hq := (length_of_inTake hlen).2
    obtain ⟨hpayload, hrest⟩ := length_of_inTake htaken
    exact { h with
      pay_clear := fun hv => nomatch hv
      bitcnt_le := Nat.zero_le _
      paybuf_le := by rwa [hpayload]
      inq_le := by simp only; omega
      faulted := fun he => absurd hrun he }
  | decode head q₁ q₂ len q₃ payload rest tr cnt pos n out hhead hparsed hlen hpayFits hpay hn hchunkFits hunpacked =>
    have hinq := h.inq_le
    have hq₁ := (length_of_inTake hhead).2
    have hq₂ := (bounds_of_parseTree hparsed).2
    have hq₃ := (length_of_inTake hlen).2
    have hrest := (length_of_inTake hpay).2
    exact { inv_clearWork h with
      symbuf_le := by rwa [(bounds_of_unpackBits hunpacked).1]
      inq_le := by simp only [clearWork_params]; omega
      faulted := fun he => absurd hrun he }

/-- Every command keeps the invariant. -/
theorem inv_exec {i : Instr} {s t : State} (h : Inv s) (ht : exec i s = .next t) : Inv t := by
  rcases exec_cases ht with ⟨-, rfl⟩ | ⟨-, -, rfl⟩ | ⟨-, hrun, hok⟩ | ⟨-, -, e, -, rfl⟩
  · exact inv_resetAll h
  · exact h
  · exact inv_of_completes h hrun (completes_of_commandRule hok)
  · exact inv_faultEntry (inv_commandBase h i) _ _

/-! ## Transactions -/

/-- A read keeps the invariant; the two pops only shorten their queue, which is empty in the faulted state. -/
theorem inv_readReg {s : State} (h : Inv s) (r : Reg) : Inv (readReg r s).2 := by
  cases r with
  | byteOut =>
    have hlength := h.outq_le
    simp only [readReg, popByteOut]
    split
    next => exact h
    next b rest hq =>
      rw [hq, List.length_cons] at hlength
      exact { h with outq_le := Nat.le_of_succ_le hlength }
  | symOut =>
    have hlength := h.symbuf_le
    simp only [readReg, popSymOut]
    split
    next => exact h
    next x rest hq =>
      rw [hq, List.length_cons] at hlength
      exact { h with
        symbuf_le := Nat.le_of_succ_le hlength
        faulted := fun he => by simp [(h.faulted he).1] at hq }
  | _ => exact h

/-- A write of a register other than `CMD` touches nothing the invariant speaks of. -/
theorem inv_writeDataReg {s : State} (h : Inv s) (r : Reg) (v : Word) : Inv (writeDataReg r v s) := by
  cases r with
  | chunkIdx | recLen | totalLo | totalHi | qsym => exact { h with }
  | _ => exact h

theorem inv_writeCmd {s t : State} (h : Inv s) (w : Word) (ht : writeCmd w s = .next t) : Inv t := by
  unfold writeCmd at ht
  split at ht
  next i _ => exact inv_exec h ht
  next =>
    split at ht
    next => cases ht; exact h
    next => cases ht; exact inv_faultEntry h _ _

theorem inv_writeReg {s t : State} (h : Inv s) (r : Reg) (v : Word) (ht : writeReg r v s = .next t) : Inv t := by
  rcases writeReg_cases r v s with ⟨-, hw⟩ | ⟨-, hw⟩
  · exact inv_writeCmd h v (hw ▸ ht)
  · cases hw ▸ ht
    exact inv_writeDataReg h r v

/-- Every transaction keeps the invariant. -/
theorem inv_perform {s t : State} (h : Inv s) (x : Txn) (ht : perform x s = .next t) : Inv t := by
  cases x with
  | hardwareReset => cases ht; exact inv_resetAll h
  | read addr n =>
    simp only [perform] at ht
    split at ht
    next => cases ht
    next r _ => cases ht; exact { inv_readReg h r with }
  | write addr n v =>
    simp only [perform] at ht
    split at ht
    next => cases ht
    next r _ => exact inv_writeReg h r v ht

/-! ## Settled -/

/-- Settles O17: reset empties every buffer and clears every flag. -/
theorem invariantHoldsAtReset : Obligations.InvariantHoldsAtReset :=
  ⟨fun _ hp => inv_resetWith hp, inv_resetWith (by decide)⟩

/-- Settles O18: a step is idle or performs one transaction, and every transaction keeps the invariant. -/
theorem everyStepKeepsTheInvariant : Obligations.EveryStepKeepsTheInvariant := by
  intro s t h ht
  unfold step nextTransaction at ht
  split at ht
  next => cases ht; exact h
  next x rest _ =>
    have hrest : Inv { s with pending := rest } := { h with }
    exact inv_perform hrest x ht

end Sys2Proof.Machine
end

section
/-! # Registers

What the host reads (10_state.md R19 to R37) and which commands write which register. -/

namespace Sys2Proof.Machine

open Sys2Proof.Rules

/-! ## Values in registers -/

theorem toNat_countWord {n : Nat} (h : n ≤ 2 ^ 32 - 1) : (countWord n).toNat = n := by
  simp only [countWord, BitVec.toNat_ofNat]
  omega

/-- The two halves of a register pair make its 64-bit value (20_memory.md R50). -/
theorem toNat_halves (d : DWord) :
    (d.extractLsb' 32 32).toNat * 2 ^ 32 + (d.extractLsb' 0 32).toNat = d.toNat := by
  have := d.isLt
  simp only [BitVec.extractLsb'_toNat, Nat.shiftRight_eq_div_pow]
  omega

theorem toNat_errWord (s : State) : (errWord s).toNat = match s.err with | none => 0 | some e => faultCode e := by
  unfold errWord
  cases s.err with
  | none => rfl
  | some e => cases e <;> rfl

/-- `VALID` in bit 8 above a byte (10_state.md R35). -/
theorem toNat_valid_byte (b : Byte) : (0x00000100#32 + b.setWidth 32).toNat = 0x100 + b.toNat := by
  have := b.isLt
  simp only [BitVec.toNat_add, BitVec.toNat_setWidth, BitVec.toNat_ofNat]
  omega

/-- `VALID` in bit 16 above a symbol (10_state.md R36). -/
theorem toNat_valid_symbol (x : Sym) : (0x00010000#32 + x.setWidth 32).toNat = 0x10000 + x.toNat := by
  have := x.isLt
  simp only [BitVec.toNat_add, BitVec.toNat_setWidth, BitVec.toNat_ofNat]
  omega

theorem readReg_byteOut_nil {s : State} (h : s.outq = []) : readReg .byteOut s = (0#32, s) := by
  simp [readReg, popByteOut, h]

theorem readReg_byteOut_cons {s : State} {b : Byte} {rest : List Byte} (h : s.outq = b :: rest) :
    readReg .byteOut s = (0x00000100#32 + b.setWidth 32, { s with outq := rest }) := by
  simp [readReg, popByteOut, h]

theorem readReg_symOut_nil {s : State} (h : s.symbuf = []) : readReg .symOut s = (0#32, s) := by
  simp [readReg, popSymOut, h]

theorem readReg_symOut_cons {s : State} {x : Sym} {rest : List Sym} (h : s.symbuf = x :: rest) :
    readReg .symOut s = (0x00010000#32 + x.setWidth 32, { s with symbuf := rest }) := by
  simp [readReg, popSymOut, h]

theorem readReg_state_of_not_pop {r : Reg} (hb : r ≠ .byteOut) (hs : r ≠ .symOut) (s : State) :
    (readReg r s).2 = s := by
  cases r with
  | byteOut => exact absurd rfl hb
  | symOut => exact absurd rfl hs
  | _ => rfl

/-- Settles O9: each pop by the queue it reads, empty or not. -/
theorem popReadsRemoveTheHead : Obligations.PopReadsRemoveTheHead := by
  refine ⟨fun s b rest h => ⟨_, toNat_valid_byte b, ?_⟩, fun s h => ?_,
    fun s x rest h => ⟨_, toNat_valid_symbol x, ?_⟩, fun s h => ?_⟩ <;> rw [perform_rdTxn]
  · rw [readReg_byteOut_cons h, recordRead]
  · rw [readReg_byteOut_nil h, recordRead]
  · rw [readReg_symOut_cons h, recordRead]
  · rw [readReg_symOut_nil h, recordRead]

/-- Settles O10: only the two pops answer a state other than the one they read. -/
theorem otherReadsChangeNothing : Obligations.OtherReadsChangeNothing := by
  intro s r hb hs
  rw [perform_rdTxn, readReg_state_of_not_pop hb hs, recordRead]

/-- Settles O13: the register pairs by their halves, `ERR` by the code of each kind. -/
theorem registersReadTheirValues : Obligations.RegistersReadTheirValues := by
  intro s
  refine ⟨rfl, toNat_errWord s, rfl, rfl, rfl, rfl, toNat_halves s.total, toNat_halves s.proc, ?_⟩
  exact BitVec.toNat_setWidth_of_le (by decide)

/-! ## STATUS -/

theorem getLsbD_zero_append_ofBool {w : Nat} (x : BitVec w) (b : Bool) : (x ++ BitVec.ofBool b).getLsbD 0 = b := by
  rw [BitVec.getLsbD_append]
  simp

theorem getLsbD_succ_append_ofBool {w : Nat} (x : BitVec w) (b : Bool) (k : Nat) :
    (x ++ BitVec.ofBool b).getLsbD (k + 1) = x.getLsbD k := by
  rw [BitVec.getLsbD_append]
  simp

/-- The bits of `STATUS` (10_state.md R21), least significant first; every bit above `FAULT` is 0. -/
theorem getLsbD_statusWord (s : State) (k : Nat) :
    (statusWord s).getLsbD k = [s.freqV, s.trieV, s.codeV, s.payV, s.eoc, faultFlag s].getD k false := by
  change BitVec.getLsbD (w := 26 + 1 + 1 + 1 + 1 + 1 + 1) (statusWord s) k = _
  match k with
  | 0 | 1 | 2 | 3 | 4 | 5 => simp only [statusWord, getLsbD_succ_append_ofBool, getLsbD_zero_append_ofBool]; rfl
  | k + 6 => simp only [statusWord, getLsbD_succ_append_ofBool, BitVec.getLsbD_zero]; rfl

/-- Settles O12: `STATUS` bit by bit. -/
theorem statusShowsTheFlags : Obligations.StatusShowsTheFlags := by
  intro s
  have hbit := getLsbD_statusWord s
  refine ⟨hbit 0, hbit 1, hbit 2, hbit 3, hbit 4, ?_, fun k hk => ?_⟩
  · rw [readReg, hbit]
    exact Option.isSome_iff_ne_none
  · rw [readReg, hbit]
    exact List.getD_eq_default _ _ hk

/-! ## Views -/

/-- The nodes of a trie are twice its leaves less one (10_state.md R31). -/
theorem nodes_eq_leafSymbols (t : Tree) : nodes t = 2 * (leafSymbols t).length - 1 := by
  have := nodes_add_one t
  rw [length_leafSymbols]
  omega

theorem codeLength_le {s : State} (h : Inv s) (x : Sym) : codeLength s.code x ≤ 2 ^ 32 - 1 := by
  unfold codeLength
  split
  next => exact Nat.zero_le _
  next bits hx =>
    have := h.code_le _ (mem_of_tableGet _ _ _ hx)
    simp only at this
    omega

/-- Settles O14: by the invariant every size and count fits its view. -/
theorem viewsReadTheExactSizes : Obligations.ViewsReadTheExactSizes := by
  intro s h
  obtain ⟨-, hchunkMax, -, hpayMax, -, -, hinqMax, -, houtqMax, -⟩ := (params_wf_iff _).1 h.params
  obtain ⟨⟨-, hpos⟩, -⟩ := (memory_wf_iff s).1 h.memory
  have hdistinct := distinct_eq_length hpos
  have hbitcnt : s.bitcnt.toNat < 2 ^ 35 := by have := h.bitcnt_le; have := h.paybuf_le; omega
  refine ⟨toNat_countWord (h.symbuf_le.trans hchunkMax), toNat_countWord (h.paybuf_le.trans hpayMax),
    toNat_countWord (h.inq_le.trans hinqMax), toNat_countWord (h.outq_le.trans houtqMax), ?distinct, ?nodes,
    toNat_countWord ((freqAt_le_of_forall_le h.freq_le _).trans hchunkMax), ?qcodelen, toNat_halves s.bitcnt, ?hi⟩
  case distinct => rw [readReg, hdistinct, toNat_countWord (h.distinct_le.trans hchunkMax)]
  case nodes =>
    rw [readReg, toNat_countWord h.nodes_fit]
    cases s.trie with
    | none => rfl
    | some t => exact nodes_eq_leafSymbols t
  case qcodelen => exact toNat_countWord (codeLength_le h _)
  case hi =>
    have := toNat_halves s.bitcnt
    simp only [readReg]
    omega

/-! ## What a command writes -/

/-- What `EOC` a command's fault is entered with: `RDHEAD` and `DECODE` have cleared it. -/
theorem commandBase_eoc (i : Instr) (s : State) :
    (commandBase i s).eoc = s.eoc ∨ ((commandBase i s).eoc = false ∧ i ∈ [Instr.rdhead, .decode]) := by
  cases i with
  | rdhead | decode => right; simp [commandBase]
  | _ => exact .inl rfl

/-- The counter and operand registers a completed command leaves alone, by the command. -/
theorem registers_of_completes {i : Instr} {s t : State} (hc : Completes s i t) (hi : i ≠ .sreset) :
    (t.chunkIdx ≠ s.chunkIdx → i ∈ [Instr.wrhead, .emitrec, .encode, .wrhdr]) ∧
    (t.recIdx ≠ s.recIdx → i ∈ [Instr.rdhead, .decode]) ∧
    (t.recLen ≠ s.recLen → i ∈ [Instr.pack, .encode, .rdhead, .decode]) ∧
    (t.total ≠ s.total → i = .rdhdr) ∧
    (t.proc ≠ s.proc → i ∈ [Instr.unpack, .decode, .rdhdr]) ∧
    t.qsym = s.qsym := by
  cases hc with
  | sreset => exact absurd rfl hi
  -- the commands that write one of these registers: each is in its list
  | wrhead | emitrec | encode | wrhdr => simp
  | rdhead | decode | pack | unpack | rdhdr => simp
  -- all others keep them
  | nop | clrchunk | clrin | pushs | pushb | freq | build | codes | sertrie | desertrie | wrpay | rdpay => simp
  | encodeNone | rdheadNone | decodeNone => simp

/-- Settles O25: in the faulted state nothing is written, and fault entry writes none of these registers. -/
theorem commandsWriteOnlyTheirRegisters : Obligations.CommandsWriteOnlyTheirRegisters := by
  intro i s t ht hi
  rcases exec_outcomes ht hi with ⟨-, rfl⟩ | ⟨-, hc⟩ | ⟨-, e, rfl⟩
  · simp
  · exact registers_of_completes hc hi
  · obtain ⟨b, hbase⟩ := commandBase_frame i s
    simp [hbase]

/-- The flags a completed command sets and what it does to `EOC`, by the command. -/
theorem flags_of_completes {i : Instr} {s t : State} (hc : Completes s i t) (hi : i ≠ .sreset) :
    (s.freqV = false → t.freqV = true → i = .freq) ∧
    (s.trieV = false → t.trieV = true → i ∈ [Instr.build, .desertrie]) ∧
    (s.codeV = false → t.codeV = true → i = .codes) ∧
    (s.payV = false → t.payV = true → i ∈ [Instr.pack, .rdpay]) ∧
    (s.eoc = false → t.eoc = true → i ∈ [Instr.rdhead, .decode] ∧ s.inq = []) ∧
    (s.eoc = true → t.eoc = false → i ∈ [Instr.rdhead, .decode, .rdhdr, .clrin]) := by
  cases hc with
  | sreset => exact absurd rfl hi
  -- the commands that set a flag
  | freq | build | desertrie | codes | pack | rdpay => simp +contextual
  | rdheadNone hempty | decodeNone hempty => simp +contextual [hempty]
  -- the commands that clear `EOC`, and all others
  | rdhead | decode | rdhdr | clrin => simp +contextual
  | clrchunk | encodeNone | encode => simp +contextual
  | nop | pushs | pushb | unpack | sertrie | wrhead | wrpay | emitrec | wrhdr => simp +contextual

/-- Settles O26: fault entry clears the four flags of the work and keeps the `EOC` it is entered with. -/
theorem flagsAreSetOnlyByTheirCommands : Obligations.FlagsAreSetOnlyByTheirCommands := by
  intro i s t ht hi
  rcases exec_outcomes ht hi with ⟨-, rfl⟩ | ⟨-, hc⟩ | ⟨-, e, rfl⟩
  · simp +contextual
  · exact flags_of_completes hc hi
  · rcases commandBase_eoc i s with heoc | ⟨heoc, hmem⟩
    · simp +contextual [heoc]
    · have hcleared := List.mem_append_left [Instr.rdhdr, Instr.clrin] hmem
      exact ⟨by simp, by simp, by simp, by simp, by simp [heoc], fun _ _ => hcleared⟩

end Sys2Proof.Machine
end

section
/-! # Big-endian fields

20_memory.md R51: what `FromBE` reads is the number its bytes write, most significant byte first. -/

namespace Sys2Proof.Machine

theorem fromBE_lt (bs : List Byte) : fromBE bs < 256 ^ bs.length := by
  induction bs with
  | nil => simp [fromBE]
  | cons b rest ih =>
    have hb : b.toNat + 1 ≤ 256 := b.isLt
    calc fromBE (b :: rest) < b.toNat * 256 ^ rest.length + 256 ^ rest.length := Nat.add_lt_add_left ih _
      _ = (b.toNat + 1) * 256 ^ rest.length := (Nat.succ_mul _ _).symm
      _ ≤ 256 * 256 ^ rest.length := Nat.mul_le_mul_right _ hb
      _ = 256 ^ (b :: rest).length := by rw [List.length_cons, Nat.pow_succ']

theorem fromBE_cons_div (b : Byte) (rest : List Byte) : fromBE (b :: rest) / 256 ^ rest.length = b.toNat := by
  have hpos : 0 < 256 ^ rest.length := Nat.pow_pos (by decide)
  rw [fromBE, Nat.mul_comm, Nat.mul_add_div hpos, Nat.div_eq_of_lt (fromBE_lt rest), Nat.add_zero]

/-- The lowest `n` bytes of a value, the most significant first: what `be16`, `be32` and `be64` are for 2, 4 and 8. -/
def lowBytesBE {w : Nat} (v : BitVec w) : Nat → List Byte
  | 0 => []
  | n + 1 => v.extractLsb' (8 * n) 8 :: lowBytesBE v n

theorem length_lowBytesBE {w : Nat} (v : BitVec w) (n : Nat) : (lowBytesBE v n).length = n := by
  induction n with
  | zero => rfl
  | succ n ih => rw [lowBytesBE, List.length_cons, ih]

/-- The top byte is the digit that the value has at its place in base 256. -/
theorem fromBE_lowBytesBE {w : Nat} (v : BitVec w) (n : Nat) : fromBE (lowBytesBE v n) = v.toNat % 256 ^ n := by
  induction n with
  | zero => rw [Nat.pow_zero, Nat.mod_one]; rfl
  | succ n ih =>
    have hdigit : (v.extractLsb' (8 * n) 8).toNat = v.toNat / 256 ^ n % 256 := by
      rw [BitVec.extractLsb'_toNat, Nat.shiftRight_eq_div_pow, Nat.pow_mul]
    rw [lowBytesBE, fromBE, length_lowBytesBE, ih, hdigit, Nat.mod_pow_succ, Nat.mul_comm, Nat.add_comm]

@[simp] theorem length_be16 (v : BitVec 16) : (be16 v).length = 2 := rfl
@[simp] theorem length_be32 (v : Word) : (be32 v).length = 4 := rfl
@[simp] theorem length_be64 (v : DWord) : (be64 v).length = 8 := rfl

@[simp] theorem fromBE_be16 (v : BitVec 16) : fromBE (be16 v) = v.toNat :=
  (fromBE_lowBytesBE v 2).trans (Nat.mod_eq_of_lt v.isLt)

@[simp] theorem fromBE_be32 (v : Word) : fromBE (be32 v) = v.toNat :=
  (fromBE_lowBytesBE v 4).trans (Nat.mod_eq_of_lt v.isLt)

@[simp] theorem fromBE_be64 (v : DWord) : fromBE (be64 v) = v.toNat :=
  (fromBE_lowBytesBE v 8).trans (Nat.mod_eq_of_lt v.isLt)

/-- Settles O15: each field is the low bytes of its value, all of them; the first digit of any sequence by the bound on
the rest. -/
theorem bigEndianFieldsReadBack : Obligations.BigEndianFieldsReadBack :=
  ⟨fun v => ⟨fromBE_be16 v, length_be16 v⟩, fun v => ⟨fromBE_be32 v, length_be32 v⟩,
    fun v => ⟨fromBE_be64 v, length_be64 v⟩, fromBE_cons_div⟩

end Sys2Proof.Machine
end

section
/-! # Accesses and transactions

Which accesses are performed (20_memory.md R46, R47), what a written word runs (30_encoding.md R73), and what every
transaction leaves alone (20_memory.md R57). -/

namespace Sys2Proof.Machine

open Sys2Proof.Rules

/-! ## Which register an access reaches -/

/-- Every register lies at a multiple of 4 up to `0x5C` (10_state.md R19). -/
theorem regOffset_range (r : Reg) : regOffset r % 4 = 0 ∧ regOffset r ≤ 0x5C := by cases r <;> decide

theorem regOffset_of_regAt {k : Nat} {r : Reg} (h : regAt k = some r) : regOffset r = k := by
  simpa using List.find?_some h

/-- Every multiple of 4 up to `0x5C` is the offset of a register: the offsets have no gap. -/
theorem exists_regOffset_eq {k : Nat} (haligned : k % 4 = 0) (hle : k ≤ 0x5C) : ∃ r, regOffset r = k := by
  have htable : ∀ j : Fin 24, regOffset allRegs[j] = 4 * j := by decide
  exact ⟨_, (htable ⟨k / 4, by omega⟩).trans (by simp only; omega)⟩

/-- An access is performed exactly when it is 4 bytes wide and at a defined, naturally aligned offset from `BASE`. -/
theorem locate_ok_iff (p : Config.Params) (addr n : Nat) :
    (∃ r, locate p addr n = .ok r) ↔
      n = 4 ∧ (addr - p.base) % 4 = 0 ∧ p.base ≤ addr ∧ addr ≤ p.base + 0x5C := by
  constructor
  · rintro ⟨r, hr⟩
    unfold locate at hr
    split at hr
    next => cases hr
    next hinside =>
      split at hr
      next => cases hr
      next hwidth =>
        split at hr
        next => cases hr
        next haligned =>
          split at hr
          next r' hr' =>
            have hoffset := regOffset_of_regAt hr'
            have hrange := regOffset_range r'
            omega
          next => cases hr
  · rintro ⟨rfl, haligned, hbase, hle⟩
    obtain ⟨r, hr⟩ := exists_regOffset_eq haligned (by omega)
    obtain rfl : p.base + regOffset r = addr := by omega
    exact ⟨r, locate_register p r⟩

/-! ## Which accesses are refused -/

theorem writeCmd_next (w : Word) (s : State) : ∃ t, writeCmd w s = .next t := by
  unfold writeCmd
  split
  next i _ => exact exec_next i s
  next => split <;> exact ⟨_, rfl⟩

theorem writeReg_next (r : Reg) (v : Word) (s : State) : ∃ t, writeReg r v s = .next t := by
  rcases writeReg_cases r v s with ⟨-, hw⟩ | ⟨-, hw⟩
  · rw [hw]; exact writeCmd_next v s
  · exact ⟨_, hw⟩

/-- A read is refused only for want of a register to reach. -/
theorem perform_read_refused_iff (s : State) (addr n : Nat) :
    (∃ e, perform (.read addr n) s = .refused e) ↔ ¬ ∃ r, locate s.params addr n = .ok r := by
  simp only [perform]
  cases locate s.params addr n <;> simp

/-- A write is refused only for want of a register to reach: no command is. -/
theorem perform_write_refused_iff (s : State) (addr n : Nat) (v : Word) :
    (∃ e, perform (.write addr n v) s = .refused e) ↔ ¬ ∃ r, locate s.params addr n = .ok r := by
  simp only [perform]
  cases locate s.params addr n with
  | error e => simp
  | ok r =>
    obtain ⟨t, ht⟩ := writeReg_next r v s
    simp [ht]

/-- Settles O8: an access is refused when it reaches no register; `BASE` being a multiple of 256, an offset and its
address are aligned together. -/
theorem undefinedAccessesAreRefused : Obligations.UndefinedAccessesAreRefused := by
  intro s addr n v hbase
  have hdefined : (∃ r, locate s.params addr n = .ok r) ↔
      n = 4 ∧ addr % 4 = 0 ∧ s.params.base ≤ addr ∧ addr ≤ s.params.base + 0x5C := by
    rw [locate_ok_iff]
    omega
  rw [perform_read_refused_iff, perform_write_refused_iff, hdefined]
  exact ⟨.rfl, .rfl⟩

/-! ## Register writes -/

/-- A register pair is its high half above its low half (20_memory.md R50). -/
theorem toNat_append_words (hi lo : Word) : (hi ++ lo).toNat = hi.toNat * 2 ^ 32 + lo.toNat := by
  rw [BitVec.toNat_append, ← Nat.shiftLeft_add_eq_or_of_lt lo.isLt, Nat.shiftLeft_eq]

theorem perform_wrTxn_of_ne_cmd {r : Reg} (hr : r ≠ .cmd) (v : Word) (s : State) :
    perform (wrTxn s.params r v) s = .next (writeDataReg r v s) := by
  rw [perform_wrTxn]
  rcases writeReg_cases r v s with ⟨hcmd, -⟩ | ⟨-, hw⟩
  · exact absurd hcmd hr
  · exact hw

theorem writeDataReg_of_read_only {r : Reg} (hr : r ∉ [Reg.chunkIdx, .recLen, .totalLo, .totalHi, .qsym]) (v : Word)
    (s : State) : writeDataReg r v s = s := by
  cases r with
  | chunkIdx | recLen | totalLo | totalHi | qsym => simp at hr
  | _ => rfl

/-- Settles O11: a write to a register other than `CMD` is `writeDataReg`, which stores in five registers only. -/
theorem registerWritesStoreOrAreIgnored : Obligations.RegisterWritesStoreOrAreIgnored := by
  intro s v
  have hwrite {r : Reg} (hr : r ≠ .cmd) := perform_wrTxn_of_ne_cmd hr v s
  refine ⟨hwrite (by decide), hwrite (by decide), ⟨_, ?lo, hwrite (by decide)⟩, ⟨_, ?hi, hwrite (by decide)⟩,
    ⟨_, ?qsym, hwrite (by decide)⟩, fun r hr => ?other, rfl⟩
  case lo =>
    have := s.total.isLt
    rw [toNat_append_words, BitVec.extractLsb'_toNat, Nat.shiftRight_eq_div_pow]
    omega
  case hi => rw [toNat_append_words, BitVec.extractLsb'_toNat, Nat.shiftRight_zero]
  case qsym => rw [BitVec.extractLsb'_toNat, Nat.shiftRight_zero]
  case other =>
    obtain ⟨hcmd, hreadOnly⟩ := List.ne_and_not_mem_of_not_mem_cons hr
    rw [hwrite hcmd, writeDataReg_of_read_only hreadOnly]

/-! ## The command a word runs -/

/-- A field of a command's word above its opcode is a field of its operand. -/
theorem extractLsb'_encode (i : Instr) {start : Nat} (h : 8 ≤ start) (len : Nat) :
    (encode i).extractLsb' start len = (operandField i).extractLsb' (start - 8) len :=
  BitVec.extractLsb'_append_eq_of_le h

theorem decodeS_encode_pushs (x : Sym) :
    decodeS (encode (.pushs x)) (.pushs (imm16Field (encode (.pushs x)))) = .instr (.pushs x) := by
  have hzero : (encode (.pushs x)).extractLsb' 8 8 = 0#8 :=
    (extractLsb'_encode _ (by decide) 8).trans BitVec.extractLsb'_append_eq_right
  have himm : imm16Field (encode (.pushs x)) = x :=
    (extractLsb'_encode _ (by decide) 16).trans BitVec.extractLsb'_append_eq_left
  rw [decodeS, if_pos hzero, himm]

theorem decodeB_encode_pushb (b : Byte) :
    decodeB (encode (.pushb b)) (.pushb (imm8Field (encode (.pushb b)))) = .instr (.pushb b) := by
  have hlow : (encode (.pushb b)).extractLsb' 8 8 = 0#8 :=
    (extractLsb'_encode _ (by decide) 8).trans BitVec.extractLsb'_append_eq_right
  have hupper {k : Nat} (hk : 8 ≤ k) :
      (operandField (.pushb b)).extractLsb' k 8 = (0x00#8 ++ b).extractLsb' (k - 8) 8 :=
    BitVec.extractLsb'_append_eq_of_le hk
  have hhigh : (encode (.pushb b)).extractLsb' 24 8 = 0#8 :=
    ((extractLsb'_encode _ (by decide) 8).trans (hupper (by decide))).trans BitVec.extractLsb'_append_eq_left
  have himm : imm8Field (encode (.pushb b)) = b :=
    ((extractLsb'_encode _ (by decide) 8).trans (hupper (by decide))).trans BitVec.extractLsb'_append_eq_right
  rw [decodeB, if_pos ⟨hhigh, hlow⟩, himm]

/-- An encoded word decodes to its command, with its immediate (30_encoding.md R66 to R68). -/
@[simp] theorem decode_encode (i : Instr) : decode (encode i) = .instr i := by
  obtain ⟨hopcode, hoperand⟩ := Laws.fields_of_append (operandField i) (opcodeOf i)
  unfold decode
  rw [show opcodeField (encode i) = opcodeOf i from hopcode]
  cases i with
  | pushs x => exact decodeS_encode_pushs x
  | pushb b => exact decodeB_encode_pushb b
  | _ => exact if_pos hoperand

@[simp] theorem writeCmd_encode (i : Instr) (s : State) : writeCmd (encode i) s = exec i s := by
  rw [writeCmd, decode_encode]

/-- The command of a word written to `CMD` runs (30_encoding.md R73). -/
theorem perform_cmdTxn (i : Instr) (s : State) : perform (cmdTxn s.params i) s = exec i s :=
  (perform_wrTxn .cmd (encode i) s).trans (writeCmd_encode i s)

theorem step_of_pending_nil {s : State} (h : s.pending = []) : step s = .next s := by
  rw [step, nextTransaction, h]

theorem step_of_pending_cons {s : State} {t : Txn} {rest : List Txn} (h : s.pending = t :: rest) :
    step s = perform t { s with pending := rest } := by
  rw [step, nextTransaction, h]

/-- `withFetchWord` of all 32 bits of a command's word puts its `CMD` write in front (log 1). -/
theorem withFetchWord_encode (s : State) (i : Instr) :
    s.withFetchWord 32 (encode i).toNat = { s with pending := cmdTxn s.params i :: s.pending } := by
  rw [State.withFetchWord, queueCommandWord, Nat.mod_eq_of_lt (encode i).isLt, BitVec.ofNat_toNat, BitVec.setWidth_eq,
    cmdTxn]

/-- Settles O6: the queued transaction is the command's `CMD` write, and the step performs it on the state before. -/
theorem queuedWordRunsNext : Obligations.QueuedWordRunsNext := by
  intro s i
  rw [withFetchWord_encode, step_of_pending_cons rfl]
  exact perform_cmdTxn i s

/-! ## What a transaction leaves alone -/

/-- A command leaves the parameters and the host's side of the run. -/
theorem exec_frame {i : Instr} {s t : State} (h : exec i s = .next t) :
    t.pending = s.pending ∧ t.params = s.params ∧ t.reads = s.reads := by
  rcases exec_cases h with ⟨-, rfl⟩ | ⟨-, -, rfl⟩ | ⟨-, -, hok⟩ | ⟨-, -, e, -, rfl⟩
  · simp
  · simp
  · obtain ⟨hpending, hparams, hreads, -⟩ := commandRule_frame hok
    exact ⟨hpending, hparams, hreads⟩
  · obtain ⟨b, hbase⟩ := commandBase_frame i s
    simp [hbase]

theorem writeCmd_frame {w : Word} {s t : State} (h : writeCmd w s = .next t) :
    t.pending = s.pending ∧ t.params = s.params := by
  unfold writeCmd at h
  split at h
  next i _ =>
    obtain ⟨hpending, hparams, -⟩ := exec_frame h
    exact ⟨hpending, hparams⟩
  next => split at h <;> cases h <;> simp

theorem writeReg_frame {r : Reg} {v : Word} {s t : State} (h : writeReg r v s = .next t) :
    t.pending = s.pending ∧ t.params = s.params := by
  rcases writeReg_cases r v s with ⟨-, hw⟩ | ⟨-, hw⟩
  · exact writeCmd_frame (hw ▸ h)
  · cases hw ▸ h
    obtain ⟨hpending, hparams, -⟩ := writeDataReg_frame r v s
    exact ⟨hpending, hparams⟩

/-- A transaction leaves what is pending and the parameters. -/
theorem perform_frame {x : Txn} {s t : State} (h : perform x s = .next t) :
    t.pending = s.pending ∧ t.params = s.params := by
  cases x with
  | hardwareReset => cases h; simp
  | read addr n =>
    simp only [perform] at h
    split at h
    next => cases h
    next r _ =>
      cases h
      obtain ⟨hpending, hparams, -⟩ := readReg_frame r s
      exact ⟨hpending, hparams⟩
  | write addr n v =>
    simp only [perform] at h
    split at h
    next => cases h
    next r _ => exact writeReg_frame h

/-- Settles O7: a step takes the first pending transaction, and no transaction touches the rest. -/
theorem transactionsArePerformedInOrder : Obligations.TransactionsArePerformedInOrder := by
  refine ⟨fun s h => step_of_pending_nil h, fun s t rest h => step_of_pending_cons h,
    fun t s u h => perform_frame h, fun i s u h => ?_⟩
  obtain ⟨-, -, hreads⟩ := exec_frame h
  exact hreads

end Sys2Proof.Machine
end

section
/-! # The byte queues under a command

20_memory.md R54, R55: commands append to the end of `OUTQ` and take from the head of `INQ`. -/

namespace Sys2Proof.Machine

/-! ## OUTQ -/

/-- A completed command other than `SRESET` appends to `OUTQ` and leaves `ERR`; only the encode side appends a byte. -/
theorem outq_of_completes {i : Instr} {s t : State} (hc : Completes s i t) (hi : i ≠ .sreset) :
    t.err = s.err ∧ ∃ b, t.outq = s.outq ++ b ∧
      (b ≠ [] → i ∈ [Instr.wrhdr, .wrhead, .sertrie, .wrpay, .emitrec, .encode]) := by
  cases hc with
  | sreset => exact absurd rfl hi
  -- the commands that append: each is in the list
  | sertrie | wrhead | wrpay | emitrec | encode | wrhdr => exact ⟨rfl, _, rfl, fun _ => by decide⟩
  -- all others append nothing
  | nop | clrchunk | clrin | pushs | pushb | freq | build | codes | pack | unpack =>
    exact ⟨rfl, [], (List.append_nil _).symm, fun h => absurd rfl h⟩
  | desertrie | rdhead | rdpay | decode | rdhdr | encodeNone | rdheadNone | decodeNone =>
    exact ⟨rfl, [], (List.append_nil _).symm, fun h => absurd rfl h⟩

/-- Settles O23: a completed command appends and is not faulted; in the faulted state and on fault entry `OUTQ`
stays. -/
theorem commandsOnlyAppendOutput : Obligations.CommandsOnlyAppendOutput := by
  intro i s t hi ht
  rcases exec_outcomes ht hi with ⟨-, rfl⟩ | ⟨hrun, hc⟩ | ⟨-, e, rfl⟩
  · exact ⟨[], by simp⟩
  · obtain ⟨herr, b, hb, hmem⟩ := outq_of_completes hc hi
    exact ⟨b, hb, fun hfaulted => absurd (herr.trans hrun) hfaulted, hmem⟩
  · obtain ⟨b, hbase⟩ := commandBase_frame i s
    exact ⟨[], by simp [hbase]⟩

/-! ## INQ -/

theorem suffix_of_inTake {n : Nat} {q b rest : List Byte} (h : inTake n q = some (b, rest)) : rest <:+ q := by
  obtain ⟨rfl, -⟩ := (inTake_eq_some _ _ _ _).1 h
  exact List.suffix_append b rest

/-- `Parse` takes a trie from the head of the queue (45_trie_serializer.md R123). -/
theorem suffix_of_parseNode {nodeMax fuel cnt last : Nat} {q rest : List Byte} {t : Tree}
    (h : parseNode nodeMax fuel cnt q = .tree t last rest) : rest <:+ q := by
  induction fuel generalizing cnt last q rest t with
  | zero => cases h
  | succ fuel ih =>
    unfold parseNode at h
    split at h
    next => cases h
    next f q₁ hflag =>
      have hq₁ := suffix_of_inTake hflag
      split at h
      next => cases h
      next =>
        split at h
        next =>
          split at h
          next => cases h
          next x q₂ hsym =>
            obtain ⟨-, -, rfl⟩ := Parsed.tree.inj h
            exact (suffix_of_inTake hsym).trans hq₁
        next =>
          split at h
          next =>
            split at h
            next => cases h
            next => cases h
            next l cl ql hl =>
              split at h
              next => cases h
              next => cases h
              next r cr qr hr =>
                obtain ⟨-, -, rfl⟩ := Parsed.tree.inj h
                exact ((ih hr).trans (ih hl)).trans hq₁
          next => cases h

theorem suffix_of_parseTree {nodeMax cnt : Nat} {q rest : List Byte} {t : Tree}
    (h : parseTree nodeMax q = .tree t cnt rest) : rest <:+ q :=
  suffix_of_parseNode h

/-- A completed command other than `PUSHB` leaves an end part of `INQ`. -/
theorem inq_suffix_of_completes {i : Instr} {s t : State} (hc : Completes s i t) (hi : ∀ b, i ≠ .pushb b) :
    t.inq <:+ s.inq := by
  cases hc with
  | pushb b => exact absurd rfl (hi b)
  -- the commands that take bytes, field by field
  | rdhead head rest htaken | rdhdr head rest htaken => exact suffix_of_inTake htaken
  | desertrie tr cnt rest hparsed => exact suffix_of_parseTree hparsed
  | rdpay len q payload rest hlen hfits htaken => exact (suffix_of_inTake htaken).trans (suffix_of_inTake hlen)
  | decode head q₁ q₂ len q₃ payload rest tr cnt pos n out hhead hparsed hlen hpayFits hpay =>
    have hrest : rest <:+ q₂ := (suffix_of_inTake hpay).trans (suffix_of_inTake hlen)
    exact (hrest.trans (suffix_of_parseTree hparsed)).trans (suffix_of_inTake hhead)
  -- the commands that empty the queue, and all others
  | sreset | clrin => exact List.nil_suffix
  | nop | clrchunk | pushs | freq | build | codes | pack | unpack => exact List.suffix_rfl
  | sertrie | wrhead | wrpay | emitrec | encode | wrhdr => exact List.suffix_rfl
  | encodeNone | rdheadNone | decodeNone => exact List.suffix_rfl

/-- Every command other than `PUSHB` leaves an end part of `INQ`; fault entry empties it (60_exceptions.md R171). -/
theorem inq_suffix_of_exec {i : Instr} {s t : State} (h : exec i s = .next t) (hi : ∀ b, i ≠ .pushb b) :
    t.inq <:+ s.inq := by
  rcases exec_cases h with ⟨-, rfl⟩ | ⟨-, -, rfl⟩ | ⟨-, -, hok⟩ | ⟨-, -, e, -, rfl⟩
  · exact List.nil_suffix
  · exact List.suffix_rfl
  · exact inq_suffix_of_completes (completes_of_commandRule hok) hi
  · exact List.nil_suffix

/-- Settles O24: an end part of `INQ` is `INQ` without some bytes from its head. -/
theorem commandsOnlyTakeFromTheInputHead : Obligations.CommandsOnlyTakeFromTheInputHead := by
  intro i s t hi h
  exact ⟨_, List.suffix_iff_eq_drop.1 (inq_suffix_of_exec h hi)⟩

end Sys2Proof.Machine
end

section
/-! # Command words

One word per command (30_encoding.md R66 to R68): a word is read back from its fields, and the "Match" and "Mask"
columns are the encoding written as two constants. -/

namespace Sys2Proof.Machine

open Sys2Proof.Rules

/-! ## Every legal word is the encoding of its command -/

/-- A word is made of two parts exactly when they are its high and its low bits. -/
theorem append_eq_iff {m n : Nat} (a : BitVec m) (b : BitVec n) (v : BitVec (m + n)) :
    a ++ b = v ↔ a = v.extractLsb' n m ∧ b = v.extractLsb' 0 n := by
  constructor
  · rintro rfl
    exact ⟨BitVec.extractLsb'_append_eq_left.symm, BitVec.extractLsb'_append_eq_right.symm⟩
  · rintro ⟨rfl, rfl⟩
    exact BitVec.extractLsb'_append_extractLsb'

/-- A command's word is known by its operand field and its opcode (30_encoding.md R66). -/
theorem encode_eq_iff (i : Instr) (w : Word) :
    encode i = w ↔ operandField i = w.extractLsb' 8 24 ∧ opcodeOf i = opcodeField w :=
  append_eq_iff (operandField i) (opcodeOf i) w

theorem encode_of_decodeZ {w : Word} {i j : Instr} (h : decodeZ w j = .instr i) (hopcode : opcodeField w = opcodeOf j)
    (hoperand : operandField j = 0#24) : encode i = w := by
  unfold decodeZ at h
  split at h
  next hzero =>
    cases h
    exact (encode_eq_iff _ _).2 ⟨hoperand.trans hzero.symm, hopcode.symm⟩
  next => cases h

theorem encode_of_decodeS {w : Word} {i : Instr} (h : decodeS w (.pushs (imm16Field w)) = .instr i)
    (hopcode : opcodeField w = 0x04#8) : encode i = w := by
  unfold decodeS at h
  split at h
  next hzero =>
    cases h
    have hfields : imm16Field w ++ w.extractLsb' 8 8 = w.extractLsb' 8 24 :=
      BitVec.extractLsb'_append_extractLsb'_eq_extractLsb' rfl
    rw [hzero] at hfields
    exact (encode_eq_iff _ _).2 ⟨hfields, hopcode.symm⟩
  next => cases h

theorem encode_of_decodeB {w : Word} {i : Instr} (h : decodeB w (.pushb (imm8Field w)) = .instr i)
    (hopcode : opcodeField w = 0x05#8) : encode i = w := by
  unfold decodeB at h
  split at h
  next hzero =>
    cases h
    obtain ⟨hhigh, hlow⟩ := hzero
    have hupper : w.extractLsb' 24 8 ++ imm8Field w = w.extractLsb' 16 16 :=
      BitVec.extractLsb'_append_extractLsb'_eq_extractLsb' rfl
    have hfields : w.extractLsb' 16 16 ++ w.extractLsb' 8 8 = w.extractLsb' 8 24 :=
      BitVec.extractLsb'_append_extractLsb'_eq_extractLsb' rfl
    rw [← hupper, hhigh, hlow] at hfields
    exact (encode_eq_iff _ _).2 ⟨hfields, hopcode.symm⟩
  next => cases h

/-- A word that decodes to a command is that command's encoding: row by row, each by the format of its row. -/
theorem encode_of_decode {w : Word} {i : Instr} (h : decode w = .instr i) : encode i = w := by
  unfold decode at h
  split at h
  case h_5 hopcode => exact encode_of_decodeS h hopcode
  case h_6 hopcode => exact encode_of_decodeB h hopcode
  case h_23 => cases h
  all_goals next hopcode => exact encode_of_decodeZ h hopcode rfl

theorem decode_eq_instr_iff (w : Word) (i : Instr) : decode w = .instr i ↔ encode i = w :=
  ⟨encode_of_decode, fun h => h ▸ decode_encode i⟩

/-- Settles O1: `decode_encode` one way, and every legal word by its fields the other. -/
theorem decodeAndEncodeAgree : Obligations.DecodeAndEncodeAgree :=
  ⟨decode_encode, fun _ _ => encode_of_decode⟩

/-- Settles O4: each word is small enough to be decoded outright. -/
theorem sampleWordsDecode : Obligations.SampleWordsDecode := by
  unfold Obligations.SampleWordsDecode
  decide

/-! ## Match and mask -/

/-- The must-be-zero bits of a command's operand field (30_encoding.md R66). -/
def reservedBits : Instr → BitVec 24
  | .pushs _ => 0#16 ++ BitVec.allOnes 8
  | .pushb _ => BitVec.allOnes 8 ++ 0#8 ++ BitVec.allOnes 8
  | _ => BitVec.allOnes 24

/-- The row of a command in the opcode map: the match value is its opcode, the mask its reserved bits and the opcode. -/
def rowOf (i : Instr) : Row := ⟨mnemonic i, 0#24 ++ opcodeOf i, reservedBits i ++ BitVec.allOnes 8⟩

/-- One command per row of the opcode map, in its order. -/
def rowCommands : List Instr :=
  [.nop, .sreset, .clrchunk, .clrin, .pushs 0, .pushb 0, .freq, .build, .codes, .pack, .unpack, .sertrie, .desertrie,
   .wrhead, .wrpay, .emitrec, .encode, .rdhead, .rdpay, .decode, .wrhdr, .rdhdr]

theorem opcodeMap_eq_map_rowOf : opcodeMap = rowCommands.map rowOf := by decide

theorem rowOf_mem_opcodeMap (i : Instr) : rowOf i ∈ opcodeMap := by
  rw [opcodeMap_eq_map_rowOf]
  cases i with
  | pushs x => exact List.mem_map.2 ⟨.pushs 0, by decide, rfl⟩
  | pushb b => exact List.mem_map.2 ⟨.pushb 0, by decide, rfl⟩
  | _ => exact List.mem_map_of_mem (by decide)

theorem exists_rowOf_eq {r : Row} (h : r ∈ opcodeMap) : ∃ j, rowOf j = r := by
  rw [opcodeMap_eq_map_rowOf] at h
  obtain ⟨j, -, hj⟩ := List.mem_map.1 h
  exact ⟨j, hj⟩

/-- No two rows share a mnemonic. -/
theorem row_eq_of_mnemonic_eq {r r' : Row} (hr : r ∈ opcodeMap) (hr' : r' ∈ opcodeMap)
    (h : r.mnemonic = r'.mnemonic) : r = r' :=
  List.inj_on_of_nodup_map (f := Row.mnemonic) (by decide) hr hr' h

/-- A mask compares the high and the low bits of a word apart. -/
theorem and_append_eq_append_iff {m n : Nat} (v : BitVec (m + n)) (c a : BitVec m) (d b : BitVec n) :
    v &&& (c ++ d) = a ++ b ↔ v.extractLsb' n m &&& c = a ∧ v.extractLsb' 0 n &&& d = b := by
  have hparts : v &&& (c ++ d) = (v.extractLsb' n m &&& c) ++ (v.extractLsb' 0 n &&& d) := by
    rw [← BitVec.and_append, BitVec.extractLsb'_append_extractLsb']
  rw [hparts, append_eq_iff, BitVec.extractLsb'_append_eq_left, BitVec.extractLsb'_append_eq_right]

/-- A word matches a row exactly when its opcode is the row's and no reserved bit of the row is set. -/
theorem and_mask_eq_value_iff (w : Word) (j : Instr) :
    w &&& (rowOf j).mask = (rowOf j).value ↔
      w.extractLsb' 8 24 &&& reservedBits j = 0#24 ∧ opcodeField w = opcodeOf j := by
  have hparts := and_append_eq_append_iff w (reservedBits j) 0#24 (BitVec.allOnes 8) (opcodeOf j)
  rwa [BitVec.and_allOnes] at hparts

/-- Every bit of a command's operand field outside its immediate is zero. -/
theorem operandField_and_reservedBits (i : Instr) : operandField i &&& reservedBits i = 0#24 := by
  cases i with
  | pushs x =>
    refine (BitVec.and_append (x₁ := x) (y₁ := 0#8)).trans ?_
    rw [BitVec.and_zero]
    rfl
  | pushb b =>
    refine (BitVec.and_append (x₁ := 0#8 ++ b) (y₁ := 0#8)).trans ?_
    rw [BitVec.and_append, BitVec.and_zero]
    rfl
  | _ => rfl

/-- A command's word matches the command's row. -/
theorem encode_and_mask (i : Instr) : encode i &&& (rowOf i).mask = (rowOf i).value := by
  obtain ⟨hoperand, hopcode⟩ := (encode_eq_iff i _).1 rfl
  rw [and_mask_eq_value_iff, ← hoperand]
  exact ⟨operandField_and_reservedBits i, hopcode.symm⟩

/-- An operand field with no reserved bit of a row set is the operand of a command of that row. -/
theorem exists_operandField_eq (j : Instr) {v : BitVec 24} (h : v &&& reservedBits j = 0#24) :
    ∃ i, mnemonic i = mnemonic j ∧ opcodeOf i = opcodeOf j ∧ operandField i = v := by
  cases j with
  | pushs =>
    obtain ⟨-, hlow⟩ := (and_append_eq_append_iff v 0#16 0#16 (BitVec.allOnes 8) 0#8).1 h
    rw [BitVec.and_allOnes] at hlow
    exact ⟨.pushs (v.extractLsb' 8 16), rfl, rfl, (append_eq_iff _ 0#8 v).2 ⟨rfl, hlow.symm⟩⟩
  | pushb =>
    obtain ⟨hupper, hlow⟩ :=
      (and_append_eq_append_iff v (BitVec.allOnes 8 ++ 0#8) (0#8 ++ 0#8) (BitVec.allOnes 8) 0#8).1 h
    obtain ⟨hhigh, -⟩ := (and_append_eq_append_iff _ (BitVec.allOnes 8) 0#8 0#8 0#8).1 hupper
    rw [BitVec.and_allOnes] at hhigh hlow
    have hfields : 0#8 ++ (v.extractLsb' 8 16).extractLsb' 0 8 = v.extractLsb' 8 16 :=
      (append_eq_iff 0#8 _ _).2 ⟨hhigh.symm, rfl⟩
    exact ⟨.pushb ((v.extractLsb' 8 16).extractLsb' 0 8), rfl, rfl, (append_eq_iff _ 0#8 v).2 ⟨hfields, hlow.symm⟩⟩
  | _ =>
    have hzero : v = 0#24 := BitVec.and_allOnes.symm.trans h
    exact ⟨_, rfl, rfl, hzero.symm⟩

/-- Settles O2: a word that matches is an operand field and an opcode of the row; a mnemonic tells its row. -/
theorem wordsEncodeByMatchAndMask : Obligations.WordsEncodeByMatchAndMask := by
  intro w r hr
  constructor
  · intro hmatch
    obtain ⟨j, rfl⟩ := exists_rowOf_eq hr
    obtain ⟨hreserved, hopcode⟩ := (and_mask_eq_value_iff w j).1 hmatch
    obtain ⟨i, hmnemonic, hsame, hoperand⟩ := exists_operandField_eq j hreserved
    exact ⟨i, (decode_eq_instr_iff w i).2 ((encode_eq_iff i w).2 ⟨hoperand, hsame.trans hopcode.symm⟩), hmnemonic⟩
  · rintro ⟨i, hdecode, hmnemonic⟩
    obtain rfl := encode_of_decode hdecode
    obtain rfl := row_eq_of_mnemonic_eq (rowOf_mem_opcodeMap i) hr hmnemonic
    exact encode_and_mask i

/-! ## Writing a word to `CMD` -/

/-- `CMD` lies at `BASE` itself (10_state.md R19). -/
theorem perform_write_base (w : Word) (s : State) : perform (.write s.params.base 4 w) s = writeCmd w s :=
  perform_wrTxn .cmd w s

theorem faultEntry_eq_afterFault (e : ErrKind) (w : Word) (s : State) : faultEntry e w s = afterFault e w s := rfl

theorem writeCmd_of_illegal {w : Word} {why : Illegal} (h : decode w = .illegal why) (s : State) :
    writeCmd w s = .next (if s.err = none then afterFault .illegalCommand w s else s) := by
  rw [writeCmd, h]
  cases he : s.err with
  | none => simp [faultEntry_eq_afterFault]
  | some e => simp

/-- Settles O3: a command's word matches the command's row, so a word of no row is illegal. -/
theorem wordsOfNoRowAreIllegal : Obligations.WordsOfNoRowAreIllegal := by
  intro s w hnone
  rw [perform_write_base]
  cases hdecode : decode w with
  | instr i =>
    obtain rfl := encode_of_decode hdecode
    exact absurd (encode_and_mask i) (hnone _ (rowOf_mem_opcodeMap i))
  | illegal why => exact writeCmd_of_illegal hdecode s

/-- Settles O5: the step performs the write to `CMD`, which runs the decoded command. -/
theorem stepRunsTheWrittenCommand : Obligations.StepRunsTheWrittenCommand := by
  intro s w i rest hpending hdecode
  obtain rfl := encode_of_decode hdecode
  rw [step_of_pending_cons hpending]
  exact (perform_write_base _ { s with pending := rest }).trans (writeCmd_encode i _)

end Sys2Proof.Machine
end

section
/-! # Loading and draining

The repeated operations of host programs (30_encoding.md R72). -/

namespace Sys2Proof.Machine

/-- `PUSHS` with room in `SYMBUF` (40_housekeeping.md R84). -/
theorem exec_pushs_of_room {s : State} (hrun : s.err = none) (hroom : s.symbuf.length < s.params.chunkMax) (x : Sym) :
    exec (.pushs x) s = .next { s with symbuf := s.symbuf ++ [x] } := by
  have hrule : commandRule (.pushs x) s = .ok { s with symbuf := s.symbuf ++ [x] } :=
    (pushSymbol_ok x s _).2 ⟨hroom.ne, rfl⟩
  rw [exec_eq_runCommand _ _ Instr.noConfusion, hrule, runCommand_ok _ _ _ _ hrun]

/-- Settles O29, by induction on the list: each `PUSHS` finds room and appends its symbol. -/
theorem pushedSymbolsFormTheChunk : Obligations.PushedSymbolsFormTheChunk := by
  intro s xs
  induction xs generalizing s with
  | nil => simp [pushsAll, execAll]
  | cons x xs ih =>
    intro hrun hroom
    rw [List.length_cons] at hroom
    have hpush := exec_pushs_of_room hrun (by omega) x
    have hrest := ih { s with symbuf := s.symbuf ++ [x] } hrun (by simp; omega)
    rw [List.append_assoc] at hrest
    simpa [pushsAll, execAll, hpush] using hrest

/-- The read of an empty `OUTQ` (10_state.md R35). -/
theorem perform_byteOut_nil {s : State} (h : s.outq = []) :
    perform (rdTxn s.params .byteOut) s = .next { s with reads := s.reads ++ [0#32] } := by
  rw [perform_rdTxn, readReg_byteOut_nil h, recordRead]

theorem perform_byteOut_cons {s : State} {b : Byte} {rest : List Byte} (h : s.outq = b :: rest) :
    perform (rdTxn s.params .byteOut) s =
      .next { s with outq := rest, reads := s.reads ++ [0x00000100#32 + b.setWidth 32] } := by
  rw [perform_rdTxn, readReg_byteOut_cons h, recordRead]

/-- Settles O30, by induction on `OUTQ`: each read takes the head, and the last one finds the queue empty. -/
theorem drainingTakesTheWholeOutput : Obligations.DrainingTakesTheWholeOutput := by
  intro s
  unfold drainBytes
  generalize hq : s.outq = q
  induction q generalizing s with
  | nil => simp [performAll, perform_byteOut_nil hq, hq]
  | cons b rest ih =>
    have hrest := ih { s with outq := rest, reads := s.reads ++ [0x00000100#32 + b.setWidth 32] } rfl
    rw [List.length_cons, List.replicate_succ]
    rw [performAll, perform_byteOut_cons hq]
    simpa using hrest

end Sys2Proof.Machine
end

section
/-! # Housekeeping

Reset and the commands of 40_housekeeping.md R80 to R85, on the reasoning rules of a command that completes and of one
that faults. -/

namespace Sys2Proof.Machine

open Sys2Proof.Rules

/-! ## A command outside the faulted state -/

theorem exec_of_commandRule_ok {i : Instr} {s t : State} (hi : i ≠ .sreset) (hrun : s.err = none)
    (hrule : commandRule i s = .ok t) : exec i s = .next t := by
  rw [exec_eq_runCommand i s hi, hrule, runCommand_ok _ _ _ _ hrun]

/-- A rule that fails enters its fault with the command's own word (60_exceptions.md R171). -/
theorem exec_of_commandRule_error {i : Instr} {s : State} {e : ErrKind} (hi : i ≠ .sreset) (hrun : s.err = none)
    (hrule : commandRule i s = .error e) : exec i s = .next (afterFault e (encode i) (commandBase i s)) := by
  rw [exec_eq_runCommand i s hi, hrule, runCommand_error _ _ _ _ hrun, faultEntry_eq_afterFault]

/-! ## Reset -/

theorem resetAll_eq_afterReset (s : State) : resetAll s = afterReset s := rfl

/-- After reset the value registers and flags are 0, every view is of an empty structure, and both pops find their queue
empty (70_reset_and_hazards.md R186). -/
theorem readReg_afterReset (r : Reg) (s : State) : (readReg r (afterReset s)).1 = 0#32 := by
  have hhigh : (0#64).extractLsb' 32 32 = 0#32 := by decide
  cases r with
  | status => simp [readReg, statusWord, faultFlag, afterReset]
  | bitcntHi | totalHi | procHi => exact hhigh
  | byteOut => rw [readReg_byteOut_nil rfl]
  | symOut => rw [readReg_symOut_nil rfl]
  | _ => rfl

/-- Settles O16: both resets are `resetAll`, in the faulted state too. -/
theorem resetSetsEveryElement : Obligations.ResetSetsEveryElement :=
  fun s =>
    have hreset : Host.Outcome.next (resetAll s) = .next (afterReset s) := congrArg _ (resetAll_eq_afterReset s)
    ⟨hreset, hreset, fun r => readReg_afterReset r s⟩

/-! ## `NOP` and the clearing commands -/

theorem clearWork_eq_workCleared (s : State) : clearWork s = workCleared s := rfl

/-- `NOP` changes nothing, in the faulted state or out of it (40_housekeeping.md R80). -/
theorem exec_nop (s : State) : exec .nop s = .next s := by
  by_cases hrun : s.err = none
  · exact exec_of_commandRule_ok Instr.noConfusion hrun rfl
  · exact exec_faulted _ _ Instr.noConfusion hrun

/-- Settles O27: the rules of `CLRCHUNK` and `CLRIN` complete in every state. -/
theorem nopAndClearingCommands : Obligations.NopAndClearingCommands := by
  refine ⟨by decide, by decide, by decide, exec_nop, fun s hrun => ⟨?clrchunk, ?clrin⟩⟩
  case clrchunk =>
    rw [← clearWork_eq_workCleared]
    exact exec_of_commandRule_ok Instr.noConfusion hrun rfl
  case clrin => exact exec_of_commandRule_ok Instr.noConfusion hrun rfl

/-! ## The push commands -/

/-- The word of `PUSHS` (30_encoding.md R66): the symbol above `0x0004`. -/
theorem encode_pushs (x : Sym) : encode (.pushs x) = x ++ 0x0004#16 :=
  BitVec.append_assoc (x₁ := x) (x₂ := 0x00#8) (x₃ := 0x04#8)

/-- The word of `PUSHB` (30_encoding.md R66): a zero byte and the immediate above `0x0005`. -/
theorem encode_pushb (b : Byte) : encode (.pushb b) = 0x00#8 ++ b ++ 0x0005#16 :=
  BitVec.append_assoc (x₁ := 0x00#8 ++ b) (x₂ := 0x00#8) (x₃ := 0x05#8)

/-- The whole rule of `PUSHS` (40_housekeeping.md R84). -/
theorem exec_pushs {s : State} (hrun : s.err = none) (x : Sym) :
    exec (.pushs x) s = .next (
      if s.symbuf.length = s.params.chunkMax then afterFault .capacity (x ++ 0x0004#16) s
      else { s with symbuf := s.symbuf ++ [x] }) := by
  split
  next hfull =>
    rw [← encode_pushs]
    exact exec_of_commandRule_error Instr.noConfusion hrun ((pushSymbol_error x s _).2 ⟨hfull, rfl⟩)
  next hroom => exact exec_of_commandRule_ok Instr.noConfusion hrun ((pushSymbol_ok x s _).2 ⟨hroom, rfl⟩)

/-- The whole rule of `PUSHB` (40_housekeeping.md R85). -/
theorem exec_pushb {s : State} (hrun : s.err = none) (b : Byte) :
    exec (.pushb b) s = .next (
      if s.inq.length = s.params.inqMax then afterFault .capacity (0x00#8 ++ b ++ 0x0005#16) s
      else { s with inq := s.inq ++ [b] }) := by
  split
  next hfull =>
    rw [← encode_pushb]
    exact exec_of_commandRule_error Instr.noConfusion hrun ((pushByte_error b s _).2 ⟨hfull, rfl⟩)
  next hroom => exact exec_of_commandRule_ok Instr.noConfusion hrun ((pushByte_ok b s _).2 ⟨hroom, rfl⟩)

/-- Settles O28: the words are the encodings of the two commands, and each rule fails only on a full buffer. -/
theorem pushCommandsAppendOrFault : Obligations.PushCommandsAppendOrFault :=
  ⟨fun x => (decode_eq_instr_iff _ _).2 (encode_pushs x), fun b => (decode_eq_instr_iff _ _).2 (encode_pushb b),
    fun _ hrun => ⟨exec_pushs hrun, exec_pushb hrun⟩⟩

end Sys2Proof.Machine
end

section
/-! # The frequency analyzer

`Count(q)` and `FREQ` (41_frequency_analyzer.md R90, R91): the counts follow the loop over the chunk, and the symbols of
the table are those of the chunk, once each. -/

namespace Sys2Proof.Machine

/-! ## The counts -/

theorem freqAt_bumpCount {f : FreqTable} (h : keysRise f = true) (x y : Sym) :
    freqAt (bumpCount f x) y = if y = x then freqAt f x + 1 else freqAt f y := by
  unfold freqAt bumpCount
  rw [tableGet_tableSet _ _ _ _ h]
  split <;> rfl

theorem keysRise_bumpCount {f : FreqTable} (h : keysRise f = true) (x : Sym) : keysRise (bumpCount f x) = true :=
  keysRise_tableSet _ _ _ h

theorem freqAt_foldl_bumpCount (q : List Sym) {f : FreqTable} (h : keysRise f = true) (y : Sym) :
    freqAt (q.foldl bumpCount f) y = freqAt f y + q.count y := by
  induction q generalizing f with
  | nil => rfl
  | cons x q ih =>
    rw [List.foldl_cons, ih (keysRise_bumpCount h x), freqAt_bumpCount h, List.count_cons]
    by_cases hyx : y = x
    · subst hyx
      simp only [if_true, beq_self_eq_true]
      omega
    · simp [hyx, Ne.symm hyx]

/-- `Count(q)` holds for every symbol its number of occurrences in `q` (41_frequency_analyzer.md R91). -/
theorem freqAt_countSymbols (q : List Sym) (x : Sym) : freqAt (countSymbols q) x = q.count x :=
  (freqAt_foldl_bumpCount q rfl x).trans (Nat.zero_add _)

/-! ## The symbols of a table -/

theorem nodup_keys_of_keysRise {α : Type} {t : List (Sym × α)} (h : keysRise t = true) : (t.map (·.1)).Nodup := by
  induction t with
  | nil => exact List.nodup_nil
  | cons e t ih =>
    obtain ⟨hlt, ht⟩ := (keysRise_cons e.1 e.2 t).1 h
    refine List.nodup_cons.2 ⟨fun hmem => ?_, ih ht⟩
    obtain ⟨e', he', heq⟩ := List.mem_map.1 hmem
    exact (hlt e' he').ne (congrArg BitVec.toNat heq.symm)

/-- A canonical table lists exactly the symbols whose count is not 0 (10_state.md R14). -/
theorem mem_keys_iff_freqAt_pos {f : FreqTable} (hrise : keysRise f = true) (hpos : ∀ e ∈ f, 1 ≤ e.2) (x : Sym) :
    x ∈ f.map (·.1) ↔ 0 < freqAt f x := by
  unfold freqAt
  constructor
  · intro hx
    obtain ⟨e, he, rfl⟩ := List.mem_map.1 hx
    rw [tableGet_of_mem f hrise e he]
    exact hpos e he
  · intro hx
    cases hget : tableGet x f with
    | none => simp [hget] at hx
    | some v => exact List.mem_map_of_mem (mem_of_tableGet f x v hget)

theorem keys_countSymbols_perm_dedup (q : List Sym) : ((countSymbols q).map (·.1)).Perm q.dedup := by
  obtain ⟨hrise, hpos⟩ := countSymbols_canonical q
  refine (List.perm_ext_iff_of_nodup (nodup_keys_of_keysRise hrise) q.nodup_dedup).2 fun x => ?_
  rw [mem_keys_iff_freqAt_pos hrise hpos, freqAt_countSymbols, List.count_pos_iff, List.mem_dedup]

/-- `DISTINCT` after `FREQ` (10_state.md R30). -/
theorem distinct_countSymbols (q : List Sym) : distinct (countSymbols q) = q.dedup.length := by
  rw [distinct_eq_length (countSymbols_canonical q).2, ← (keys_countSymbols_perm_dedup q).length_eq, List.length_map]

/-! ## `FREQ` -/

/-- Settles O31: `FREQ` has no fault, and its table is `Count(SYMBUF)`. -/
theorem freqCountsTheChunk : Obligations.FreqCountsTheChunk :=
  ⟨by decide, fun s hrun =>
    ⟨countSymbols s.symbuf, exec_of_commandRule_ok Instr.noConfusion hrun rfl, freqAt_countSymbols s.symbuf,
      distinct_countSymbols s.symbuf⟩⟩

end Sys2Proof.Machine
end

section
/-! # The trie builder

`Build(f)` and `BUILD` (42_trie_builder.md R95 to R98): the node order is a linear order on ranks, the model's scan for
the least node finds the one the rule removes, and so its loop is the rule's. -/

namespace Sys2Proof.Machine

open Sys2Proof.Rules

/-! ## The node order -/

/-- The triple that orders the nodes (R97), in the lexicographic order of the library. -/
def nodeRank (n : QNode) : Nat ×ₗ Nat ×ₗ Nat := toLex (n.freq, toLex (nodeKind n, n.minor))

theorem before_iff_nodeRank_lt (p q : QNode) : Before p q ↔ nodeRank p < nodeRank q := by
  simp only [Before, nodeRank, Prod.Lex.toLex_lt_toLex]

theorem nodeBefore_iff (p q : QNode) : nodeBefore p q = true ↔ Before p q := by
  simp only [nodeBefore, Before, Bool.or_eq_true, Bool.and_eq_true, decide_eq_true_eq]

theorem before_irrefl (p : QNode) : ¬ Before p p := fun h => lt_irrefl _ ((before_iff_nodeRank_lt p p).1 h)

theorem before_trans {p q r : QNode} (hpq : Before p q) (hqr : Before q r) : Before p r := by
  rw [before_iff_nodeRank_lt] at hpq hqr ⊢
  exact hpq.trans hqr

theorem before_total {p q : QNode} (h : (p.freq, nodeKind p, p.minor) ≠ (q.freq, nodeKind q, q.minor)) :
    Before p q ∨ Before q p := by
  rw [before_iff_nodeRank_lt, before_iff_nodeRank_lt]
  exact lt_or_gt_of_ne fun hrank => h (by simpa [nodeRank] using hrank)

/-- Settles O33: comparing nodes is comparing their ranks. -/
theorem nodeOrderIsTheMandatedOne : Obligations.NodeOrderIsTheMandatedOne :=
  ⟨nodeBefore_iff, before_irrefl, fun _ _ _ => before_trans, fun _ _ => before_total⟩

/-! ## Queues -/

/-- Kind and minor key, which alone tell the nodes of a queue apart (R97). -/
def nodeKey (n : QNode) : Nat × Nat := (nodeKind n, n.minor)

/-- A queue of `Build` at insertion sequence number `seq` (R96): its nodes differ in their keys, and its internal nodes
were created earlier. -/
structure QueueWf (seq : Nat) (q : List QNode) : Prop where
  keysNodup : (q.map nodeKey).Nodup
  createdEarlier : ∀ n ∈ q, nodeKind n = 1 → n.minor < seq

theorem QueueWf.perm {seq : Nat} {p q : List QNode} (h : QueueWf seq p) (hpq : p.Perm q) : QueueWf seq q where
  keysNodup := (hpq.map nodeKey).nodup_iff.1 h.keysNodup
  createdEarlier n hn := h.createdEarlier n (hpq.mem_iff.2 hn)

/-- A turn of the loop keeps the queue well-formed: no node in it is numbered `seq` yet. -/
theorem QueueWf.merged {seq : Nat} {a b : QNode} {q : List QNode} (h : QueueWf seq (a :: b :: q)) :
    QueueWf (seq + 1) (mergeNodes a b seq :: q) where
  keysNodup := by
    refine List.nodup_cons.2 ⟨fun hmem => ?_, h.keysNodup.of_cons.of_cons⟩
    obtain ⟨n, hn, hkey⟩ := List.mem_map.1 hmem
    obtain ⟨hkind, hminor⟩ : nodeKind n = 1 ∧ n.minor = seq := Prod.ext_iff.1 hkey
    have hearlier := h.createdEarlier n (by simp [hn]) hkind
    omega
  createdEarlier n hn hkind := by
    rcases List.mem_cons.1 hn with rfl | hn
    · exact Nat.lt_succ_self seq
    · exact Nat.lt_succ_of_lt (h.createdEarlier n (by simp [hn]) hkind)

theorem length_leafQueue (f : FreqTable) : (leafQueue f).length = distinct f := List.length_map _

/-- The queue `Build` starts with is well-formed: the symbols of a table differ. -/
theorem queueWf_leafQueue {f : FreqTable} (h : keysRise f = true) : QueueWf 0 (leafQueue f) where
  keysNodup := by
    have hsymbols : ((f.filter fun e => decide (1 ≤ e.2)).map (·.1)).Nodup :=
      (nodup_keys_of_keysRise h).sublist (List.filter_sublist.map _)
    have hkeys : (leafQueue f).map nodeKey =
        ((f.filter fun e => decide (1 ≤ e.2)).map (·.1)).map fun x => (0, x.toNat) := by
      simp [leafQueue, nodeKey, nodeKind]
    rw [hkeys]
    exact hsymbols.map fun x y hxy => BitVec.eq_of_toNat_eq (congrArg Prod.snd hxy)
  createdEarlier n hn hkind := by
    obtain ⟨e, -, rfl⟩ := List.mem_map.1 hn
    cases hkind

/-! ## The least node -/

/-- `a` is removed first from a queue that leaves `q`: it is before every node of `q`. -/
def LeastOver (a : QNode) (q : List QNode) : Prop := ∀ x ∈ q, Before a x

theorem leastOver_of_popLeast {q rest : List QNode} {m : QNode} (hkeys : (q.map nodeKey).Nodup)
    (h : popLeast q = some (m, rest)) : LeastOver m rest := by
  induction q generalizing m rest with
  | nil => cases h
  | cons x xs ih =>
    obtain ⟨hx, hxs⟩ := List.nodup_cons.1 hkeys
    unfold popLeast at h
    split at h
    next =>
      obtain ⟨-, rfl⟩ : x = m ∧ [] = rest := by simpa using h
      exact fun _ hy => nomatch hy
    next m' rest' hsome =>
      have hleast := ih hxs hsome
      split at h
      next hbefore =>
        obtain ⟨rfl, rfl⟩ : m' = m ∧ x :: rest' = rest := by simpa using h
        exact List.forall_mem_cons.2 ⟨(nodeBefore_iff _ _).1 hbefore, hleast⟩
      next hbefore =>
        obtain ⟨rfl, rfl⟩ : x = m ∧ xs = rest := by simpa using h
        have hperm := perm_of_popLeast hsome
        have hxm' : nodeKey x ≠ nodeKey m' := fun heq =>
          hx (List.mem_map.2 ⟨m', hperm.mem_iff.2 List.mem_cons_self, heq.symm⟩)
        have hfirst : Before x m' := (before_total fun heq => hxm' (congrArg Prod.snd heq)).resolve_right
          fun hmx => hbefore ((nodeBefore_iff _ _).2 hmx)
        intro y hy
        rcases List.mem_cons.1 (hperm.mem_iff.1 hy) with rfl | hy
        · exact hfirst
        · exact before_trans hfirst (hleast y hy)

/-- A queue has at most one least node (R97). -/
theorem LeastOver.unique {a a' : QNode} {q q' : List QNode} (h : LeastOver a q) (h' : LeastOver a' q')
    (hperm : (a :: q).Perm (a' :: q')) : a = a' ∧ q.Perm q' := by
  have heq : a = a' := by
    by_contra hne
    have ha : a ∈ q' := (List.mem_cons.1 (hperm.mem_iff.1 List.mem_cons_self)).resolve_left hne
    have ha' : a' ∈ q := (List.mem_cons.1 (hperm.mem_iff.2 List.mem_cons_self)).resolve_left (Ne.symm hne)
    exact before_irrefl a (before_trans (h a' ha') (h' a ha))
  subst heq
  exact ⟨rfl, hperm.cons_inv⟩

/-! ## The loop of the rule -/

theorem not_buildsTo_nil (seq : Nat) (t : Tree) : ¬ BuildsTo [] seq t := by
  rintro (_ | ⟨_, _, _, _, _, _, helements, _, _, _⟩)
  simpa using helements.length_eq

theorem buildsTo_singleton_iff (n : QNode) (seq : Nat) (t : Tree) : BuildsTo [n] seq t ↔ n.tree = t := by
  constructor
  · rintro (_ | ⟨_, _, _, _, _, _, helements, _, _, _⟩)
    · rfl
    · simpa using helements.length_eq
  · rintro rfl
    exact .last n seq

theorem buildsTo_of_perm {seq : Nat} {p q : List QNode} {t : Tree} (h : BuildsTo p seq t) (hqp : q.Perm p) :
    BuildsTo q seq t := by
  cases h with
  | last n =>
    obtain rfl := List.perm_singleton.1 hqp
    exact .last n seq
  | merge _ a b rest _ _ helements hfirst hsecond hnext =>
    exact .merge q a b rest seq t (hqp.trans helements) hfirst hsecond hnext

/-- A turn of the loop has no choice: the removed pair is the two least nodes, and the order of the rest does not
matter. -/
theorem buildsTo_iff_mergeNodes {q rest : List QNode} {a b : QNode} (hq : q.Perm (a :: b :: rest))
    (ha : LeastOver a (b :: rest)) (hb : LeastOver b rest) (seq : Nat) (t : Tree) :
    BuildsTo q seq t ↔ BuildsTo (mergeNodes a b seq :: rest) (seq + 1) t := by
  refine ⟨fun h => ?_, BuildsTo.merge q a b rest seq t hq ha hb⟩
  cases h with
  | last n => simpa using hq.length_eq
  | merge _ a' b' rest' _ _ hq' ha' hb' hnext =>
    obtain ⟨rfl, htail⟩ := ha.unique ha' (hq.symm.trans hq')
    obtain ⟨rfl, hrest⟩ := hb.unique hb' htail
    exact buildsTo_of_perm hnext (hrest.cons _)

/-! ## The loop of the model -/

theorem mergeLoop_eq_none_iff (fuel seq : Nat) (q : List QNode) : mergeLoop fuel seq q = none ↔ q = [] := by
  induction fuel generalizing seq q with
  | zero => simp [mergeLoop]
  | succ fuel ih =>
    unfold mergeLoop
    split
    next hnone => simp [(popLeast_eq_none q).1 hnone]
    next a qa ha =>
      have hq : q ≠ [] := fun hnil => by simp [hnil, popLeast] at ha
      split <;> simp [hq, ih]

/-- The model's loop is the rule's (R96): it removes the two least nodes at each turn, and the fuel suffices by the
bound (log 11). -/
theorem mergeLoop_eq_some_iff {fuel seq : Nat} {q : List QNode} (hwf : QueueWf seq q) (hfuel : q.length ≤ fuel + 1)
    (t : Tree) : mergeLoop fuel seq q = some t ↔ BuildsTo q seq t := by
  induction fuel generalizing seq q with
  | zero =>
    match q, hfuel with
    | [], _ => simp [mergeLoop, not_buildsTo_nil]
    | [n], _ => simp [mergeLoop, buildsTo_singleton_iff]
  | succ fuel ih =>
    unfold mergeLoop
    split
    next hnone =>
      obtain rfl := (popLeast_eq_none q).1 hnone
      simp [not_buildsTo_nil]
    next a qa ha =>
      have hqa := perm_of_popLeast ha
      split
      next hnone =>
        obtain rfl := (popLeast_eq_none qa).1 hnone
        obtain rfl := List.perm_singleton.1 hqa
        simp [buildsTo_singleton_iff]
      next b qb hb =>
        have hqb := perm_of_popLeast hb
        have hq : q.Perm (a :: b :: qb) := hqa.trans (hqb.cons a)
        have hfirst : LeastOver a (b :: qb) := fun x hx =>
          leastOver_of_popLeast hwf.keysNodup ha x (hqb.mem_iff.2 hx)
        have hsecond : LeastOver b qb := leastOver_of_popLeast (hwf.perm hqa).keysNodup.of_cons hb
        have hlength : (mergeNodes a b seq :: qb).length ≤ fuel + 1 := by
          have := hq.length_eq
          simp only [List.length_cons] at this ⊢
          omega
        rw [ih (hwf.perm hq).merged hlength, buildsTo_iff_mergeNodes hq hfirst hsecond]

/-- Settles O34: `Build(f)` runs the loop on one leaf per counted symbol. -/
theorem buildMergesTheTwoLeast : Obligations.BuildMergesTheTwoLeast :=
  fun _ t hrise => mergeLoop_eq_some_iff (queueWf_leafQueue hrise) (Nat.le_succ _) t

/-! ## The built trie -/

theorem nodes_eq_leaves (t : Tree) : nodes t = 2 * leaves t - 1 := by
  rw [nodes_eq_leafSymbols, length_leafSymbols]

/-- Settles O35: merging keeps the leaves. -/
theorem builtLeavesAreTheCountedSymbols : Obligations.BuiltLeavesAreTheCountedSymbols :=
  fun _ t hbuilt => ⟨leafSymbols_perm_of_buildTree hbuilt, nodes_eq_leaves t⟩

theorem buildTree_eq_none_iff (f : FreqTable) : buildTree f = none ↔ distinct f = 0 := by
  rw [buildTree, mergeLoop_eq_none_iff, ← List.length_eq_zero_iff, length_leafQueue]

/-! ## `BUILD` -/

/-- Settles O32: `Build(FREQ)` has no tree exactly when `DISTINCT` is 0. -/
theorem buildMakesTheTrieOrFaults : Obligations.BuildMakesTheTrieOrFaults := by
  refine ⟨by decide, fun s hrun => ⟨fun hv => ?noTable, fun hv hzero => ?noSymbol, fun hv hsome => ?built⟩⟩
  case noTable => exact exec_of_commandRule_error Instr.noConfusion hrun ((buildTrie_error s _).2 (.inl ⟨hv, rfl⟩))
  case noSymbol =>
    have hnone := (buildTree_eq_none_iff s.freq).2 hzero
    exact exec_of_commandRule_error Instr.noConfusion hrun ((buildTrie_error s _).2 (.inr ⟨hv, hnone, rfl⟩))
  case built =>
    obtain ⟨t, ht⟩ := Option.ne_none_iff_exists'.1 (mt (buildTree_eq_none_iff s.freq).1 hsome)
    refine ⟨t, ht, ?_, exec_of_commandRule_ok Instr.noConfusion hrun ((buildTrie_ok s _).2 ⟨hv, t, ht, rfl⟩)⟩
    rw [nodes_eq_leaves, leaves_of_buildTree ht]

end Sys2Proof.Machine
end

section
/-! # The code table builder

`Codes(t)` and `CODES` (43_code_table_builder.md R105 to R108): the table of the walk holds the last root-to-leaf path
of each symbol, and no path to a leaf continues a path to another. -/

namespace Sys2Proof.Machine

open Sys2Proof.Rules

/-! ## Paths of a tree -/

@[simp] theorem follow_nil (t : Tree) : follow t [] = some t := by
  cases t <;> rfl

@[simp] theorem follow_leaf_cons (x : Sym) (d : Bool) (p : Bits) : follow (.leaf x) (d :: p) = none := rfl

@[simp] theorem follow_internal_false (l r : Tree) (p : Bits) : follow (.internal l r) (false :: p) = follow l p := rfl

@[simp] theorem follow_internal_true (l r : Tree) (p : Bits) : follow (.internal l r) (true :: p) = follow r p := rfl

theorem follow_append (t : Tree) (p q : Bits) : follow t (p ++ q) = (follow t p).bind (follow · q) := by
  induction p generalizing t with
  | nil => simp
  | cons d p ih =>
    match t, d with
    | .leaf _, _ => simp
    | .internal l _, false => exact ih l
    | .internal _ r, true => exact ih r

theorem follow_leaf_eq_leaf_iff (x y : Sym) (p : Bits) : follow (.leaf x) p = some (.leaf y) ↔ p = [] ∧ x = y := by
  cases p <;> simp

/-- A path to a leaf cannot be continued, so of two paths to leaves one begins the other only if both leaves are one. -/
theorem leaf_eq_of_follow_prefix {t : Tree} {x y : Sym} {b c : Bits} (hb : follow t b = some (.leaf x))
    (hc : follow t c = some (.leaf y)) (hprefix : b <+: c) : x = y := by
  obtain ⟨p, rfl⟩ := hprefix
  rw [follow_append, hb] at hc
  exact ((follow_leaf_eq_leaf_iff x y p).1 hc).2

/-! ## The order of the walk -/

@[simp] theorem leftOf_cons_cons (d e : Bool) (p q : Bits) :
    LeftOf (d :: p) (e :: q) ↔ (d = false ∧ e = true) ∨ (d = e ∧ LeftOf p q) := Iff.rfl

theorem leftOf_asymm {p q : Bits} (hpq : LeftOf p q) : ¬ LeftOf q p := by
  induction p generalizing q with
  | nil => exact hpq.elim
  | cons d p ih =>
    match q, hpq with
    | e :: q, hpq =>
      rcases hpq with ⟨rfl, rfl⟩ | ⟨rfl, hpq⟩
      · simp
      · simpa using ih hpq

/-! ## The last path to a symbol -/

/-- The path to the leaf of `y` that the walk of R105 visits last: the right subtree is visited after the left. -/
def lastPath (y : Sym) : Tree → Option Bits
  | .leaf x => if y = x then some [] else none
  | .internal l r => ((lastPath y r).map (true :: ·)).or ((lastPath y l).map (false :: ·))

theorem follow_of_lastPath {y : Sym} {t : Tree} {b : Bits} (h : lastPath y t = some b) :
    follow t b = some (.leaf y) := by
  induction t generalizing b with
  | leaf x =>
    obtain ⟨rfl, rfl⟩ : y = x ∧ [] = b := by simpa [lastPath] using h
    rfl
  | internal l r ihl ihr =>
    rcases Option.or_eq_some_iff.1 h with h | ⟨-, h⟩
    · obtain ⟨p, hp, rfl⟩ := Option.map_eq_some_iff.1 h
      exact ihr hp
    · obtain ⟨p, hp, rfl⟩ := Option.map_eq_some_iff.1 h
      exact ihl hp

/-- Where a path leads to a leaf of `y`, there is a last one, and the path is that one or to its left. -/
theorem exists_lastPath_of_follow {y : Sym} {t : Tree} {p : Bits} (h : follow t p = some (.leaf y)) :
    ∃ b, lastPath y t = some b ∧ (p = b ∨ LeftOf p b) := by
  induction t generalizing p with
  | leaf x =>
    obtain ⟨rfl, rfl⟩ := (follow_leaf_eq_leaf_iff x y p).1 h
    exact ⟨[], by simp [lastPath], .inl rfl⟩
  | internal l r ihl ihr =>
    match p, h with
    | true :: p, h =>
      obtain ⟨b, hb, hp⟩ := ihr h
      exact ⟨true :: b, by simp [lastPath, hb], by simpa using hp⟩
    | false :: p, h =>
      obtain ⟨b, hb, hp⟩ := ihl h
      cases hr : lastPath y r with
      | none => exact ⟨false :: b, by simp [lastPath, hb, hr], by simpa using hp⟩
      | some c => exact ⟨true :: c, by simp [lastPath, hr], by simp⟩

theorem lastPath_eq_some_iff (y : Sym) (t : Tree) (b : Bits) :
    lastPath y t = some b ↔
      follow t b = some (.leaf y) ∧ ∀ b', follow t b' = some (.leaf y) → b' = b ∨ LeftOf b' b := by
  constructor
  · intro h
    refine ⟨follow_of_lastPath h, fun b' hb' => ?_⟩
    obtain ⟨c, hc, hleft⟩ := exists_lastPath_of_follow hb'
    obtain rfl : b = c := Option.some_inj.1 (h.symm.trans hc)
    exact hleft
  · rintro ⟨hb, hlast⟩
    obtain ⟨c, hc, rfl | hbc⟩ := exists_lastPath_of_follow hb
    · exact hc
    · rcases hlast c (follow_of_lastPath hc) with rfl | hcb
      · exact hc
      · exact absurd hcb (leftOf_asymm hbc)

/-! ## The table of codes -/

theorem tableGet_walkCodes (y : Sym) (t : Tree) (acc : Bits) {tab : CodeTable} (h : keysRise tab = true) :
    tableGet y (walkCodes t acc tab) = ((lastPath y t).map (acc ++ ·)).or (tableGet y tab) := by
  induction t generalizing acc tab with
  | leaf x =>
    rw [walkCodes, tableGet_tableSet _ _ _ _ h, lastPath]
    split <;> simp
  | internal l r ihl ihr =>
    rw [walkCodes, ihr _ (walkCodes_keysRise l _ _ h), ihl _ h, lastPath, Option.map_or, Option.or_assoc,
      Option.map_map, Option.map_map]
    simp [Function.comp_def]

theorem tableGet_codesOf_leaf (x y : Sym) :
    tableGet y (codesOf (.leaf x)) = if y = x then some [false] else none := by
  simp [codesOf, tableGet_cons, eq_comm]

theorem tableGet_codesOf_internal (y : Sym) (l r : Tree) :
    tableGet y (codesOf (.internal l r)) = lastPath y (.internal l r) := by
  rw [codesOf, tableGet_walkCodes y _ _ rfl]
  simp

/-- Settles O37: in a tree of two or more leaves the codes are paths to leaves; a single leaf has one code. -/
theorem codesArePrefixFree : Obligations.CodesArePrefixFree := by
  intro t x y b c hb hc
  refine ⟨(codesOf_canonical t).2 _ (mem_of_tableGet _ _ _ hb), fun hxy hprefix => hxy ?_⟩
  cases t with
  | leaf z =>
    rw [tableGet_codesOf_leaf, Option.ite_none_right_eq_some] at hb hc
    exact hb.1.trans hc.1.symm
  | internal l r =>
    rw [tableGet_codesOf_internal] at hb hc
    exact leaf_eq_of_follow_prefix (follow_of_lastPath hb) (follow_of_lastPath hc) hprefix

/-! ## `CODES` -/

/-- Settles O36: the walk writes the last path of each symbol. -/
theorem codesAreRootToLeafPaths : Obligations.CodesAreRootToLeafPaths := by
  refine ⟨by decide, fun s hrun => ⟨fun hv => ?noTrie, fun t hv ht => ?walked⟩⟩
  case noTrie =>
    have hnone : validTrie s = none := by simp [validTrie, hv]
    exact exec_of_commandRule_error Instr.noConfusion hrun ((makeCodes_error s _).2 ⟨hnone, rfl⟩)
  case walked =>
    have hvalid := (validTrie_eq_some s t).2 ⟨hv, ht⟩
    refine ⟨codesOf t, exec_of_commandRule_ok Instr.noConfusion hrun ((makeCodes_ok s _).2 ⟨t, hvalid, rfl⟩), ?_, ?_⟩
    · rintro x rfl y
      exact tableGet_codesOf_leaf x y
    · rintro l r rfl y b
      rw [tableGet_codesOf_internal]
      exact lastPath_eq_some_iff y _ b

end Sys2Proof.Machine
end

section
/-! # The bit packer and unpacker

`PackBits`, `Unpack`, `PACK` and `UNPACK` (44_bit_packer_unpacker.md R110 to R115): packing lays the codes of the chunk
out in the bits of the payload, and unpacking reads root-to-leaf paths off them, so with the tree of the codes it undoes
packing. -/

namespace Sys2Proof.Machine

open Sys2Proof.Rules

/-! ## The bits of a chunk -/

theorem chunkBits_eq (c : CodeTable) (q : List Sym) :
    chunkBits c q = if ∃ x ∈ q, tableGet x c = none then none else some (bitsOf c q) := by
  induction q with
  | nil => simp [chunkBits, bitsOf]
  | cons x q ih =>
    rw [chunkBits, ih]
    cases hx : tableGet x c with
    | none => simp [hx]
    | some b =>
      by_cases hq : ∃ y ∈ q, tableGet y c = none
      · simp [hx, hq]
      · simp [hx, hq, bitsOf]

/-! ## `PackBits` -/

theorem getMsbD_packedByte (bits : Bits) (k : Nat) {i : Nat} (hi : i < 8) :
    (packedByte bits k).getMsbD i = bits.getD (8 * k + i) false := by
  unfold packedByte
  rw [BitVec.getMsbD_ofBoolListBE]
  interval_cases i <;> rfl

theorem getElem?_packBits_eq_some_iff (bits : Bits) (k : Nat) (b : Byte) :
    (packBits bits)[k]? = some b ↔ k < ceilDiv bits.length 8 ∧ packedByte bits k = b := by
  simp [packBits, List.getElem?_eq_some_iff]

/-- Bit position `7 - i` of a byte is its bit `i` from the most significant one (20_memory.md R52). -/
theorem getLsbD_seven_sub (b : Byte) {i : Nat} (hi : i < 8) : b.getLsbD (7 - i) = b.getMsbD i := by
  simp [BitVec.getMsbD_eq_getLsbD, hi]

/-- Settles O39: each byte is built of its eight bits, most significant first. -/
theorem packedBitsAreMsbFirst : Obligations.PackedBitsAreMsbFirst := by
  refine fun bits => ⟨length_packBits bits, fun k b hk i hi => ?_⟩
  obtain ⟨-, rfl⟩ := (getElem?_packBits_eq_some_iff bits k b).1 hk
  rw [getLsbD_seven_sub _ hi, getMsbD_packedByte _ _ hi]

/-! ## `PACK` -/

/-- Settles O38: the packed bits are those of the codes, and there are none exactly when a symbol has no code. -/
theorem packWritesThePayloadOrFaults : Obligations.PackWritesThePayloadOrFaults := by
  refine ⟨by decide, fun s hrun => ?_⟩
  have hbits := chunkBits_eq s.code s.symbuf
  have herror : ∀ e, packChunk s = .error e → exec .pack s = .next (afterFault e 0x00000013#32 s) :=
    fun e he => exec_of_commandRule_error Instr.noConfusion hrun he
  split
  next hv => exact herror _ ((packChunk_error s _).2 (.inl ⟨hv, rfl⟩))
  next hv =>
    have hcoded : s.codeV = true := eq_true_of_ne_false hv
    split
    next hnoCode =>
      rw [if_pos hnoCode] at hbits
      exact herror _ ((packChunk_error s _).2 (.inr (.inl ⟨hcoded, hbits, rfl⟩)))
    next hcodes =>
      rw [if_neg hcodes] at hbits
      split
      next hlarge => exact herror _ ((packChunk_error s _).2 (.inr (.inr ⟨hcoded, _, hbits, hlarge, rfl⟩)))
      next hfits =>
        have hok := (packChunk_ok s _).2 ⟨hcoded, _, hbits, Nat.le_of_not_lt hfits, rfl⟩
        exact exec_of_commandRule_ok Instr.noConfusion hrun hok

/-! ## `UNPACK` -/

/-- Settles O40: the three faults of the rule in their order, and else what `Unpack` returns. -/
theorem unpackRecoversSymbolsOrFaults : Obligations.UnpackRecoversSymbolsOrFaults := by
  refine ⟨by decide, fun s hrun => ?_⟩
  have herror : ∀ e, unpackPayload s = .error e → exec .unpack s = .next (afterFault e 0x00000014#32 s) :=
    fun e he => exec_of_commandRule_error Instr.noConfusion hrun he
  refine ⟨fun hmissing => herror _ ((unpackPayload_error s _).2 (.inl ⟨?missing, rfl⟩)), fun t hv hpaid ht => ?_⟩
  case missing => exact hmissing.imp_left fun hv => by simp [validTrie, hv]
  have hvalid := (validTrie_eq_some s t).2 ⟨hv, ht⟩
  refine ⟨fun hlarge => ?_, fun hfits => ⟨fun hshort => ?_, fun out pos hout => ?_⟩⟩
  · exact herror _ ((unpackPayload_error s _).2 (.inr ⟨t, hvalid, hpaid, .inl ⟨hlarge, rfl⟩⟩))
  · exact herror _ ((unpackPayload_error s _).2 (.inr ⟨t, hvalid, hpaid, .inr ⟨hfits, hshort, rfl⟩⟩))
  · rw [BitVec.ofNat_toNat]
    have hok := (unpackPayload_ok s _).2 ⟨t, hvalid, hpaid, hfits, out, pos, hout, rfl⟩
    exact exec_of_commandRule_ok Instr.noConfusion hrun hok

/-! ## The bits of a payload -/

/-- The bits of a payload are the ones `Unpack` reads, `Bit(p, j)` (R112). -/
theorem getElem?_payloadBits (p : List Byte) (j : Nat) : (payloadBits p)[j]? = bitAt p j := by
  induction p generalizing j with
  | nil => rfl
  | cons b p ih =>
    rw [payloadBits, List.flatMap_cons, ← payloadBits, List.getElem?_append, List.length_map, List.length_range]
    split
    next hj =>
      rw [List.getElem?_map, List.getElem?_range hj, bitAt, Nat.div_eq_of_lt hj, Nat.mod_eq_of_lt hj]
      exact congrArg some (getLsbD_seven_sub b hj)
    next hj =>
      obtain ⟨i, rfl⟩ := Nat.exists_eq_add_of_le' (Nat.le_of_not_lt hj)
      rw [Nat.add_sub_cancel, ih, bitAt, bitAt, Nat.add_div_right _ (by decide), Nat.add_mod_right]
      rfl

/-- The payload's bits from `pos` on begin with `b`. -/
def BitsAt (p : List Byte) (pos : Nat) (b : Bits) : Prop := b <+: (payloadBits p).drop pos

@[simp] theorem bitsAt_nil (p : List Byte) (pos : Nat) : BitsAt p pos [] := List.nil_prefix

theorem bitsAt_cons (p : List Byte) (pos : Nat) (d : Bool) (b : Bits) :
    BitsAt p pos (d :: b) ↔ bitAt p pos = some d ∧ BitsAt p (pos + 1) b := by
  unfold BitsAt
  rw [← getElem?_payloadBits]
  by_cases hpos : pos < (payloadBits p).length
  · rw [List.drop_eq_getElem_cons hpos, List.cons_prefix_cons, List.getElem?_eq_getElem hpos, Option.some_inj, eq_comm]
  · simp [List.drop_eq_nil_of_le (Nat.le_of_not_lt hpos), Nat.le_of_not_lt hpos]

theorem bitsAt_append (p : List Byte) (pos : Nat) (b c : Bits) :
    BitsAt p pos (b ++ c) ↔ BitsAt p pos b ∧ BitsAt p (pos + b.length) c := by
  induction b generalizing pos with
  | nil => simp
  | cons d b ih =>
    rw [List.cons_append, bitsAt_cons, bitsAt_cons, ih, List.length_cons, and_assoc, Nat.add_assoc, Nat.add_comm 1]

theorem bitsAt_zero (p : List Byte) (b : Bits) : BitsAt p 0 b ↔ b = (payloadBits p).take b.length :=
  List.prefix_iff_eq_take

/-- A packed payload begins with the bits that were packed (R111). -/
theorem bitsAt_packBits (bits : Bits) : BitsAt (packBits bits) 0 bits := by
  refine List.prefix_iff_getElem?.2 fun j hj => ?_
  have hbyte : j / 8 < ceilDiv bits.length 8 := by
    have := le_mul_ceilDiv bits.length
    omega
  rw [List.drop_zero, getElem?_payloadBits, bitAt, (getElem?_packBits_eq_some_iff _ _ _).2 ⟨hbyte, rfl⟩,
    Option.map_some, getMsbD_packedByte _ _ (Nat.mod_lt j (by decide)), Nat.div_add_mod,
    List.getD_eq_getElem _ _ hj]

/-! ## `Unpack` -/

theorem follow_internal_cons (l r : Tree) (d : Bool) (p : Bits) :
    follow (.internal l r) (d :: p) = follow (cond d r l) p := by
  cases d <;> rfl

theorem descend_internal (p : List Byte) (l r : Tree) (pos : Nat) :
    descend p (.internal l r) pos = (bitAt p pos).bind fun d => descend p (cond d r l) (pos + 1) := by
  rw [descend]
  rcases bitAt p pos with _ | _ | _ <;> rfl

/-- The inner loop of `Unpack` reads a root-to-leaf path off the payload. -/
theorem descend_eq_some_iff (p : List Byte) (t : Tree) (pos : Nat) (x : Sym) (last : Nat) :
    descend p t pos = some (x, last) ↔
      ∃ path, follow t path = some (.leaf x) ∧ BitsAt p pos path ∧ pos + path.length = last := by
  induction t generalizing pos with
  | leaf y =>
    simp only [follow_leaf_eq_leaf_iff]
    constructor
    · intro h
      obtain ⟨rfl, rfl⟩ : y = x ∧ pos = last := by simpa [descend] using h
      exact ⟨[], ⟨rfl, rfl⟩, bitsAt_nil _ _, rfl⟩
    · rintro ⟨path, ⟨rfl, rfl⟩, -, rfl⟩
      rfl
  | internal l r ihl ihr =>
    have ih : ∀ d pos, descend p (cond d r l) pos = some (x, last) ↔
        ∃ path, follow (cond d r l) path = some (.leaf x) ∧ BitsAt p pos path ∧ pos + path.length = last
      | false => ihl
      | true => ihr
    rw [descend_internal, Option.bind_eq_some_iff]
    constructor
    · rintro ⟨d, hbit, h⟩
      obtain ⟨path, hfollow, hbits, rfl⟩ := (ih d _).1 h
      exact ⟨d :: path, (follow_internal_cons l r d path).trans hfollow, (bitsAt_cons _ _ _ _).2 ⟨hbit, hbits⟩,
        by rw [List.length_cons]; omega⟩
    · rintro ⟨path, hfollow, hbits, rfl⟩
      match path, hfollow with
      | d :: path, hfollow =>
        rw [follow_internal_cons] at hfollow
        obtain ⟨hbit, hbits⟩ := (bitsAt_cons _ _ _ _).1 hbits
        exact ⟨d, hbit, (ih d _).2 ⟨path, hfollow, hbits, by rw [List.length_cons]; omega⟩⟩

theorem unpackFrom_zero_eq_some_iff (p : List Byte) (t : Tree) (pos : Nat) (out : List Sym) (last : Nat) :
    unpackFrom p t 0 pos = some (out, last) ↔ out = [] ∧ pos = last := by
  simp [unpackFrom, eq_comm]

/-- One more turn of `Unpack`: a symbol, then the rest from where it ended. -/
theorem unpackFrom_succ_eq_some_iff (p : List Byte) (t : Tree) (n pos : Nat) (out : List Sym) (last : Nat) :
    unpackFrom p t (n + 1) pos = some (out, last) ↔
      ∃ x rest mid, out = x :: rest ∧ unpackOne p t pos = some (x, mid) ∧ unpackFrom p t n mid = some (rest, last) := by
  constructor
  · intro h
    unfold unpackFrom at h
    split at h
    next => cases h
    next x mid hone =>
      split at h
      next => cases h
      next rest last' hrest =>
        obtain ⟨rfl, rfl⟩ : x :: rest = out ∧ last' = last := by simpa using h
        exact ⟨x, rest, mid, rfl, hone, hrest⟩
  · rintro ⟨x, rest, mid, rfl, hone, hrest⟩
    simp only [unpackFrom, hone, hrest]

/-! ## Fewer symbols -/

theorem pos_le_of_unpackOne {p : List Byte} {t : Tree} {pos last : Nat} {x : Sym}
    (h : unpackOne p t pos = some (x, last)) : pos ≤ last := by
  cases t with
  | leaf y =>
    rw [unpackOne, Option.ite_none_left_eq_some] at h
    obtain ⟨-, -, rfl⟩ : _ ∧ y = x ∧ pos + 1 = last := by simpa using h
    exact Nat.le_succ pos
  | internal l r =>
    obtain ⟨path, -, -, rfl⟩ := (descend_eq_some_iff _ _ _ _ _).1 h
    exact Nat.le_add_right _ _

theorem pos_le_of_unpackFrom {p : List Byte} {t : Tree} {n pos last : Nat} {out : List Sym}
    (h : unpackFrom p t n pos = some (out, last)) : pos ≤ last := by
  induction n generalizing pos out with
  | zero => exact ((unpackFrom_zero_eq_some_iff _ _ _ _ _).1 h).2.le
  | succ n ih =>
    obtain ⟨x, rest, mid, -, hone, hrest⟩ := (unpackFrom_succ_eq_some_iff _ _ _ _ _ _).1 h
    exact (pos_le_of_unpackOne hone).trans (ih hrest)

/-- A smaller count succeeds where a larger one does, with the first of its symbols (R115). -/
theorem unpackFrom_take {p : List Byte} {t : Tree} {m n pos last : Nat} {out : List Sym}
    (h : unpackFrom p t n pos = some (out, last)) (hmn : m ≤ n) :
    ∃ last', unpackFrom p t m pos = some (out.take m, last') ∧ last' ≤ last := by
  induction m generalizing n pos out with
  | zero => exact ⟨pos, rfl, pos_le_of_unpackFrom h⟩
  | succ m ih =>
    match n, hmn with
    | n + 1, hmn =>
      obtain ⟨x, rest, mid, rfl, hone, hrest⟩ := (unpackFrom_succ_eq_some_iff _ _ _ _ _ _).1 h
      obtain ⟨last', htake, hle⟩ := ih hrest (Nat.le_of_succ_le_succ hmn)
      exact ⟨last', (unpackFrom_succ_eq_some_iff _ _ _ _ _ _).2 ⟨x, _, mid, rfl, hone, htake⟩, hle⟩

/-- Settles O41: every bit read is a bit of the payload, and a smaller count stops the same loop earlier. -/
theorem unpackStaysInsideThePayload : Obligations.UnpackStaysInsideThePayload := by
  intro p t n out pos h
  obtain ⟨hlength, hpos⟩ := bounds_of_unpackBits h
  exact ⟨hlength, hpos, fun m hmn => unpackFrom_take h hmn⟩

/-! ## What `Unpack` returns -/

/-- With a single leaf each symbol takes one bit (conflict C3). -/
theorem unpackFrom_leaf (p : List Byte) (x : Sym) (n : Nat) {pos : Nat} (hpos : pos ≤ 8 * p.length) :
    unpackFrom p (.leaf x) n pos =
      if pos + n ≤ 8 * p.length then some (List.replicate n x, pos + n) else none := by
  induction n generalizing pos with
  | zero => rw [Nat.add_zero, if_pos hpos]; rfl
  | succ n ih =>
    rw [unpackFrom, unpackOne]
    by_cases hend : 8 * p.length ≤ pos
    · have hshort : ¬ pos + (n + 1) ≤ 8 * p.length := by omega
      rw [if_pos hend, if_neg hshort]
    · rw [if_neg hend]
      have hturn : pos + 1 + n = pos + (n + 1) := by omega
      simp only [ih (Nat.lt_of_not_le hend), hturn]
      by_cases hfits : pos + (n + 1) ≤ 8 * p.length
      · simp only [if_pos hfits]; rfl
      · simp only [if_neg hfits]

/-- With any other trie the symbols are at the ends of paths that follow one another in the payload. -/
theorem unpackFrom_internal_eq_some_iff (p : List Byte) (l r : Tree) (n pos : Nat) (out : List Sym) (last : Nat) :
    unpackFrom p (.internal l r) n pos = some (out, last) ↔
      ∃ paths : List Bits, paths.length = n ∧
        paths.map (follow (.internal l r)) = out.map (fun x => some (.leaf x)) ∧
        BitsAt p pos paths.flatten ∧ pos + paths.flatten.length = last := by
  induction n generalizing pos out with
  | zero =>
    rw [unpackFrom_zero_eq_some_iff]
    constructor
    · rintro ⟨rfl, rfl⟩
      exact ⟨[], rfl, rfl, bitsAt_nil _ _, rfl⟩
    · rintro ⟨paths, hlength, hends, -, rfl⟩
      obtain rfl := List.length_eq_zero_iff.1 hlength
      exact ⟨by simpa using hends.symm, rfl⟩
  | succ n ih =>
    rw [unpackFrom_succ_eq_some_iff]
    constructor
    · rintro ⟨x, rest, mid, rfl, hone, hrest⟩
      obtain ⟨path, hfollow, hbits, rfl⟩ := (descend_eq_some_iff _ _ _ _ _).1 hone
      obtain ⟨paths, hlength, hends, hflatten, rfl⟩ := (ih _ _).1 hrest
      refine ⟨path :: paths, by simp [hlength], by simp [hfollow, hends], ?_, by simp; omega⟩
      rw [List.flatten_cons]
      exact (bitsAt_append _ _ _ _).2 ⟨hbits, hflatten⟩
    · rintro ⟨paths, hlength, hends, hbits, rfl⟩
      match paths, out, hlength, hends with
      | path :: paths, x :: rest, hlength, hends =>
        obtain ⟨hfollow, hends⟩ := List.cons_eq_cons.1 hends
        obtain ⟨hpath, hflatten⟩ := (bitsAt_append _ _ _ _).1 hbits
        have hlast : pos + path.length + paths.flatten.length = pos + (path :: paths).flatten.length := by
          rw [List.flatten_cons, List.length_append, Nat.add_assoc]
        exact ⟨x, rest, _, rfl, (descend_eq_some_iff p _ pos x _).2 ⟨path, hfollow, hpath, rfl⟩,
          (ih _ rest).2 ⟨paths, Nat.succ_inj.1 hlength, hends, hflatten, hlast⟩⟩

/-- Settles O42: with one leaf a symbol is a bit, and else it is a path of the payload's bits. -/
theorem unpackFollowsThePayloadBits : Obligations.UnpackFollowsThePayloadBits := by
  refine ⟨fun p x n => ?_, fun p l r n out pos => ?_⟩
  · rw [unpackBits, unpackFrom_leaf p x n (Nat.zero_le _), Nat.zero_add]
  · rw [unpackBits, unpackFrom_internal_eq_some_iff]
    refine exists_congr fun paths => and_congr_right fun _ => and_congr_right fun _ => ?_
    rw [Nat.zero_add, bitsAt_zero]
    exact and_congr_left fun hpos => by rw [hpos]

/-! ## Unpacking what was packed -/

theorem exists_follow_of_mem_leafSymbols {t : Tree} {x : Sym} (h : x ∈ leafSymbols t) :
    ∃ p, follow t p = some (.leaf x) := by
  induction t with
  | leaf y =>
    obtain rfl : x = y := List.mem_singleton.1 h
    exact ⟨[], rfl⟩
  | internal l r ihl ihr =>
    rcases List.mem_append.1 h with h | h
    · obtain ⟨p, hp⟩ := ihl h
      exact ⟨false :: p, hp⟩
    · obtain ⟨p, hp⟩ := ihr h
      exact ⟨true :: p, hp⟩

/-- The symbols of the leaves have codes (43_code_table_builder.md R105). -/
theorem tableGet_codesOf_ne_none {t : Tree} {x : Sym} (h : x ∈ leafSymbols t) : tableGet x (codesOf t) ≠ none := by
  cases t with
  | leaf y =>
    obtain rfl : x = y := List.mem_singleton.1 h
    simp [tableGet_codesOf_leaf]
  | internal l r =>
    obtain ⟨p, hp⟩ := exists_follow_of_mem_leafSymbols h
    obtain ⟨b, hb, -⟩ := exists_lastPath_of_follow hp
    simp [tableGet_codesOf_internal, hb]

theorem follow_codesOf_internal {l r : Tree} {x : Sym} (h : x ∈ leafSymbols (.internal l r)) :
    follow (.internal l r) ((tableGet x (codesOf (.internal l r))).getD []) = some (.leaf x) := by
  obtain ⟨b, hb⟩ := Option.ne_none_iff_exists'.1 (tableGet_codesOf_ne_none h)
  rw [hb]
  exact follow_of_lastPath ((tableGet_codesOf_internal x l r).symm.trans hb)

theorem length_bitsOf_codesOf_leaf (x : Sym) (n : Nat) :
    (bitsOf (codesOf (.leaf x)) (List.replicate n x)).length = n := by
  simp [bitsOf, tableGet_codesOf_leaf]

/-- Unpacking undoes packing with the codes of the same tree, for every chunk of symbols of its leaves (R114). -/
theorem unpackBits_packBits_bitsOf {t : Tree} {q : List Sym} (h : ∀ x ∈ q, x ∈ leafSymbols t) :
    unpackBits (packBits (bitsOf (codesOf t) q)) t q.length = some (q, (bitsOf (codesOf t) q).length) := by
  cases t with
  | leaf y =>
    obtain ⟨n, rfl⟩ : ∃ n, q = List.replicate n y :=
      ⟨q.length, List.eq_replicate_iff.2 ⟨rfl, fun x hx => List.mem_singleton.1 (h x hx)⟩⟩
    rw [unpackFollowsThePayloadBits.1, length_packBits, length_bitsOf_codesOf_leaf, List.length_replicate,
      if_pos (le_mul_ceilDiv n)]
  | internal l r =>
    refine (unpackFollowsThePayloadBits.2 _ l r _ _ _).2 ⟨_, List.length_map _, ?_, ?_, rfl⟩
    · rw [List.map_map]
      exact List.map_congr_left fun x hx => follow_codesOf_internal (h x hx)
    · exact (bitsAt_zero _ _).1 (bitsAt_packBits _)

/-- The leaves of the trie of a chunk carry the symbols of the chunk (42_trie_builder.md R98 (a)). -/
theorem mem_leafSymbols_of_buildTree_countSymbols {q : List Sym} {t : Tree} (h : buildTree (countSymbols q) = some t)
    (x : Sym) : x ∈ leafSymbols t ↔ x ∈ q := by
  have hpos : ∀ e ∈ countSymbols q, decide (1 ≤ e.2) = true := fun e he =>
    decide_eq_true ((countSymbols_canonical q).2 e he)
  rw [(leafSymbols_perm_of_buildTree h).mem_iff, List.filter_eq_self.2 hpos,
    (keys_countSymbols_perm_dedup q).mem_iff, List.mem_dedup]

theorem exists_buildTree_countSymbols {q : List Sym} (h : q ≠ []) : ∃ t, buildTree (countSymbols q) = some t := by
  refine Option.ne_none_iff_exists'.1 fun hnone => h ?_
  rwa [buildTree_eq_none_iff, distinct_countSymbols, List.length_eq_zero_iff, List.dedup_eq_nil] at hnone

/-- Settles O43: the leaves of the chunk's own trie carry its symbols, so their codes unpack to them. -/
theorem unpackingReversesPacking : Obligations.UnpackingReversesPacking := by
  intro q hq
  obtain ⟨t, ht⟩ := exists_buildTree_countSymbols hq
  have hleaf : ∀ x ∈ q, x ∈ leafSymbols t := fun x => (mem_leafSymbols_of_buildTree_countSymbols ht x).2
  exact ⟨t, ht, fun x hx => tableGet_codesOf_ne_none (hleaf x hx), unpackBits_packBits_bitsOf hleaf⟩

end Sys2Proof.Machine
end

section
/-! # The trie serializer and deserializer

`Ser`, `Parse`, `SERTRIE` and `DESERTRIE` (45_trie_serializer.md R120 to R126): what `Parse` does at one flag byte is
said once, and from it follow, along the tree, what it reads back and, along the path to a node, how it fails there. -/

namespace Sys2Proof.Machine

open Sys2Proof.Rules

/-! ## A leaf's symbol -/

/-- Fields of one length that read as one number are one field (20_memory.md R51). -/
theorem eq_of_fromBE_eq {a b : List Byte} (hlength : a.length = b.length) (h : fromBE a = fromBE b) : a = b := by
  induction a generalizing b with
  | nil => exact (List.length_eq_zero_iff.1 hlength.symm).symm
  | cons x a ih =>
    match b, hlength with
    | y :: b, hlength =>
      have htail : a.length = b.length := Nat.succ_inj.1 hlength
      have hhead : x.toNat = y.toNat := by rw [← fromBE_cons_div x a, ← fromBE_cons_div y b, h, htail]
      obtain rfl := BitVec.eq_of_toNat_eq hhead
      rw [fromBE, fromBE, htail] at h
      rw [ih htail (Nat.add_left_cancel h)]

theorem be16_ofNat_fromBE {b : List Byte} (h : b.length = 2) : be16 (BitVec.ofNat 16 (fromBE b)) = b := by
  refine eq_of_fromBE_eq h.symm ?_
  have hlt : fromBE b < 2 ^ 16 := (fromBE_lt b).trans_eq (by rw [h]; rfl)
  rw [fromBE_be16, BitVec.toNat_ofNat, Nat.mod_eq_of_lt hlt]

theorem exists_be16_append {q : List Byte} (h : 2 ≤ q.length) : ∃ x rest, q = be16 x ++ rest :=
  ⟨BitVec.ofNat 16 (fromBE (q.take 2)), q.drop 2, by
    rw [be16_ofNat_fromBE (List.length_take_of_le h), List.take_append_drop]⟩

/-! ## `Ser` -/

/-- `4 * leaves - 1` bytes (R120). -/
theorem length_serialize (t : Tree) : (serialize t).length = 4 * leaves t - 1 := by
  induction t with
  | leaf x => rfl
  | internal l r ihl ihr =>
    have := leaves_pos l
    have := leaves_pos r
    rw [serialize, List.length_cons, List.length_append, ihl, ihr, leaves]
    omega

/-! ## `Parse` at one flag byte -/

/-- Parsing goes on after a tree that was read; a failure abandons the whole parse (R123). -/
def Parsed.andThen : Parsed → (Tree → Nat → List Byte → Parsed) → Parsed
  | .tree t cnt rest, next => next t cnt rest
  | .malformed, _ => .malformed
  | .tooBig, _ => .tooBig

theorem andThen_eq_tree_iff (p : Parsed) (next : Tree → Nat → List Byte → Parsed) (t : Tree) (last : Nat)
    (rest : List Byte) :
    p.andThen next = .tree t last rest ↔ ∃ l cl ql, p = .tree l cl ql ∧ next l cl ql = .tree t last rest := by
  cases p <;> simp [Parsed.andThen]

theorem inTake_one_cons (f : Byte) (q : List Byte) : inTake 1 (f :: q) = some ([f], q) := inTake_append [f] q

section
variable (nodeMax fuel cnt : Nat) (q : List Byte)

theorem parseNode_nil : parseNode nodeMax (fuel + 1) cnt [] = .malformed := rfl

variable {nodeMax cnt}

/-- The count is checked before the flag is looked at. -/
theorem parseNode_cons_of_full (f : Byte) (hfull : nodeMax < cnt + 1) :
    parseNode nodeMax (fuel + 1) cnt (f :: q) = .tooBig := by
  rw [parseNode, inTake_one_cons]
  exact if_pos hfull

variable (hroom : cnt + 1 ≤ nodeMax)
include hroom

theorem parseNode_leafFlag (x : Sym) :
    parseNode nodeMax (fuel + 1) cnt (leafFlag :: (be16 x ++ q)) = .tree (.leaf x) (cnt + 1) q := by
  have hsym : inTake 2 (be16 x ++ q) = some (be16 x, q) := inTake_append (be16 x) q
  simp [parseNode, inTake_one_cons, hroom.not_gt, hsym]

theorem parseNode_leafFlag_of_short (h : q.length < 2) :
    parseNode nodeMax (fuel + 1) cnt (leafFlag :: q) = .malformed := by
  simp [parseNode, inTake_one_cons, hroom.not_gt, (inTake_eq_none 2 q).2 h]

theorem parseNode_internalFlag :
    parseNode nodeMax (fuel + 1) cnt (internalFlag :: q) =
      (parseNode nodeMax fuel (cnt + 1) q).andThen fun l cl ql =>
        (parseNode nodeMax fuel cl ql).andThen fun r cr qr => .tree (.internal l r) cr qr := by
  have hflag : internalFlag ≠ leafFlag := by decide
  simp only [parseNode, inTake_one_cons, hroom.not_gt, if_false, List.singleton_inj, hflag, if_true]
  cases parseNode nodeMax fuel (cnt + 1) q with
  | tree l cl ql =>
    simp only [Parsed.andThen]
    cases parseNode nodeMax fuel cl ql <;> rfl
  | malformed => rfl
  | tooBig => rfl

theorem parseNode_of_bad_flag (f : Byte) (hinternal : f ≠ internalFlag) (hleaf : f ≠ leafFlag) :
    parseNode nodeMax (fuel + 1) cnt (f :: q) = .malformed := by
  simp [parseNode, inTake_one_cons, hroom.not_gt, hinternal, hleaf]

end

/-! ## `Parse` and `Ser` -/

/-- `Parse` of a queue that begins with a serialized trie: along the tree each flag is counted, and the first that finds
no room ends the parse. A fuel of one for each byte suffices (log 11). -/
theorem parseNode_serialize_append {nodeMax fuel cnt : Nat} (t : Tree) (rest : List Byte)
    (hfuel : (serialize t).length ≤ fuel) :
    parseNode nodeMax fuel cnt (serialize t ++ rest) =
      if cnt + nodes t ≤ nodeMax then .tree t (cnt + nodes t) rest else .tooBig := by
  match t, fuel, hfuel with
  | .leaf x, fuel + 1, _ =>
    split
    next hroom => exact parseNode_leafFlag fuel rest hroom x
    next hfull => exact parseNode_cons_of_full fuel _ leafFlag (Nat.lt_of_not_le hfull)
  | .internal l r, fuel + 1, hfuel =>
    simp only [serialize, List.length_cons, List.length_append] at hfuel
    have hsum : cnt + nodes (.internal l r) = cnt + 1 + nodes l + nodes r := by rw [nodes]; omega
    rw [hsum, serialize, List.cons_append, List.append_assoc]
    by_cases hroom : cnt + 1 ≤ nodeMax
    · rw [parseNode_internalFlag _ _ hroom, parseNode_serialize_append l _ (by omega)]
      by_cases hleft : cnt + 1 + nodes l ≤ nodeMax
      · rw [if_pos hleft, Parsed.andThen, parseNode_serialize_append r _ (by omega)]
        split <;> rfl
      · rw [if_neg hleft, if_neg (by omega), Parsed.andThen]
    · rw [parseNode_cons_of_full _ _ _ (Nat.lt_of_not_le hroom), if_neg (by omega)]

theorem parseTree_serialize_append (nodeMax : Nat) (t : Tree) (rest : List Byte) :
    parseTree nodeMax (serialize t ++ rest) = if nodes t ≤ nodeMax then .tree t (nodes t) rest else .tooBig := by
  have hparse := parseNode_serialize_append (nodeMax := nodeMax) (fuel := (serialize t ++ rest).length + 1) (cnt := 0) t
    rest (by rw [List.length_append]; omega)
  rwa [Nat.zero_add] at hparse

/-- What `Parse` removed is the serialized form of what it returned (R125). -/
theorem eq_serialize_append_of_parseNode {nodeMax fuel cnt last : Nat} {q rest : List Byte} {t : Tree}
    (h : parseNode nodeMax fuel cnt q = .tree t last rest) : q = serialize t ++ rest := by
  induction fuel generalizing cnt last q rest t with
  | zero => cases h
  | succ fuel ih =>
    match q with
    | [] => cases h
    | f :: q =>
      have hroom : cnt + 1 ≤ nodeMax := by
        by_contra hfull
        rw [parseNode_cons_of_full _ _ _ (Nat.lt_of_not_le hfull)] at h
        cases h
      by_cases hleaf : f = leafFlag
      · subst hleaf
        have hlong : 2 ≤ q.length := by
          by_contra hshort
          rw [parseNode_leafFlag_of_short _ _ hroom (Nat.lt_of_not_le hshort)] at h
          cases h
        obtain ⟨x, q, rfl⟩ := exists_be16_append hlong
        rw [parseNode_leafFlag _ _ hroom] at h
        obtain ⟨rfl, -, rfl⟩ := Parsed.tree.inj h
        rfl
      · have hinternal : f = internalFlag := by
          by_contra hbad
          rw [parseNode_of_bad_flag _ _ hroom f hbad hleaf] at h
          cases h
        rw [hinternal, parseNode_internalFlag _ _ hroom, andThen_eq_tree_iff] at h
        obtain ⟨l, cl, ql, hl, h⟩ := h
        obtain ⟨r, cr, qr, hr, h⟩ := (andThen_eq_tree_iff _ _ _ _ _).1 h
        obtain ⟨rfl, -, rfl⟩ := Parsed.tree.inj h
        rw [hinternal, ih hl, ih hr, serialize, List.cons_append, List.append_assoc]

/-- Settles O45: `Parse` of a serialized trie along the tree, and back along the parse. -/
theorem parseReversesSerialization : Obligations.ParseReversesSerialization := by
  refine ⟨fun nodeMax t rest hfits => ?_, fun nodeMax q t cnt rest h => ?_⟩
  · rw [parseTree_serialize_append, if_pos hfits]
  · have hbounds := bounds_of_parseNode h
    exact ⟨eq_serialize_append_of_parseNode h, by omega, by omega⟩

/-! ## Where `Parse` fails -/

/-- A failure at a flag abandons the whole parse: the bytes before that flag are read along the path to its node. -/
theorem parseNode_bytesBefore {nodeMax fuel cnt n : Nat} {q : List Byte} {p : Parsed} (above : List (Option Tree))
    (hfails : p = .malformed ∨ p = .tooBig) (hflag : ∀ fuel, parseNode nodeMax (fuel + 1) n q = p)
    (hcount : cnt + nodesBefore above = n) (hfits : n ≤ nodeMax) (hfuel : (bytesBefore above).length < fuel) :
    parseNode nodeMax fuel cnt (bytesBefore above ++ q) = p := by
  have habandon : ∀ next, p.andThen next = p := by rcases hfails with rfl | rfl <;> exact fun _ => rfl
  induction above generalizing fuel cnt with
  | nil =>
    match fuel, hfuel with
    | fuel + 1, _ =>
      obtain rfl : cnt = n := hcount
      exact hflag fuel
  | cons left below ih =>
    match left, fuel, hfuel with
    | none, fuel + 1, hfuel =>
      simp only [bytesBefore, nodesBefore, List.length_cons] at hfuel hcount
      have hbelow := ih (fuel := fuel) (cnt := cnt + 1) (by omega) (by omega)
      rw [bytesBefore, List.cons_append]
      exact (parseNode_internalFlag fuel _ (by omega)).trans (by rw [hbelow, habandon])
    | some l, fuel + 1, hfuel =>
      simp only [bytesBefore, nodesBefore, List.length_cons, List.length_append] at hfuel hcount
      have hbelow := ih (fuel := fuel) (cnt := cnt + 1 + nodes l) (by omega) (by omega)
      rw [bytesBefore, List.cons_append, List.append_assoc]
      refine (parseNode_internalFlag fuel _ (by omega)).trans ?_
      rw [parseNode_serialize_append l _ (by omega), if_pos (by omega), Parsed.andThen, hbelow, habandon]

/-- A whole parse fails as `Parse` does at a flag it meets with room for the nodes counted before. -/
theorem parseTree_bytesBefore {nodeMax : Nat} {q : List Byte} {p : Parsed} (above : List (Option Tree))
    (hfails : p = .malformed ∨ p = .tooBig)
    (hflag : ∀ fuel, parseNode nodeMax (fuel + 1) (nodesBefore above) q = p) (hfits : nodesBefore above ≤ nodeMax) :
    parseTree nodeMax (bytesBefore above ++ q) = p :=
  parseNode_bytesBefore above hfails hflag (Nat.zero_add _) hfits (by rw [List.length_append]; omega)

/-- A queue that ends inside a trie with room for all its nodes is malformed. -/
theorem parseNode_take_serialize {nodeMax fuel cnt k : Nat} (t : Tree) (hcut : k < (serialize t).length)
    (hfits : cnt + nodes t ≤ nodeMax) (hfuel : k < fuel) :
    parseNode nodeMax fuel cnt ((serialize t).take k) = .malformed := by
  match t, k, fuel, hfuel with
  | _, 0, fuel + 1, _ => exact parseNode_nil nodeMax fuel cnt
  | .leaf x, k + 1, fuel + 1, _ =>
    exact parseNode_leafFlag_of_short fuel _ hfits ((List.length_take_le _ _).trans_lt (Nat.lt_of_succ_lt_succ hcut))
  | .internal l r, k + 1, fuel + 1, hfuel =>
    simp only [serialize, nodes, List.length_cons, List.length_append] at hcut hfits
    rw [serialize, List.take_succ_cons, parseNode_internalFlag _ _ (by omega)]
    by_cases hleft : k < (serialize l).length
    · rw [List.take_append_of_le_length hleft.le, parseNode_take_serialize l hleft (by omega) (by omega),
        Parsed.andThen]
    · rw [List.take_append, List.take_of_length_le (by omega), parseNode_serialize_append l _ (by omega),
        if_pos (by omega), Parsed.andThen, parseNode_take_serialize r (by omega) (by omega) (by omega), Parsed.andThen]

theorem parseTree_take_serialize {nodeMax k : Nat} (t : Tree) (hcut : k < (serialize t).length)
    (hfits : nodes t ≤ nodeMax) : parseTree nodeMax ((serialize t).take k) = .malformed :=
  parseNode_take_serialize t hcut (by omega) (by rw [List.length_take]; omega)

/-! ## `SERTRIE` -/

/-- Settles O44: the rule fails only for want of a trie or of room for the bytes of its serialized form. -/
theorem sertrieAppendsTheTrieOrFaults : Obligations.SertrieAppendsTheTrieOrFaults := by
  refine ⟨by decide, fun _ => rfl, fun _ _ => rfl, fun s hrun => ⟨fun hv => ?noTrie, fun t hv ht => ?serialized⟩⟩
  case noTrie =>
    have hnone : validTrie s = none := by simp [validTrie, hv]
    exact exec_of_commandRule_error Instr.noConfusion hrun ((writeTrie_error s _).2 (.inl ⟨hnone, rfl⟩))
  case serialized =>
    have hvalid := (validTrie_eq_some s t).2 ⟨hv, ht⟩
    refine ⟨length_serialize t, ?_⟩
    rw [← length_serialize]
    split
    next hfull =>
      have hput := (outPut_eq_error _ s _).2 ⟨hfull, rfl⟩
      exact exec_of_commandRule_error Instr.noConfusion hrun ((writeTrie_error s _).2 (.inr ⟨t, hvalid, hput⟩))
    next hroom =>
      have hput := (outPut_eq_ok _ s _).2 ⟨Nat.le_of_not_lt hroom, rfl⟩
      exact exec_of_commandRule_ok Instr.noConfusion hrun ((writeTrie_ok s _).2 ⟨t, hvalid, hput⟩)

/-! ## `DESERTRIE` -/

section
variable {s : State} (hrun : s.err = none)
include hrun

theorem exec_desertrie_of_tree {t : Tree} {cnt : Nat} {rest : List Byte}
    (h : parseTree s.params.nodeMax s.inq = .tree t cnt rest) :
    exec .desertrie s = .next { s with inq := rest, trie := some t, trieV := true } :=
  exec_of_commandRule_ok Instr.noConfusion hrun ((readTrie_ok s _).2 ⟨t, cnt, rest, h, rfl⟩)

theorem exec_desertrie_of_malformed (h : parseTree s.params.nodeMax s.inq = .malformed) :
    exec .desertrie s = .next (afterFault .malformedTrie 0x00000016#32 s) :=
  exec_of_commandRule_error Instr.noConfusion hrun ((readTrie_error s _).2 (.inl ⟨h, rfl⟩))

theorem exec_desertrie_of_tooBig (h : parseTree s.params.nodeMax s.inq = .tooBig) :
    exec .desertrie s = .next (afterFault .capacity 0x00000016#32 s) :=
  exec_of_commandRule_error Instr.noConfusion hrun ((readTrie_error s _).2 (.inr ⟨h, rfl⟩))

end

/-- Settles O46: `DESERTRIE` does what `Parse` answers, and `Parse` answers a tree only for its serialized form. -/
theorem desertrieReadsExactlyATrie : Obligations.DesertrieReadsExactlyATrie := by
  refine fun s hrun => ⟨fun t rest hq hfits => ?trie, fun hnone => ?noTrie⟩
  case trie =>
    refine exec_desertrie_of_tree hrun (cnt := nodes t) ?_
    rw [hq, parseTree_serialize_append, if_pos hfits]
  case noTrie =>
    cases hparse : parseTree s.params.nodeMax s.inq with
    | tree t cnt rest =>
      obtain ⟨hq, -, hfits⟩ := parseReversesSerialization.2 _ _ _ _ _ hparse
      exact absurd hfits (hnone t rest hq).not_ge
    | malformed => exact .inl (exec_desertrie_of_malformed hrun hparse)
    | tooBig => exact .inr (exec_desertrie_of_tooBig hrun hparse)

/-- Settles O47: the kind of each fault is the answer of `Parse` at the flag where it fails. -/
theorem badTriesFaultByKind : Obligations.BadTriesFaultByKind := by
  intro s hrun
  refine ⟨fun t rest hq hmany => ?tooMany, fun above f rest hq hfull => ?noRoom,
    fun above f rest hq hinternal hleaf hroom => ?badFlag, fun above hq hfits => ?noFlag,
    fun above x hq hshort hroom => ?cutSymbol, fun t k hfits hcut hq => ?cutTrie⟩
  case tooMany =>
    refine exec_desertrie_of_tooBig hrun ?_
    rw [hq, parseTree_serialize_append, if_neg hmany.not_ge]
  case noRoom =>
    refine exec_desertrie_of_tooBig hrun ?_
    rw [hq]
    exact parseTree_bytesBefore above (.inr rfl) (fun fuel => parseNode_cons_of_full fuel rest f (by omega)) hfull.le
  case badFlag =>
    refine exec_desertrie_of_malformed hrun ?_
    rw [hq]
    exact parseTree_bytesBefore above (.inl rfl) (fun fuel => parseNode_of_bad_flag fuel rest hroom f hinternal hleaf)
      (Nat.le_of_succ_le hroom)
  case noFlag =>
    refine exec_desertrie_of_malformed hrun ?_
    rw [hq, ← List.append_nil (bytesBefore above)]
    exact parseTree_bytesBefore above (.inl rfl) (fun fuel => parseNode_nil _ fuel _) hfits
  case cutSymbol =>
    refine exec_desertrie_of_malformed hrun ?_
    rw [hq]
    exact parseTree_bytesBefore above (.inl rfl) (fun fuel => parseNode_leafFlag_of_short fuel x hroom hshort)
      (Nat.le_of_succ_le hroom)
  case cutTrie =>
    refine exec_desertrie_of_malformed hrun ?_
    rw [hq]
    exact parseTree_take_serialize t hcut hfits

end Sys2Proof.Machine
end

section
/-! # Commands in turn

A host program that is a list of commands (30_encoding.md R72) does what the rules of the commands do in turn, up to the
first that fails; the faulted state ignores the commands after it (60_exceptions.md R172). -/

namespace Sys2Proof.Machine

open Sys2Proof.Rules

/-! ## Composition of rules -/

theorem except_bind_assoc {α β γ : Type} (r : Except ErrKind α) (f : α → Except ErrKind β)
    (g : β → Except ErrKind γ) :
    (r.bind f).bind g = r.bind fun a => (f a).bind g :=
  bind_assoc r f g

theorem except_map_eq_bind {α β : Type} (r : Except ErrKind α) (f : α → β) : r.map f = r.bind fun a => .ok (f a) :=
  map_eq_pure_bind f r

/-- The rules of commands in turn, up to the first that fails. -/
def rulesInTurn : List Instr → State → Except ErrKind State
  | [], s => .ok s
  | i :: rest, s => (commandRule i s).bind (rulesInTurn rest)

theorem rulesInTurn_cons_ok {i : Instr} {rest : List Instr} {s t : State} :
    rulesInTurn (i :: rest) s = .ok t ↔ ∃ u, commandRule i s = .ok u ∧ rulesInTurn rest u = .ok t :=
  except_bind_ok _ _ _

theorem rulesInTurn_cons_error {i : Instr} {rest : List Instr} {s : State} {e : ErrKind} :
    rulesInTurn (i :: rest) s = .error e ↔
      commandRule i s = .error e ∨ ∃ u, commandRule i s = .ok u ∧ rulesInTurn rest u = .error e :=
  except_bind_error _ _ _

/-! ## Commands and their rules -/

/-- A command ends unfaulted exactly where its rule completes. -/
theorem exec_eq_next_iff {i : Instr} {s t : State} (hi : i ≠ .sreset) (hrun : s.err = none) (ht : t.err = none) :
    exec i s = .next t ↔ commandRule i s = .ok t := by
  refine ⟨fun h => ?_, exec_of_commandRule_ok hi hrun⟩
  rcases exec_cases h with ⟨hsreset, -⟩ | ⟨-, hfaulted, -⟩ | ⟨-, -, hok⟩ | ⟨-, -, e, -, rfl⟩
  · exact absurd hsreset hi
  · exact absurd hrun hfaulted
  · exact hok
  · cases ht

/-- A rule that fails on a condition alone, run as its command. -/
theorem exec_of_commandRule_ite {i : Instr} {s t : State} {e : ErrKind} {c : Prop} [Decidable c] (hi : i ≠ .sreset)
    (hrun : s.err = none) (hrule : commandRule i s = if c then .error e else .ok t) :
    exec i s = .next (if c then afterFault e (encode i) (commandBase i s) else t) := by
  split
  next hc => exact exec_of_commandRule_error hi hrun (hrule.trans (if_pos hc))
  next hc => exact exec_of_commandRule_ok hi hrun (hrule.trans (if_neg hc))

theorem execAll_cons_of_exec {i : Instr} {s u : State} (h : exec i s = .next u) (rest : List Instr) :
    execAll (i :: rest) s = execAll rest u := by rw [execAll, h]

theorem execAll_of_faulted {is : List Instr} {s : State} (his : ∀ i ∈ is, i ≠ .sreset) (hfaulted : s.err ≠ none) :
    execAll is s = .next s := by
  induction is with
  | nil => rfl
  | cons i rest ih =>
    obtain ⟨hi, hrest⟩ := List.forall_mem_cons.1 his
    rw [execAll_cons_of_exec (exec_faulted i s hi hfaulted), ih hrest]

theorem execAll_of_rulesInTurn_ok {is : List Instr} {s t : State} (his : ∀ i ∈ is, i ≠ .sreset) (hrun : s.err = none)
    (h : rulesInTurn is s = .ok t) : execAll is s = .next t ∧ t.err = none := by
  induction is generalizing s with
  | nil => obtain rfl := (ok_iff _ _).1 h; exact ⟨rfl, hrun⟩
  | cons i rest ih =>
    obtain ⟨hi, hrest⟩ := List.forall_mem_cons.1 his
    obtain ⟨u, hu, htail⟩ := rulesInTurn_cons_ok.1 h
    obtain ⟨-, -, -, hkeeps⟩ := commandRule_frame hu
    rw [execAll_cons_of_exec (exec_of_commandRule_ok hi hrun hu)]
    exact ih hrest ((hkeeps hi).1.trans hrun) htail

theorem execAll_of_rulesInTurn_error {is : List Instr} {s : State} {e : ErrKind} (his : ∀ i ∈ is, i ≠ .sreset)
    (hrun : s.err = none) (h : rulesInTurn is s = .error e) : ∃ u, execAll is s = .next u ∧ u.err = some e := by
  induction is generalizing s with
  | nil => cases h
  | cons i rest ih =>
    obtain ⟨hi, hrest⟩ := List.forall_mem_cons.1 his
    rcases rulesInTurn_cons_error.1 h with hfails | ⟨u, hu, htail⟩
    · refine ⟨afterFault e (encode i) (commandBase i s), ?_, rfl⟩
      rw [execAll_cons_of_exec (exec_of_commandRule_error hi hrun hfails),
        execAll_of_faulted hrest (Option.some_ne_none e)]
    · obtain ⟨-, -, -, hkeeps⟩ := commandRule_frame hu
      rw [execAll_cons_of_exec (exec_of_commandRule_ok hi hrun hu)]
      exact ih hrest ((hkeeps hi).1.trans hrun) htail

/-- A list of commands ends unfaulted exactly where their rules complete in turn. -/
theorem execAll_eq_next_iff {is : List Instr} {s t : State} (his : ∀ i ∈ is, i ≠ .sreset) (hrun : s.err = none)
    (ht : t.err = none) : execAll is s = .next t ↔ rulesInTurn is s = .ok t := by
  refine ⟨fun h => ?_, fun h => (execAll_of_rulesInTurn_ok his hrun h).1⟩
  cases hrules : rulesInTurn is s with
  | ok u =>
    rw [(execAll_of_rulesInTurn_ok his hrun hrules).1] at h
    rw [Host.Outcome.next.inj h]
  | error e =>
    obtain ⟨u, hu, hfaulted⟩ := execAll_of_rulesInTurn_error his hrun hrules
    rw [Host.Outcome.next.inj (hu.symm.trans h), ht] at hfaulted
    cases hfaulted

end Sys2Proof.Machine
end

section
/-! # The chunk codec, encode side

`WRHEAD`, `WRPAY`, `EMITREC` and `ENCODE` (46_chunk_codec.md R130 to R135): the layout of a record is said once, and
each command appends its fields or, for want of room, nothing. -/

namespace Sys2Proof.Machine

open Sys2Proof.Rules

/-! ## A record -/

/-- The bytes of a record (46_chunk_codec.md R130), field by field. -/
def recordOf (idx len : Word) (t : Tree) (payload : List Byte) : List Byte :=
  be32 idx ++ be32 len ++ serialize t ++ be32 (BitVec.ofNat 32 payload.length) ++ payload

theorem recordBytes_eq_recordOf (t : Tree) (s : State) :
    recordBytes t s = recordOf s.chunkIdx s.recLen t s.paybuf :=
  (List.append_assoc _ _ _).symm

/-- The fields of a record, each in front of the queue that the one before it leaves. -/
theorem recordOf_append (idx len : Word) (t : Tree) (payload rest : List Byte) :
    recordOf idx len t payload ++ rest =
      be32 idx ++ be32 len ++ (serialize t ++ (be32 (BitVec.ofNat 32 payload.length) ++ (payload ++ rest))) := by
  simp only [recordOf, List.append_assoc]

theorem length_recordOf (idx len : Word) (t : Tree) (payload : List Byte) :
    (recordOf idx len t payload).length = 12 + (4 * leaves t - 1) + payload.length := by
  simp only [recordOf, List.length_append, length_be32, length_serialize]
  omega

/-- `CHUNK_IDX` counts modulo `2^32` (10_state.md R24). -/
theorem add_one_eq_ofNat_mod (v : Word) : v + 1#32 = BitVec.ofNat 32 ((v.toNat + 1) % 2 ^ 32) :=
  BitVec.eq_of_toNat_eq (by simp)

theorem validTrie_eq_none_of_flag {s : State} (hv : s.trieV = false) : validTrie s = none := by simp [validTrie, hv]

/-! ## The commands of one field -/

/-- Settles O48: the rule fails only on a record length of 0 and for want of room for its 8 bytes. -/
theorem wrheadWritesTheHeadOrFaults : Obligations.WrheadWritesTheHeadOrFaults := by
  refine ⟨by decide, fun s hrun => ?_⟩
  rw [← add_one_eq_ofNat_mod]
  split
  next hzero => exact exec_of_commandRule_error Instr.noConfusion hrun ((writeHead_error s _).2 (.inl ⟨hzero, rfl⟩))
  next hlen =>
    split
    next hfull =>
      exact exec_of_commandRule_error Instr.noConfusion hrun ((writeHead_error s _).2 (.inr ⟨hlen, hfull, rfl⟩))
    next hroom =>
      exact exec_of_commandRule_ok Instr.noConfusion hrun ((writeHead_ok s _).2 ⟨hlen, Nat.le_of_not_lt hroom, rfl⟩)

theorem length_payBytes (s : State) : (payBytes s).length = 4 + s.paybuf.length := List.length_append

/-- Settles O49: the rule fails only without a payload and for want of room for its field. -/
theorem wrpayWritesThePayloadOrFaults : Obligations.WrpayWritesThePayloadOrFaults := by
  refine ⟨by decide, fun s hrun => ?_⟩
  rw [← length_payBytes]
  split
  next hv => exact exec_of_commandRule_error Instr.noConfusion hrun ((writePay_error s _).2 (.inl ⟨hv, rfl⟩))
  next hv =>
    have hpaid : s.payV = true := eq_true_of_ne_false hv
    split
    next hfull =>
      have hput := (outPut_eq_error _ s _).2 ⟨hfull, rfl⟩
      exact exec_of_commandRule_error Instr.noConfusion hrun ((writePay_error s _).2 (.inr ⟨hpaid, hput⟩))
    next hroom =>
      have hput := (outPut_eq_ok _ s _).2 ⟨Nat.le_of_not_lt hroom, rfl⟩
      exact exec_of_commandRule_ok Instr.noConfusion hrun ((writePay_ok s _).2 ⟨hpaid, hput⟩)

/-! ## `EMITREC` -/

/-- With its three fields ready the rule of `EMITREC` appends the record or fails for want of room (R133). -/
theorem emitRecord_eq {s : State} {t : Tree} (hvalid : validTrie s = some t) (hpaid : s.payV = true)
    (hlen : s.recLen ≠ 0#32) :
    emitRecord s =
      if s.params.outqMax < s.outq.length + (12 + (4 * leaves t - 1) + s.paybuf.length) then .error .capacity
      else .ok { s with
        outq := s.outq ++ recordOf s.chunkIdx s.recLen t s.paybuf
        chunkIdx := BitVec.ofNat 32 ((s.chunkIdx.toNat + 1) % 2 ^ 32) } := by
  rw [← length_recordOf s.chunkIdx s.recLen, ← recordBytes_eq_recordOf, ← add_one_eq_ofNat_mod]
  split
  next hfull => exact (emitRecord_error s _).2 (.inr ⟨t, hvalid, hpaid, hlen, hfull, rfl⟩)
  next hroom => exact (emitRecord_ok s _).2 ⟨t, hvalid, hpaid, hlen, Nat.le_of_not_lt hroom, rfl⟩

/-- Settles O50: a missing field is a `SequenceError`; with all three the record is appended as a whole. -/
theorem emitrecWritesTheRecordOrFaults : Obligations.EmitrecWritesTheRecordOrFaults := by
  refine ⟨by decide, fun s hrun => ⟨fun hmissing => ?missing, fun t hv ht hpaid hlen => ?ready⟩⟩
  case missing =>
    have hmissing := hmissing.imp_left validTrie_eq_none_of_flag
    exact exec_of_commandRule_error Instr.noConfusion hrun ((emitRecord_error s _).2 (.inl ⟨hmissing, rfl⟩))
  case ready =>
    have hvalid := (validTrie_eq_some s t).2 ⟨hv, ht⟩
    exact exec_of_commandRule_ite Instr.noConfusion hrun (emitRecord_eq hvalid hpaid hlen)

theorem append_recordBytes (q : List Byte) (t : Tree) (s : State) :
    q ++ recordBytes t s = q ++ headBytes s ++ serialize t ++ payBytes s := by
  simp only [recordBytes, List.append_assoc]

/-- Room for the whole record is room for each of its fields in turn (R133). -/
theorem emitRecord_ok_iff_rulesInTurn (s t : State) :
    emitRecord s = .ok t ↔ rulesInTurn [.wrhead, .sertrie, .wrpay] s = .ok t := by
  constructor
  · intro h
    obtain ⟨tr, hvalid, hpaid, hlen, hroom, rfl⟩ := (emitRecord_ok s _).1 h
    rw [← List.length_append, append_recordBytes] at hroom
    simp only [List.length_append] at hroom
    refine rulesInTurn_cons_ok.2 ⟨_, (writeHead_ok s _).2 ⟨hlen, ?head, rfl⟩, ?_⟩
    case head => omega
    refine rulesInTurn_cons_ok.2 ⟨_, (writeTrie_ok _ _).2 ⟨tr, hvalid, (outPut_eq_ok _ _ _).2 ⟨?trie, rfl⟩⟩, ?_⟩
    case trie => rw [List.length_append]; exact Nat.le_of_add_right_le hroom
    refine rulesInTurn_cons_ok.2 ⟨_, (writePay_ok _ _).2 ⟨hpaid, (outPut_eq_ok _ _ _).2 ⟨?pay, rfl⟩⟩, ?_⟩
    case pay => rw [List.length_append, List.length_append]; exact hroom
    rw [append_recordBytes]
    rfl
  · intro h
    obtain ⟨_, hhead, h⟩ := rulesInTurn_cons_ok.1 h
    obtain ⟨_, htrie, h⟩ := rulesInTurn_cons_ok.1 h
    obtain ⟨_, hpay, h⟩ := rulesInTurn_cons_ok.1 h
    obtain rfl := (ok_iff _ _).1 h
    obtain ⟨hlen, -, rfl⟩ := (writeHead_ok _ _).1 hhead
    obtain ⟨tr, hvalid, hput⟩ := (writeTrie_ok _ _).1 htrie
    obtain ⟨-, rfl⟩ := (outPut_eq_ok _ _ _).1 hput
    obtain ⟨hpaid, hput⟩ := (writePay_ok _ _).1 hpay
    obtain ⟨hroom, rfl⟩ := (outPut_eq_ok _ _ _).1 hput
    refine (emitRecord_ok s _).2 ⟨tr, hvalid, hpaid, hlen, ?_, ?_⟩
    · rw [← List.length_append, append_recordBytes, List.length_append]
      exact hroom
    · rw [append_recordBytes]
      rfl

/-- Settles O51: both end unfaulted exactly where their rules complete. -/
theorem emitrecIsTheThreeFieldCommands : Obligations.EmitrecIsTheThreeFieldCommands :=
  fun s t hrun ht => calc
    exec .emitrec s = .next t ↔ emitRecord s = .ok t := exec_eq_next_iff Instr.noConfusion hrun ht
    _ ↔ rulesInTurn [.wrhead, .sertrie, .wrpay] s = .ok t := emitRecord_ok_iff_rulesInTurn s t
    _ ↔ execAll [.wrhead, .sertrie, .wrpay] s = .next t := (execAll_eq_next_iff (by decide) hrun ht).symm

/-! ## `ENCODE` -/

/-- The state in which `ENCODE` packs, `t` being the trie of the chunk (R134). -/
def codedChunk (t : Tree) (s : State) : State :=
  { countChunk s with trie := some t, trieV := true, code := codesOf t, codeV := true }

/-- The state in which `ENCODE` emits the record (R134). -/
def packedChunk (t : Tree) (s : State) : State :=
  { codedChunk t s with
    paybuf := packBits (bitsOf (codesOf t) s.symbuf)
    bitcnt := BitVec.ofNat 64 (bitsOf (codesOf t) s.symbuf).length
    recLen := countWord s.symbuf.length
    payV := true }

/-- Every symbol of a chunk has a code in the table of the chunk's own trie. -/
theorem chunkBits_codesOf {q : List Sym} {t : Tree} (hbuilt : buildTree (countSymbols q) = some t) :
    chunkBits (codesOf t) q = some (bitsOf (codesOf t) q) := by
  rw [chunkBits_eq, if_neg]
  rintro ⟨x, hx, hnone⟩
  exact tableGet_codesOf_ne_none ((mem_leafSymbols_of_buildTree_countSymbols hbuilt x).2 hx) hnone

section
variable {s : State} {t : Tree} (hbuilt : buildTree (countSymbols s.symbuf) = some t)
include hbuilt

theorem encodeChunk_eq_codedChunk (hchunk : s.symbuf ≠ []) :
    encodeChunk s = ((packChunk (codedChunk t s)).bind emitRecord).map clearChunk := by
  have hbuild : buildTrie (countChunk s) = .ok { countChunk s with trie := some t, trieV := true } :=
    (buildTrie_ok _ _).2 ⟨rfl, t, hbuilt, rfl⟩
  obtain ⟨x, q, hq⟩ := List.exists_cons_of_ne_nil hchunk
  rw [encodeChunk, hbuild, hq]
  rfl

theorem packChunk_codedChunk :
    packChunk (codedChunk t s) =
      if s.params.payMax < ((bitsOf (codesOf t) s.symbuf).length + 7) / 8 then .error .capacity
      else .ok (packedChunk t s) := by
  have hbits := chunkBits_codesOf hbuilt
  split
  next hlarge => exact (packChunk_error _ _).2 (.inr (.inr ⟨rfl, _, hbits, hlarge, rfl⟩))
  next hfits => exact (packChunk_ok _ _).2 ⟨rfl, _, hbits, Nat.le_of_not_lt hfits, rfl⟩

theorem emitRecord_packedChunk (hlen : countWord s.symbuf.length ≠ 0#32) :
    emitRecord (packedChunk t s) =
      if s.params.outqMax < s.outq.length +
          (12 + (4 * s.symbuf.dedup.length - 1) + ((bitsOf (codesOf t) s.symbuf).length + 7) / 8) then
        .error .capacity
      else .ok { packedChunk t s with
        outq := s.outq ++ recordOf s.chunkIdx (countWord s.symbuf.length) t (packBits (bitsOf (codesOf t) s.symbuf))
        chunkIdx := BitVec.ofNat 32 ((s.chunkIdx.toNat + 1) % 2 ^ 32) } := by
  have hpacked : ((bitsOf (codesOf t) s.symbuf).length + 7) / 8 = (packedChunk t s).paybuf.length :=
    (length_packBits _).symm
  rw [hpacked, ← distinct_countSymbols, ← leaves_of_buildTree hbuilt]
  exact emitRecord_eq rfl rfl hlen

/-- The whole rule of `ENCODE` on a chunk (R134). -/
theorem encodeChunk_eq (hchunk : s.symbuf ≠ []) (hlen : countWord s.symbuf.length ≠ 0#32) :
    encodeChunk s =
      if s.params.payMax < ((bitsOf (codesOf t) s.symbuf).length + 7) / 8 ∨
          s.params.outqMax < s.outq.length +
            (12 + (4 * s.symbuf.dedup.length - 1) + ((bitsOf (codesOf t) s.symbuf).length + 7) / 8) then
        .error .capacity
      else .ok { clearChunk s with
        outq := s.outq ++ recordOf s.chunkIdx (countWord s.symbuf.length) t (packBits (bitsOf (codesOf t) s.symbuf))
        recLen := countWord s.symbuf.length
        chunkIdx := BitVec.ofNat 32 ((s.chunkIdx.toNat + 1) % 2 ^ 32) } := by
  have hemit := emitRecord_packedChunk hbuilt hlen
  rw [encodeChunk_eq_codedChunk hbuilt hchunk, packChunk_codedChunk hbuilt]
  split
  next hlarge => rw [if_pos (.inl hlarge)]; rfl
  next hpay =>
    rw [Except.bind, hemit]
    split
    next hfull => rw [if_pos (.inr hfull)]; rfl
    next hroom => rw [if_neg (not_or.2 ⟨hpay, hroom⟩)]; rfl

end

theorem toNat_countWord_symbuf {s : State} (h : Inv s) : (countWord s.symbuf.length).toNat = s.symbuf.length := by
  obtain ⟨-, hchunkMax, -⟩ := (params_wf_iff _).1 h.params
  exact toNat_countWord (h.symbuf_le.trans hchunkMax)

theorem countWord_length_ne_zero {s : State} (h : Inv s) (hchunk : s.symbuf ≠ []) :
    countWord s.symbuf.length ≠ 0#32 := by
  intro hzero
  have hlen := toNat_countWord_symbuf h
  rw [hzero] at hlen
  exact hchunk (List.length_eq_zero_iff.1 hlen.symm)

/-- Settles O52: the trie, the codes and a code for every symbol always exist, so only the two capacities can fail. -/
theorem encodeEmitsOneRecord : Obligations.EncodeEmitsOneRecord := by
  refine ⟨by decide, fun s hinv hrun => ⟨fun hempty => ?empty, fun hchunk => ?chunk⟩⟩
  case empty => exact exec_of_commandRule_ok Instr.noConfusion hrun ((encodeChunk_ok s _).2 (.inl ⟨hempty, rfl⟩))
  case chunk =>
    obtain ⟨t, hbuilt⟩ := exists_buildTree_countSymbols hchunk
    refine ⟨t, _, hbuilt, rfl, ?_⟩
    have hrule := encodeChunk_eq hbuilt hchunk (countWord_length_ne_zero hinv hchunk)
    rw [recordOf, length_packBits] at hrule
    exact exec_of_commandRule_ite Instr.noConfusion hrun hrule

/-- On a chunk the rule of `ENCODE` is the rules of `encode.p` in turn (30_encoding.md R72). -/
theorem encodeChunk_eq_rulesInTurn {s : State} (hchunk : s.symbuf ≠ []) :
    encodeChunk s = rulesInTurn encodeSteps s := by
  obtain ⟨x, q, hq⟩ := List.exists_cons_of_ne_nil hchunk
  simp only [encodeChunk, hq, encodeSteps, rulesInTurn, commandRule, except_map_eq_bind, except_bind_assoc]
  rfl

/-- Settles O53: both end unfaulted exactly where the same rules complete in turn. -/
theorem encodeIsThePrimitiveSequence : Obligations.EncodeIsThePrimitiveSequence := by
  intro s t hrun hchunk ht
  rw [exec_eq_next_iff Instr.noConfusion hrun ht, execAll_eq_next_iff (by decide) hrun ht,
    ← encodeChunk_eq_rulesInTurn hchunk, commandRule]

end Sys2Proof.Machine
end

section
/-! # The chunk codec, decode side

`RDHEAD`, `RDPAY` and `DECODE` (46_chunk_codec.md R136 to R145): what each field's rule does on a queue that begins with
that field is said once, and `DECODE` follows from it along the fields of a record, whole or cut. -/

namespace Sys2Proof.Machine

open Sys2Proof.Rules

/-! ## The head -/

theorem ofNat_fromBE_be32 (v : Word) : BitVec.ofNat 32 (fromBE (be32 v)) = v := by
  rw [fromBE_be32, BitVec.ofNat_toNat, BitVec.setWidth_eq]

theorem readHead_of_fields {s : State} {idx len : Word} {q : List Byte} (hq : s.inq = be32 idx ++ be32 len ++ q) :
    readHead s = .ok { s with inq := q, recIdx := idx, recLen := len } := by
  have htaken : inTake 8 s.inq = some (be32 idx ++ be32 len, q) := (inTake_eq_some _ _ _ _).2 ⟨hq, rfl⟩
  refine (readHead_ok s _).2 ⟨_, _, htaken, ?_⟩
  rw [List.take_left' (length_be32 idx), List.drop_left' (length_be32 idx), ofNat_fromBE_be32, ofNat_fromBE_be32]

/-- Settles O54: the rule fails only on a queue shorter than the head. -/
theorem rdheadReadsTheHead : Obligations.RdheadReadsTheHead := by
  refine ⟨by decide, fun s hrun => ⟨fun hempty => ?empty, fun hpos hshort => ?short, fun idx len rest hq => ?head⟩⟩
  case empty => exact exec_of_commandRule_ok Instr.noConfusion hrun ((atRecordStart_ok _ s _).2 (.inl ⟨hempty, rfl⟩))
  case short =>
    have hne : s.inq ≠ [] := List.length_pos_iff.1 hpos
    have hfails := (readHead_error (clearEoc s) _).2 ⟨Nat.lt_succ_of_le hshort, rfl⟩
    exact exec_of_commandRule_error Instr.noConfusion hrun ((atRecordStart_error _ s _).2 ⟨hne, hfails⟩)
  case head =>
    have hne : s.inq ≠ [] := by rw [hq]; exact List.cons_ne_nil _ _
    have hread := readHead_of_fields (s := clearEoc s) hq
    exact exec_of_commandRule_ok Instr.noConfusion hrun ((atRecordStart_ok _ s _).2 (.inr ⟨hne, hread⟩))

/-! ## The payload -/

/-- The rule of `RDPAY` on a queue that begins with a length (R138). -/
theorem readPay_of_length {s : State} {len : Word} {q : List Byte} (hq : s.inq = be32 len ++ q) :
    readPay s =
      if s.params.payMax < len.toNat then .error .capacity
      else if q.length < len.toNat then .error .truncatedRecord
      else .ok { s with inq := q.drop len.toNat, paybuf := q.take len.toNat, bitcnt := 0#64, payV := true } := by
  have hlen : inTake 4 s.inq = some (be32 len, q) := (inTake_eq_some _ _ _ _).2 ⟨hq, length_be32 len⟩
  rw [← fromBE_be32]
  split
  next hlarge => exact (readPay_error s _).2 (.inr ⟨_, q, hlen, .inl ⟨hlarge, rfl⟩⟩)
  next hfits =>
    have hfits := Nat.le_of_not_lt hfits
    split
    next hshort => exact (readPay_error s _).2 (.inr ⟨_, q, hlen, .inr ⟨hfits, hshort, rfl⟩⟩)
    next hall => exact (readPay_ok s _).2 ⟨_, q, _, _, hlen, hfits, if_pos (Nat.le_of_not_lt hall), rfl⟩

/-- Settles O55: the rule fails on a cut length, a length that is too great and a cut payload, in this order. -/
theorem rdpayReadsThePayload : Obligations.RdpayReadsThePayload := by
  refine ⟨by decide, fun s hrun => ⟨fun hshort => ?short, fun len rest hq => ?length⟩⟩
  case short =>
    exact exec_of_commandRule_error Instr.noConfusion hrun ((readPay_error s _).2 (.inl ⟨hshort, rfl⟩))
  case length =>
    have hread := readPay_of_length hq
    split
    next hlarge => exact exec_of_commandRule_error Instr.noConfusion hrun (hread.trans (if_pos hlarge))
    next hfits =>
      rw [if_neg hfits] at hread
      exact exec_of_commandRule_ite Instr.noConfusion hrun hread

theorem toNat_ofNat_word {n : Nat} (h : n ≤ 2 ^ 32 - 1) : (BitVec.ofNat 32 n).toNat = n := toNat_countWord h

/-- The rule of `RDPAY` on a queue that begins with a whole payload field (R138). -/
theorem readPay_of_payload {s : State} {payload rest : List Byte}
    (hq : s.inq = be32 (BitVec.ofNat 32 payload.length) ++ (payload ++ rest)) (hlen : payload.length ≤ 2 ^ 32 - 1) :
    readPay s =
      if s.params.payMax < payload.length then .error .capacity
      else .ok { s with inq := rest, paybuf := payload, bitcnt := 0#64, payV := true } := by
  have hword := toNat_ofNat_word hlen
  have hall : ¬ (payload ++ rest).length < payload.length := by rw [List.length_append]; omega
  rw [readPay_of_length hq, hword, if_neg hall, List.drop_left, List.take_left]

/-- A queue that ends inside a payload field whose length is in range is truncated (R138, 60_exceptions.md R164). -/
theorem readPay_of_cut {s : State} {len : Word} {payload : List Byte} {k : Nat}
    (hq : s.inq = (be32 len ++ payload).take k) (hpayload : payload.length = len.toNat)
    (hfits : len.toNat ≤ s.params.payMax) (hcut : k < 4 + payload.length) :
    readPay s = .error .truncatedRecord := by
  by_cases hlen : k < 4
  · refine (readPay_error s _).2 (.inl ⟨?_, rfl⟩)
    rw [hq]
    exact (List.length_take_le _ _).trans_lt hlen
  · rw [List.take_append, length_be32, List.take_of_length_le (Nat.le_of_not_lt hlen)] at hq
    rw [readPay_of_length hq, if_neg hfits.not_gt, if_pos]
    rw [List.length_take]
    omega

/-! ## `DECODE` -/

theorem readTrie_of_serialize {s : State} {t : Tree} {q : List Byte} (hq : s.inq = serialize t ++ q)
    (hfits : nodes t ≤ s.params.nodeMax) : readTrie s = .ok { s with inq := q, trie := some t, trieV := true } := by
  refine (readTrie_ok s _).2 ⟨t, nodes t, q, ?_, rfl⟩
  rw [hq, parseTree_serialize_append, if_pos hfits]

/-- After `EOC <- 0` the rule of `DECODE` is the rules of `decode.p` in turn, then `ClearWork` (R140). -/
theorem decodeRecord_eq_rulesInTurn {s : State} (hne : s.inq ≠ []) :
    decodeRecord (clearEoc s) = (rulesInTurn decodeSteps s).map clearWork := by
  obtain ⟨b, q, hq⟩ := List.exists_cons_of_ne_nil hne
  simp only [decodeRecord, decodeSteps, rulesInTurn, commandRule, atRecordStart, hq, except_map_eq_bind,
    except_bind_assoc]
  rfl

section
variable {s : State} (hrun : s.err = none) (hne : s.inq ≠ [])
include hrun hne

theorem exec_decode_of_ok {t : State} (h : decodeRecord (clearEoc s) = .ok t) : exec .decode s = .next t :=
  exec_of_commandRule_ok Instr.noConfusion hrun ((atRecordStart_ok _ s _).2 (.inr ⟨hne, h⟩))

theorem exec_decode_of_error {e : ErrKind} (h : decodeRecord (clearEoc s) = .error e) :
    exec .decode s = .next (afterFault e 0x00000026#32 { s with eoc := false }) :=
  exec_of_commandRule_error Instr.noConfusion hrun ((atRecordStart_error _ s _).2 ⟨hne, h⟩)

end

theorem exec_decode_of_inq_nil {s : State} (hrun : s.err = none) (hempty : s.inq = []) :
    exec .decode s = .next { s with eoc := true } :=
  exec_of_commandRule_ok Instr.noConfusion hrun ((atRecordStart_ok _ s _).2 (.inl ⟨hempty, rfl⟩))

/-- Settles O57: the same rules in turn, so the same end or the same first fault. -/
theorem decodeIsThePrimitiveSequence : Obligations.DecodeIsThePrimitiveSequence := by
  intro s hrun hne
  have hrule := decodeRecord_eq_rulesInTurn hne
  cases hturn : rulesInTurn decodeSteps s with
  | ok u =>
    rw [hturn] at hrule
    obtain ⟨hu, hok⟩ := execAll_of_rulesInTurn_ok (by decide) hrun hturn
    refine ⟨u, hu, fun _ => exec_decode_of_ok hrun hne hrule, fun e he => ?_⟩
    exact absurd (he.symm.trans hok) (Option.some_ne_none e)
  | error e =>
    rw [hturn] at hrule
    obtain ⟨u, hu, hfaulted⟩ := execAll_of_rulesInTurn_error (by decide) hrun hturn
    refine ⟨u, hu, fun hok => absurd (hfaulted.symm.trans hok) (Option.some_ne_none e), fun e' he' => ?_⟩
    obtain rfl : e = e' := Option.some.inj (hfaulted.symm.trans he')
    exact exec_decode_of_error hrun hne hrule

/-- The state in which `DECODE` unpacks: the fields of a record are read, `rest` is what follows it (R140). -/
def fieldsRead (idx len : Word) (t : Tree) (payload rest : List Byte) (s : State) : State :=
  { s with
    inq := rest, recIdx := idx, recLen := len, trie := some t, trieV := true
    paybuf := payload, bitcnt := 0#64, payV := true }

/-- With all fields of a record present `DECODE` comes to unpacking, unless the payload does not fit (R140). -/
theorem decodeRecord_of_recordOf {s : State} {idx len : Word} {t : Tree} {payload rest : List Byte}
    (hq : s.inq = recordOf idx len t payload ++ rest) (hlen : payload.length ≤ 2 ^ 32 - 1)
    (hnodes : nodes t ≤ s.params.nodeMax) :
    decodeRecord s =
      if s.params.payMax < payload.length then .error .capacity
      else (unpackPayload (fieldsRead idx len t payload rest s)).map clearWork := by
  rw [recordOf_append] at hq
  rw [decodeRecord, readHead_of_fields hq, Except.bind, readTrie_of_serialize rfl, Except.bind,
    readPay_of_payload rfl hlen]
  · split <;> rfl
  · exact hnodes

/-- Settles O56: the fields of the record are read in turn, and then `Unpack` decides. -/
theorem decodeReadsOneRecord : Obligations.DecodeReadsOneRecord := by
  refine fun s hrun => ⟨exec_decode_of_inq_nil hrun, fun idx len payLen t payload rest hq hpayload hnodes => ?_⟩
  obtain rfl : payLen = BitVec.ofNat 32 payload.length := by rw [hpayload, BitVec.ofNat_toNat, BitVec.setWidth_eq]
  rw [← hpayload]
  have hne : s.inq ≠ [] := by rw [hq]; exact List.cons_ne_nil _ _
  have hrule := decodeRecord_of_recordOf (s := clearEoc s) (payload := payload) (rest := rest) hq
    (hpayload.trans_le (Nat.le_pred_of_lt (BitVec.isLt _))) hnodes
  rw [clearEoc_params] at hrule
  refine ⟨fun hlarge => ?large, fun hpay hchunk => ⟨fun hshort => ?short, fun out pos hout => ?unpacked⟩⟩
  case large =>
    refine exec_decode_of_error hrun hne (hrule.trans ?_)
    split
    next => rfl
    next hpay =>
      have hchunk := hlarge.resolve_left hpay
      rw [(unpackPayload_error _ _).2 (.inr ⟨t, rfl, rfl, .inl ⟨hchunk, rfl⟩⟩)]
      rfl
  case short =>
    refine exec_decode_of_error hrun hne (hrule.trans ?_)
    rw [if_neg hpay.not_gt, (unpackPayload_error _ _).2 (.inr ⟨t, rfl, rfl, .inr ⟨hchunk, hshort, rfl⟩⟩)]
    rfl
  case unpacked =>
    refine exec_decode_of_ok hrun hne (hrule.trans ?_)
    rw [if_neg hpay.not_gt, (unpackPayload_ok _ _).2 ⟨t, rfl, rfl, hchunk, out, pos, hout, rfl⟩, BitVec.ofNat_toNat]
    rfl

/-! ## A record that is cut -/

/-- The kind of fault of a record cut after `k` bytes, `n` being the length of its trie (R142). -/
def cutFault (n k : Nat) : ErrKind :=
  if k < 8 then .truncatedRecord else if k < 8 + n then .malformedTrie else .truncatedRecord

theorem take_recordOf (idx len : Word) (t : Tree) (payload : List Byte) {k : Nat} (hk : 8 ≤ k) :
    (recordOf idx len t payload).take k =
      be32 idx ++ be32 len ++ (serialize t ++ (be32 (BitVec.ofNat 32 payload.length) ++ payload)).take (k - 8) := by
  have hfields := recordOf_append idx len t payload []
  rw [List.append_nil, List.append_nil] at hfields
  rw [hfields, List.take_append, List.take_of_length_le hk]
  rfl

/-- The field that the cut falls into decides: the fields before it are read, and its own rule fails (R142). -/
theorem decodeRecord_of_cut {s : State} {idx len : Word} {t : Tree} {payload : List Byte} {k : Nat}
    (hq : s.inq = (recordOf idx len t payload).take k) (hcut : k < (recordOf idx len t payload).length)
    (hnodes : nodes t ≤ s.params.nodeMax) (hpay : payload.length ≤ s.params.payMax)
    (hlen : payload.length ≤ 2 ^ 32 - 1) : decodeRecord s = .error (cutFault (serialize t).length k) := by
  unfold cutFault
  split
  next hhead =>
    have hshort : s.inq.length < 8 := by rw [hq]; exact (List.length_take_le _ _).trans_lt hhead
    exact (decodeRecord_error s _).2 (.inl ((readHead_error s _).2 ⟨hshort, rfl⟩))
  next hhead =>
    rw [take_recordOf _ _ _ _ (Nat.le_of_not_lt hhead)] at hq
    have hread := readHead_of_fields hq
    refine (decodeRecord_error s _).2 (.inr ⟨_, hread, ?_⟩)
    rw [length_recordOf, ← length_serialize] at hcut
    split
    next htrie =>
      refine .inl ((readTrie_error _ _).2 (.inl ⟨?_, rfl⟩))
      rw [List.take_append_of_le_length (by omega)]
      exact parseTree_take_serialize t (by omega) hnodes
    next htrie =>
      have hqueue : ((serialize t ++ (be32 (BitVec.ofNat 32 payload.length) ++ payload)).take (k - 8)) =
          serialize t ++ (be32 (BitVec.ofNat 32 payload.length) ++ payload).take (k - 8 - (serialize t).length) := by
        rw [List.take_append, List.take_of_length_le (by omega)]
      have hword := toNat_ofNat_word hlen
      exact .inr ⟨_, readTrie_of_serialize hqueue hnodes, .inl (readPay_of_cut rfl hword.symm (hword.trans_le hpay)
        (by omega))⟩

/-! ## A record that `ENCODE` wrote -/

theorem exists_recordOf_of_encode {enc enc' : State} {record : List Byte} (hinv : Inv enc) (hrun : enc.err = none)
    (hchunk : enc.symbuf ≠ []) (hexec : exec .encode enc = .next enc') (hok : enc'.err = none)
    (hout : enc'.outq = enc.outq ++ record) :
    ∃ t, buildTree (countSymbols enc.symbuf) = some t ∧
      record = recordOf enc.chunkIdx (countWord enc.symbuf.length) t (packBits (bitsOf (codesOf t) enc.symbuf)) ∧
      (packBits (bitsOf (codesOf t) enc.symbuf)).length ≤ enc.params.payMax := by
  obtain ⟨t, hbuilt⟩ := exists_buildTree_countSymbols hchunk
  have hrule := (exec_eq_next_iff Instr.noConfusion hrun hok).1 hexec
  rw [commandRule, encodeChunk_eq hbuilt hchunk (countWord_length_ne_zero hinv hchunk)] at hrule
  split at hrule
  next => cases hrule
  next hroom =>
    obtain rfl := (ok_iff _ _).1 hrule
    refine ⟨t, hbuilt, (List.append_cancel_left hout).symm, ?_⟩
    rw [length_packBits]
    exact Nat.le_of_not_lt (not_or.1 hroom).1

/-- The trie of a chunk fits the trie store. -/
theorem nodes_le_of_chunk {s : State} {t : Tree} (h : Inv s) (hrun : s.err = none)
    (hbuilt : buildTree (countSymbols s.symbuf) = some t) : nodes t ≤ s.params.nodeMax :=
  (nodes_le_of_buildTree (inv_countChunk h hrun) hbuilt).1

theorem payMax_le {s : State} (h : Inv s) : s.params.payMax ≤ 2 ^ 32 - 1 := by
  obtain ⟨-, -, -, hpayMax, -⟩ := (params_wf_iff _).1 h.params
  exact hpayMax

/-- Settles O58: the record holds the chunk's own trie and the payload packed with its codes, which unpack to the
chunk. -/
theorem decodeReversesEncode : Obligations.DecodeReversesEncode := by
  intro enc enc' dec record rest hinv hencRun hchunk hexec hok hout hparams hrun hq
  obtain ⟨t, hbuilt, rfl, hpay⟩ := exists_recordOf_of_encode hinv hencRun hchunk hexec hok hout
  have hword := toNat_ofNat_word (hpay.trans (payMax_le hinv))
  have hnodes := nodes_le_of_chunk hinv hencRun hbuilt
  have hunpacked := unpackBits_packBits_bitsOf fun x => (mem_leafSymbols_of_buildTree_countSymbols hbuilt x).2
  have hdecode := (decodeReadsOneRecord dec hrun).2 _ _ _ t _ rest hq hword.symm (hparams ▸ hnodes)
  rw [hword, toNat_countWord_symbuf hinv] at hdecode
  exact (hdecode.2 (hparams ▸ hpay) (hparams ▸ hinv.symbuf_le)).2 _ _ hunpacked

/-- Settles O59: the cut falls into one field of the record, whose rule fails. -/
theorem cutRecordsFaultByPosition : Obligations.CutRecordsFaultByPosition := by
  intro enc enc' dec record k hinv hencRun hchunk hexec hok hout hparams hrun hk hq
  obtain ⟨t, hbuilt, rfl, hpay⟩ := exists_recordOf_of_encode hinv hencRun hchunk hexec hok hout
  have hnodes := nodes_le_of_chunk hinv hencRun hbuilt
  have hrule := decodeRecord_of_cut (s := clearEoc dec) hq hk (hparams ▸ hnodes) (hparams ▸ hpay)
    (hpay.trans (payMax_le hinv))
  rw [length_serialize, leaves_of_buildTree hbuilt, distinct_countSymbols] at hrule
  split
  next hzero => exact exec_decode_of_inq_nil hrun (by rw [hq, hzero, List.take_zero])
  next hsome =>
    have hne : dec.inq ≠ [] := by
      rw [← List.length_pos_iff, hq, List.length_take]
      omega
    rw [exec_decode_of_error hrun hne hrule]
    unfold cutFault
    split
    next => rfl
    next => split <;> rfl

end Sys2Proof.Machine
end

section
/-! # The container header

`WRHDR` and `RDHDR` (47_container.md R151, R152): each rule on the one condition that it depends on, run as its
command. -/

namespace Sys2Proof.Machine

/-- The rule of `WRHDR` fails only for want of room for the 8 bytes of `TOTAL` (R151). -/
theorem writeHeader_eq (s : State) :
    writeHeader s =
      if s.params.outqMax < s.outq.length + 8 then .error .capacity
      else .ok { s with outq := s.outq ++ be64 s.total, chunkIdx := 0#32 } := by
  rw [← length_be64 s.total]
  split
  next hfull => exact (writeHeader_error s _).2 ⟨hfull, rfl⟩
  next hroom => exact (writeHeader_ok s _).2 ⟨Nat.le_of_not_lt hroom, rfl⟩

theorem ofNat_fromBE_be64 (v : DWord) : BitVec.ofNat 64 (fromBE (be64 v)) = v := by
  rw [fromBE_be64, BitVec.ofNat_toNat, BitVec.setWidth_eq]

/-- The rule of `RDHDR` on a queue that begins with a header (R152). -/
theorem readHeader_of_total {s : State} {n : DWord} {rest : List Byte} (hq : s.inq = be64 n ++ rest) :
    readHeader s = .ok { s with inq := rest, total := n, proc := 0#64, eoc := false } := by
  have htaken : inTake 8 s.inq = some (be64 n, rest) := (inTake_eq_some _ _ _ _).2 ⟨hq, length_be64 n⟩
  refine (readHeader_ok s _).2 ⟨_, _, htaken, ?_⟩
  rw [ofNat_fromBE_be64]

/-- Settles O60: `WRHDR` fails only for want of room, `RDHDR` only on a queue shorter than the header. -/
theorem headerCommands : Obligations.HeaderCommands := by
  refine ⟨by decide, by decide, fun s hrun => ⟨?write, fun hshort => ?short, fun n rest hq => ?read⟩⟩
  case write => exact exec_of_commandRule_ite Instr.noConfusion hrun (writeHeader_eq s)
  case short => exact exec_of_commandRule_error Instr.noConfusion hrun ((readHeader_error s _).2 ⟨hshort, rfl⟩)
  case read => exact exec_of_commandRule_ok Instr.noConfusion hrun (readHeader_of_total hq)

end Sys2Proof.Machine
end

section
/-! # Exceptions

The faulted state (60_exceptions.md R170 to R173): how a command enters it, with which fault kinds, and how it is left. -/

namespace Sys2Proof.Machine

open Sys2Proof.Rules

/-! ## In the faulted state -/

/-- In the faulted state `CMD` takes no word but the one of `SRESET` (60_exceptions.md R172). -/
theorem writeCmd_of_faulted {s : State} (hfaulted : s.err ≠ none) {w : Word} (hw : w ≠ encode .sreset) :
    writeCmd w s = .next s := by
  cases hdecode : decode w with
  | instr i =>
    obtain rfl := encode_of_decode hdecode
    rw [writeCmd_encode]
    exact exec_faulted i s (ne_of_apply_ne encode hw) hfaulted
  | illegal why => rw [writeCmd_of_illegal hdecode, if_neg hfaulted]

/-- Settles O19: the write reaches `CMD`, and `0x00000001` is the word of `SRESET`. -/
theorem faultedStateIgnoresCommands : Obligations.FaultedStateIgnoresCommands := by
  intro s w hfaulted hw
  rw [perform_write_base]
  exact writeCmd_of_faulted hfaulted hw

/-! ## Leaving the faulted state -/

/-- An access that reaches a register is 4 bytes wide and at the register's address. -/
theorem address_of_locate {p : Config.Params} {addr n : Nat} {r : Reg} (h : locate p addr n = .ok r) :
    n = 4 ∧ addr = p.base + regOffset r := by
  obtain ⟨rfl, haligned, hbase, hle⟩ := (locate_ok_iff p addr n).1 ⟨r, h⟩
  obtain ⟨r', hr'⟩ := exists_regOffset_eq haligned (by omega)
  obtain rfl : p.base + regOffset r' = addr := by omega
  obtain rfl : r' = r := Except.ok.inj ((locate_register p r').symm.trans h)
  exact ⟨rfl, rfl⟩

/-- A read that is performed gives the host a register's value. -/
theorem register_of_perform_read {addr n : Nat} {s t : State} (h : perform (.read addr n) s = .next t) :
    ∃ r, t = recordRead (readReg r s).1 (readReg r s).2 := by
  simp only [perform] at h
  split at h
  next => cases h
  next r _ => exact ⟨r, (Host.Outcome.next.inj h).symm⟩

/-- A write that is performed is a write of a register, at the register's address. -/
theorem register_of_perform_write {addr n : Nat} {v : Word} {s t : State}
    (h : perform (.write addr n v) s = .next t) :
    ∃ r, n = 4 ∧ addr = s.params.base + regOffset r ∧ writeReg r v s = .next t := by
  simp only [perform] at h
  split at h
  next => cases h
  next r hr =>
    obtain ⟨hn, haddr⟩ := address_of_locate hr
    exact ⟨r, hn, haddr, h⟩

/-- Settles O20: reads and writes of the other registers keep the fault registers, and `CMD` takes only the word of
`SRESET`. -/
theorem onlyResetLeavesTheFaultedState : Obligations.OnlyResetLeavesTheFaultedState := by
  intro x s t hfaulted h
  cases x with
  | hardwareReset => exact .inr ⟨.inl rfl, (Host.Outcome.next.inj h).symm⟩
  | read addr n =>
    obtain ⟨r, rfl⟩ := register_of_perform_read h
    obtain ⟨-, -, -, herr, hinfo⟩ := readReg_frame r s
    exact .inl ⟨herr, hinfo⟩
  | write addr n v =>
    obtain ⟨r, rfl, rfl, hwrite⟩ := register_of_perform_write h
    rcases writeReg_cases r v s with ⟨rfl, hcmd⟩ | ⟨-, hdata⟩
    · rw [hcmd] at hwrite
      by_cases hv : v = encode .sreset
      · rw [hv, writeCmd_encode] at hwrite
        exact .inr ⟨.inr (hv ▸ rfl), (Host.Outcome.next.inj hwrite).symm⟩
      · rw [writeCmd_of_faulted hfaulted hv] at hwrite
        cases hwrite
        exact .inl ⟨rfl, rfl⟩
    · obtain rfl := Host.Outcome.next.inj (hdata.symm.trans hwrite)
      obtain ⟨-, -, -, herr, hinfo⟩ := writeDataReg_frame r v s
      exact .inl ⟨herr, hinfo⟩

/-! ## Entering the faulted state -/

theorem commandBase_eq_faultBase (i : Instr) (s : State) : commandBase i s = faultBase i s := by
  cases i <;> rfl

/-- A command that ends with a fault recorded entered it because its rule failed with it: a rule that completes leaves
`ERR`, and `SRESET` clears it. -/
theorem fault_of_exec {i : Instr} {s t : State} {e : ErrKind} (hrun : s.err = none) (h : exec i s = .next t)
    (he : t.err = some e) : commandRule i s = .error e ∧ t = afterFault e (encode i) (faultBase i s) := by
  rcases exec_cases h with ⟨-, rfl⟩ | ⟨-, hfaulted, -⟩ | ⟨hi, -, hok⟩ | ⟨-, -, e', hfails, rfl⟩
  · cases he
  · exact absurd hrun hfaulted
  · obtain ⟨-, -, -, hkeeps⟩ := commandRule_frame hok
    obtain ⟨herr, -⟩ := hkeeps hi
    cases he.symm.trans (herr.trans hrun)
  · obtain rfl : e' = e := Option.some.inj he
    exact ⟨hfails, congrArg _ (commandBase_eq_faultBase i s)⟩

/-- Settles O21: the fault is entered from the command's start state, `EOC` of `RDHEAD` and `DECODE` apart. -/
theorem faultEntryDiscardsTheCommand : Obligations.FaultEntryDiscardsTheCommand := by
  intro i s t e hrun h he
  obtain ⟨-, ht⟩ := fault_of_exec hrun h he
  exact ht

/-! ## Which kinds a command raises -/

theorem eq_capacity_of_outPut_error {b : List Byte} {s : State} {e : ErrKind} (h : outPut b s = .error e) :
    e = .capacity := by
  obtain ⟨-, rfl⟩ := (outPut_eq_error b s e).1 h
  rfl

/-- `ENCODE` has counted the chunk, so it builds a trie and codes with every symbol in them: only room can be missing
(46_chunk_codec.md R134). -/
theorem eq_capacity_of_encodeChunk_error {s : State} {e : ErrKind} (hinv : Inv s) (h : encodeChunk s = .error e) :
    e = .capacity := by
  obtain ⟨hchunk, -⟩ := (encodeChunk_error s e).1 h
  obtain ⟨t, hbuilt⟩ := exists_buildTree_countSymbols hchunk
  rw [encodeChunk_eq hbuilt hchunk (countWord_length_ne_zero hinv hchunk)] at h
  split at h
  next => exact (error_iff _ _).1 h
  next => cases h

theorem mem_mayRaise_of_readTrie_error {s : State} {e : ErrKind} (h : readTrie s = .error e) :
    e ∈ mayRaise .desertrie := by
  rcases (readTrie_error s e).1 h with ⟨-, rfl⟩ | ⟨-, rfl⟩ <;> decide

theorem mem_mayRaise_of_readPay_error {s : State} {e : ErrKind} (h : readPay s = .error e) :
    e ∈ mayRaise .rdpay := by
  rcases (readPay_error s e).1 h with ⟨-, rfl⟩ | ⟨_, _, -, ⟨-, rfl⟩ | ⟨-, -, rfl⟩⟩ <;> decide

/-- `DECODE` unpacks with the trie and the payload it has just read, so a record raises no `SequenceError`
(46_chunk_codec.md R140). -/
theorem mem_mayRaise_of_decodeRecord_error {s : State} {e : ErrKind} (h : decodeRecord s = .error e) :
    e ∈ mayRaise .decode := by
  rcases (decodeRecord_error s e).1 h with hhead | ⟨s₁, -, htrie | ⟨s₂, htrie, hpay | ⟨s₃, hpay, hunpack⟩⟩⟩
  · obtain ⟨-, rfl⟩ := (readHead_error s e).1 hhead
    decide
  · have hsub : mayRaise .desertrie ⊆ mayRaise .decode := by decide
    exact hsub (mem_mayRaise_of_readTrie_error htrie)
  · have hsub : mayRaise .rdpay ⊆ mayRaise .decode := by decide
    exact hsub (mem_mayRaise_of_readPay_error hpay)
  · obtain ⟨tr, _, _, -, rfl⟩ := (readTrie_ok _ _).1 htrie
    obtain ⟨_, _, _, _, -, -, -, rfl⟩ := (readPay_ok _ _).1 hpay
    rcases (unpackPayload_error _ _).1 hunpack with ⟨hnone | hunpaid, -⟩ | ⟨_, -, -, ⟨-, rfl⟩ | ⟨-, -, rfl⟩⟩
    · cases hnone
    · cases hunpaid
    · decide
    · decide

/-- The "Raised by" column of 60_exceptions.md R161, command by command. -/
theorem mem_mayRaise_of_commandRule_error {i : Instr} {s : State} {e : ErrKind} (hinv : Inv s)
    (h : commandRule i s = .error e) : e ∈ mayRaise i := by
  cases i with
  | nop | sreset | clrchunk | clrin | freq => cases h
  | pushs x => obtain ⟨-, rfl⟩ := (pushSymbol_error x s e).1 h; exact List.mem_singleton_self _
  | pushb b => obtain ⟨-, rfl⟩ := (pushByte_error b s e).1 h; exact List.mem_singleton_self _
  | build =>
    rcases (buildTrie_error s e).1 h with ⟨-, rfl⟩ | ⟨-, -, rfl⟩ <;> decide
  | codes => obtain ⟨-, rfl⟩ := (makeCodes_error s e).1 h; decide
  | pack =>
    rcases (packChunk_error s e).1 h with ⟨-, rfl⟩ | ⟨-, -, rfl⟩ | ⟨-, _, -, -, rfl⟩ <;> decide
  | unpack =>
    rcases (unpackPayload_error s e).1 h with ⟨-, rfl⟩ | ⟨_, -, -, ⟨-, rfl⟩ | ⟨-, -, rfl⟩⟩ <;> decide
  | sertrie =>
    rcases (writeTrie_error s e).1 h with ⟨-, rfl⟩ | ⟨_, -, hput⟩
    · decide
    · obtain rfl := eq_capacity_of_outPut_error hput; decide
  | desertrie => exact mem_mayRaise_of_readTrie_error h
  | wrhead =>
    rcases (writeHead_error s e).1 h with ⟨-, rfl⟩ | ⟨-, -, rfl⟩ <;> decide
  | wrpay =>
    rcases (writePay_error s e).1 h with ⟨-, rfl⟩ | ⟨-, hput⟩
    · decide
    · obtain rfl := eq_capacity_of_outPut_error hput; decide
  | emitrec =>
    rcases (emitRecord_error s e).1 h with ⟨-, rfl⟩ | ⟨_, -, -, -, -, rfl⟩ <;> decide
  | encode => obtain rfl := eq_capacity_of_encodeChunk_error hinv h; decide
  | rdhead =>
    obtain ⟨-, hbody⟩ := (atRecordStart_error readHead s e).1 h
    obtain ⟨-, rfl⟩ := (readHead_error _ e).1 hbody
    decide
  | rdpay => exact mem_mayRaise_of_readPay_error h
  | decode =>
    obtain ⟨-, hbody⟩ := (atRecordStart_error decodeRecord s e).1 h
    exact mem_mayRaise_of_decodeRecord_error hbody
  | wrhdr => obtain ⟨-, rfl⟩ := (writeHeader_error s e).1 h; decide
  | rdhdr => obtain ⟨-, rfl⟩ := (readHeader_error s e).1 h; decide

/-- Settles O22: the fault recorded is the one the command's rule failed with. -/
theorem commandsRaiseOnlyTheirFaults : Obligations.CommandsRaiseOnlyTheirFaults := by
  intro i s t e hinv hrun h he
  obtain ⟨hfails, -⟩ := fault_of_exec hrun h he
  exact mem_mayRaise_of_commandRule_error hinv hfails

end Sys2Proof.Machine
end
